-- ==== Sys2Proof/Word.lean ====
section
/-! DEFINITION. The word types of the CORE (00_scope.md R7, R10), its four-lane vector (10_state.md R40) and its banks of
eight registers (10_state.md R33, R34). -/

namespace Sys2Proof

/-- One byte of memory, of a stream or of a table row. -/
abbrev Byte := BitVec 8

/-- A value, a CSR or a memory address: 32 bits (R7: `VALUE_W`, `CSR_W`, `ADDR_W`). `+` and `-` are `add32` and `sub32` of R10. -/
abbrev Word := BitVec 32

/-- Four 32-bit lanes, lane 0 first: a group of four values (R110), or one 128-bit vector register (R40). -/
structure Quad where
  q0 : Word
  q1 : Word
  q2 : Word
  q3 : Word
deriving DecidableEq, Repr

/-- All four lanes zero. -/
def Quad.zero : Quad := ⟨0, 0, 0, 0⟩

/-- The lanes in order. -/
def Quad.toList (q : Quad) : List Word := [q.q0, q.q1, q.q2, q.q3]

/-- Eight 32-bit registers: `lo` holds registers 0 to 3, `hi` holds 4 to 7 (R33: the first and the second group). -/
structure Bank where
  lo : Quad
  hi : Quad
deriving DecidableEq, Repr

/-- All eight registers zero. -/
def Bank.zero : Bank := ⟨Quad.zero, Quad.zero⟩

/-- The registers in order. -/
def Bank.toList (b : Bank) : List Word := b.lo.toList ++ b.hi.toList

end Sys2Proof
end

