-- ==== Sys2Proof/Config.lean ====
section
/-! DEFINITION. What an instance of the CORE fixes (00_scope.md R7), and the values the spec leaves free. -/

namespace Sys2Proof

/-- `ID_VALUE` (R7, R17). -/
def Config.idValue : Word := 0x53564231

/-- `BULK_ACCEL`: values per bulk step in the Accelerated mode (R7, R136). -/
def Config.bulkAccel : Nat := 32

/-- `BULK_SCALAR`: values per bulk step in the Scalar mode (R7, R136). -/
def Config.bulkScalar : Nat := 16

/-- `MARGIN`: the boundary-safety margin in values (R7, R136). -/
def Config.margin : Nat := 12

/-- `PACK_BYTES`: the size of the packed window (R7). -/
def Config.packBytes : Nat := 32

/-- What a byte of memory that nothing has written reads as. DESIGN CHOICE (log 4), unsafe: the initial contents of memory
are the platform's (70_reset_and_hazards.md R170). -/
def Config.unlistedByte : Byte := 0

/-- `ACCEL_PRESENT`, left open by R7 (log 6). -/
opaque Config.accelPresent : Bool

/-- `MEM_FAULTS`, left open by R7 (log 6). -/
opaque Config.memFaults : Bool

/-- The free value of the byte at an address at one occasion (log 7): any value (R173, R174, I15, I16). -/
opaque Config.freeByte : (occasion address : Nat) → Byte

/-- The free value of a CSR result at one occasion (log 9, log 17): slot 0 is `RESULT_LEN`, slot 1 is `PREV`. -/
opaque Config.freeWord : (occasion slot : Nat) → Word

/-- The free choice among the values the spec allows a byte at one occasion (log 8, log 9). -/
opaque Config.freeChoice : (occasion address : Nat) → Nat

end Sys2Proof
end

