-- ==== Sys2Proof/Syntax.lean ====
section
/-! DEFINITION. The command set: one constructor per row of the opcode table (30_encoding.md R70), and the fields of a
command word (30_encoding.md R69). -/

namespace Sys2Proof

/-- A command. Its only field is `FORCE_SCALAR` (10_state.md R21, R22); every operand is read from the CSRs (R72). -/
inductive Instr where
  /-- `LEN_LOOKUP`, R93. -/
  | lenLookup (forceScalar : Bool)
  /-- `LEN_LOOKUP_WORD`, R94. -/
  | lenLookupWord (forceScalar : Bool)
  /-- `SHUF_ENC_READ`, R95. -/
  | shufEncRead (forceScalar : Bool)
  /-- `SHUF_DEC_READ`, R96. -/
  | shufDecRead (forceScalar : Bool)
  /-- `CTRL_BYTE`, R108. -/
  | ctrlByte (forceScalar : Bool)
  /-- `CTRL_WORD`, R109. -/
  | ctrlWord (forceScalar : Bool)
  /-- `ENCODE4`, R122. -/
  | encode4 (forceScalar : Bool)
  /-- `ENCODE8`, R123. -/
  | encode8 (forceScalar : Bool)
  /-- `ENCODE4_DELTA`, R124. -/
  | encode4Delta (forceScalar : Bool)
  /-- `ENCODE8_DELTA`, R125. -/
  | encode8Delta (forceScalar : Bool)
  /-- `DECODE4`, R126. -/
  | decode4 (forceScalar : Bool)
  /-- `DECODE8`, R127. -/
  | decode8 (forceScalar : Bool)
  /-- `DECODE4_DELTA`, R128. -/
  | decode4Delta (forceScalar : Bool)
  /-- `DECODE8_DELTA`, R129. -/
  | decode8Delta (forceScalar : Bool)
  /-- `WRITE_ALL`, R146. -/
  | writeAll (forceScalar : Bool)
  /-- `WRITE_ALL_DELTA`, R147. -/
  | writeAllDelta (forceScalar : Bool)
  /-- `READ_ALL`, R148. -/
  | readAll (forceScalar : Bool)
  /-- `READ_ALL_DELTA`, R149. -/
  | readAllDelta (forceScalar : Bool)
deriving DecidableEq, Repr

/-- The fields of a command word, most significant first (R69). -/
structure CommandFields where
  /-- Bits [31:9], reserved, must be written 0. -/
  reservedHigh : BitVec 23
  /-- Bit [8], `FORCE_SCALAR`. -/
  forceScalar : Bool
  /-- Bits [7:6], reserved, must be written 0. -/
  reservedLow : BitVec 2
  /-- Bits [5:0], `OPCODE`. -/
  opcode : BitVec 6
deriving DecidableEq, Repr

/-- Why a word spells no command (R71). -/
inductive IllegalWord where
  /-- Bits [31:9] are not zero. -/
  | reservedHigh
  /-- Bits [7:6] are not zero. -/
  | reservedLow
  /-- `OPCODE` is 0x00, 0x07, 0x11, 0x13, 0x15 or 0x17 to 0x3F. -/
  | unmappedOpcode
deriving DecidableEq, Repr

/-- What decoding a word answers: one of the 18 commands, or the reason it is illegal (R71). -/
inductive Decoded where
  | command (i : Instr)
  | illegal (why : IllegalWord)
deriving DecidableEq, Repr

end Sys2Proof
end

