-- ==== Sys2Proof/Machine/State.lean ====
section
/-! DEFINITION. The state of the CORE as plain data (10_state.md), with the coming inputs of its surroundings, and its value
after reset (70_reset_and_hazards.md R170). -/

namespace Sys2Proof.Machine

/-- Memory (20_memory.md R50): pairs of a byte's place and its value, places strictly rising, no value equal to `Config.unlistedByte`. The
place of an address is the address itself where the platform has no mirror. -/
abbrev Memory := List Host.Cell

/-- The platform's mirrors (70_reset_and_hazards.md R174): pairs of an address and the place in memory it reaches. An address that is not
listed reaches the place of its own number (log 17). -/
abbrev Mirrors := List (Nat × Nat)

/-- `STATUS` (10_state.md R23). The bits without a field here are RAZ. -/
structure Status where
  /-- Bit [0]. -/
  busy : Bool
  /-- Bit [1]. -/
  done : Bool
  /-- Bit [2]. -/
  err : Bool
  /-- Bit [3]. -/
  overrun : Bool
  /-- Bits [11:8]. -/
  errCode : BitVec 4
  /-- Bit [12]. -/
  errWin : Bool
deriving DecidableEq, Repr

/-- The two windows of a stream command (20_memory.md R52), in the order of `ERR_WIN` (R23). -/
inductive Window where
  /-- `[SRC_ADDR, SRC_ADDR + SRC_LEN)`, `ERR_WIN = 0`. -/
  | input
  /-- `[DST_ADDR, DST_ADDR + DST_CAP)`, `ERR_WIN = 1`. -/
  | output
deriving DecidableEq, Repr

/-- The errors a command can end with (60_exceptions.md R151), with what R154 records of each. -/
inductive CmdError where
  | illegalCmd
  | addrRange (win : Window)
  | bufferOverlap
  | bufferTooSmall (win : Window) (req : Nat)
  | busError
deriving DecidableEq, Repr

/-- The operand CSRs: what a command may read (10_state.md R37), and so what its snapshot holds (R41). -/
structure Operands where
  /-- `COUNT` (R26). -/
  count : Word
  /-- `PREV` (R27). -/
  prev : Word
  /-- `SRC_ADDR` (R28). -/
  srcAddr : Word
  /-- `SRC_LEN` (R28). -/
  srcLen : Word
  /-- `DST_ADDR` (R29). -/
  dstAddr : Word
  /-- `DST_CAP` (R29). -/
  dstCap : Word
  /-- `CTRL_IO.CTRL` (R30). -/
  ctrl : BitVec 16
  /-- `PACK_LEN.LEN` (R31). -/
  packLen : BitVec 6
  /-- `VAL_0` to `VAL_7` (R33). -/
  vals : Bank
  /-- `PACK_0` to `PACK_7` (R34). -/
  pack : Bank
deriving DecidableEq, Repr

/-- The engine (R41): idle, or busy with an accepted word and the operands snapshotted at its acceptance. `race` is the model's own:
the memory as it stood when the host first wrote into a window of this command while it ran, none while it has not
(70_reset_and_hazards.md R173, log 9). -/
inductive Engine where
  | idle
  | busy (cmd : Word) (snap : Operands) (race : Option Memory)
deriving DecidableEq, Repr

/-- An access to the CSR block (R15): `off` is `csr_addr`, a byte offset. -/
inductive CsrAccess where
  | read (off : BitVec 12)
  | write (off : BitVec 12) (data : Word)
deriving DecidableEq, Repr

/-- What the host does in one cycle (R13, R14). -/
inductive HostOp where
  /-- No access. -/
  | idle
  /-- A CSR access. -/
  | csr (access : CsrAccess)
  /-- The host reads one byte of memory. -/
  | memRead (addr : Word)
  /-- The host writes one byte of memory. -/
  | memWrite (addr : Word) (data : Byte)
  /-- A clock edge with `rst = 1` (R169), with the CSR access made at it, if any. -/
  | rst (access : Option CsrAccess)
deriving DecidableEq, Repr

/-- Whose turn it is (log 1): the host's, or the engine's to perform and complete its command. -/
inductive Turn where
  | host (op : HostOp)
  | engine
deriving DecidableEq, Repr

/-- Why the machine could stop with a fault. The spec has none: "Every command completes" (R45), and an error is a completion with
an error record (60_exceptions.md R157). So the type has no constructor, and no step can fault (log 15); safe. -/
inductive Fault where
deriving DecidableEq, Repr

/-- Why a command could have no meaning. -/
inductive Refusal where
  /-- Raised by an arm of `exec` whose command has no meaning yet; safe. No arm raises it: all 18 commands are modelled. -/
  | notModelled (mnemonic : String)
deriving DecidableEq, Repr

/-- The state of the CORE, of memory, and of the inputs to come. -/
structure State where
  /-- `CAPS.ACCEL_PRESENT` (R18): an instance parameter, never changed. -/
  accelPresent : Bool
  /-- `MODE.ACCEL` (R19, R20). -/
  modeAccel : Bool
  /-- `CMD` (R22): the last accepted word. -/
  cmd : Word
  /-- `STATUS` (R23). -/
  status : Status
  /-- `IRQ_EN.DONE_EN` (R25). -/
  doneEn : Bool
  /-- The operand CSRs. -/
  ops : Operands
  /-- `RESULT_LEN` (R32). -/
  resultLen : Word
  /-- `LENS` (R35). -/
  lens : Word
  /-- `LENS_HI` (R35). -/
  lensHi : Word
  /-- The engine state (R41). -/
  engine : Engine
  /-- Memory, shared with the host (R13). -/
  mem : Memory
  /-- The platform's mirrors, never changed (70_reset_and_hazards.md R174). The model's own form (log 17). -/
  mirrors : Mirrors
  /-- `csr_rdata` (R14): what the last CSR read returned. -/
  csrRdata : Word
  /-- What the host's last memory read returned. The model's own (log 10). -/
  hostRdata : Byte
  /-- `MEM_FAULTS` (00_scope.md R7): an instance parameter, never changed. -/
  memFaults : Bool
  /-- The `mem_err` answers to the engine's coming accesses; an access beyond the list is answered 0. The model's own (log 5). -/
  memErrs : List Bool
  /-- The coming turns; when none is left the host is idle and the turn is the engine's. The model's own (log 1). -/
  turns : List Turn
  /-- The occasion the next free value is taken at. The model's own (log 7). -/
  free : Nat
deriving DecidableEq, Repr

/-- `STATUS` after reset (R170). -/
def Status.reset : Status :=
  { busy := false, done := false, err := false, overrun := false, errCode := 0, errWin := false }

/-- The operand CSRs after reset (R170): `PACK_LEN` is 32, the others 0. -/
def Operands.reset : Operands :=
  { count := 0, prev := 0, srcAddr := 0, srcLen := 0, dstAddr := 0, dstCap := 0, ctrl := 0, packLen := 32,
    vals := Bank.zero, pack := Bank.zero }

/-- The machine right after reset (R170), with nothing stored in memory and no input pending (log 1, log 4, log 5, log 10), on a platform
without mirrors (log 17). -/
def State.reset : State :=
  { accelPresent := Config.accelPresent, modeAccel := Config.accelPresent, cmd := 0, status := Status.reset, doneEn := false,
    ops := Operands.reset, resultLen := 0, lens := 0, lensHi := 0, engine := .idle, mem := [], mirrors := [], csrRdata := 0, hostRdata := 0,
    memFaults := Config.memFaults, memErrs := [], turns := [], free := 0 }

end Sys2Proof.Machine
end

