-- ==== Sys2Proof/Machine/Flags.lean ====
section
/-! DEFINITION. The `STATUS` word and every change of its flags (10_state.md R23, R24, R38, R42, R43, R46; 60_exceptions.md R154), and
the interrupt output (R160). No command has a data-dependent flag (R38). -/

namespace Sys2Proof.Machine

/-- The `STATUS` CSR as the host reads it (R23); the reserved bits read 0. -/
def Status.toWord (st : Status) : Word :=
  (0 : BitVec 19) ++ BitVec.ofBool st.errWin ++ st.errCode ++ (0 : BitVec 4) ++ BitVec.ofBool st.overrun ++ BitVec.ofBool st.err
    ++ BitVec.ofBool st.done ++ BitVec.ofBool st.busy

/-- `STATUS` at accept (R42): `OVERRUN` is not changed. -/
def Status.accepted (st : Status) : Status :=
  { st with busy := true, done := false, err := false, errCode := 0, errWin := false }

/-- `STATUS` at a successful completion (R46). -/
def Status.completed (st : Status) : Status := { st with busy := false, done := true }

/-- `STATUS` at a completion with an error (R46, R154). -/
def Status.failed (st : Status) (code : BitVec 4) (win : Bool) : Status :=
  { st with busy := false, done := true, err := true, errCode := code, errWin := win }

/-- `STATUS` after a dropped write (R43). -/
def Status.overran (st : Status) : Status := { st with overrun := true }

/-- A host write of `w` to `STATUS` (R24): bits 1, 2 and 3 clear what they name, the others are ignored. -/
def Status.hostWrite (st : Status) (w : Word) : Status :=
  { st with
    done := st.done && !w.getLsbD 1
    err := st.err && !w.getLsbD 2
    errCode := if w.getLsbD 2 then 0 else st.errCode
    errWin := st.errWin && !w.getLsbD 2
    overrun := st.overrun && !w.getLsbD 3 }

/-- `ERR_CODE` of an error (R151). -/
def CmdError.code : CmdError → BitVec 4
  | .illegalCmd => 1
  | .addrRange _ => 2
  | .bufferOverlap => 3
  | .bufferTooSmall _ _ => 4
  | .busError => 5

/-- `ERR_WIN` of a window (R23). -/
def Window.errWin : Window → Bool
  | .input => false
  | .output => true

/-- `ERR_WIN` of an error (R151). -/
def CmdError.win : CmdError → Bool
  | .illegalCmd => false
  | .addrRange w => w.errWin
  | .bufferOverlap => false
  | .bufferTooSmall w _ => w.errWin
  | .busError => false

/-- The interrupt output (60_exceptions.md R160): `irq = STATUS.DONE AND IRQ_EN.DONE_EN`. -/
def State.irq (s : State) : Bool := s.status.done && s.doneEn

end Sys2Proof.Machine
end

