-- ==== Sys2Proof/Machine/Bytes.lean ====
section
/-! DEFINITION. Byte order, lanes and register banks (00_scope.md R9, R11; 30_encoding.md R78; 10_state.md R40). -/

namespace Sys2Proof.Machine

/-- Byte `k` of a word, `v[8k+7:8k]`. -/
def byteOf (v : Word) (k : Nat) : Byte := v.extractLsb' (8 * k) 8

/-- `lebytes(v, n)` (R11): the `n` low-order bytes of `v`, least significant first. -/
def lebytes (v : Word) (n : Nat) : List Byte := (List.range n).map (byteOf v)

/-- `le(s)` (R11) as an unbounded number. -/
def leNat : List Byte → Nat
  | [] => 0
  | b :: bs => b.toNat + 256 * leNat bs

/-- `zext_32(le(s))` for a sequence of at most 4 bytes. -/
def le (bs : List Byte) : Word := BitVec.ofNat 32 (leNat bs)

/-- The 32-bit little-endian words of a byte sequence, in order (20_memory.md R53). -/
def wordsOf : List Byte → List Word
  | b0 :: b1 :: b2 :: b3 :: rest => le [b0, b1, b2, b3] :: wordsOf rest
  | _ => []

/-- A list of words as little-endian memory bytes (R53). -/
def bytesOfWords (ws : List Word) : List Byte := ws.flatMap fun w => lebytes w 4

/-- The 16 bytes of a vector register: byte `4i + b` is byte `b` of lane `i` (R40, R87). -/
def laneBytes (q : Quad) : List Byte := bytesOfWords q.toList

/-- The four lanes of a 16-byte sequence (R118). -/
def quadOfBytes (bs : List Byte) : Quad :=
  let lane (i : Nat) := le ((bs.drop (4 * i)).take 4)
  ⟨lane 0, lane 1, lane 2, lane 3⟩

/-- Register `k` of a bank. -/
def bankGet (b : Bank) : Fin 8 → Word
  | 0 => b.lo.q0
  | 1 => b.lo.q1
  | 2 => b.lo.q2
  | 3 => b.lo.q3
  | 4 => b.hi.q0
  | 5 => b.hi.q1
  | 6 => b.hi.q2
  | 7 => b.hi.q3

/-- The bank with register `k` set to `v`. -/
def bankSet (b : Bank) (k : Fin 8) (v : Word) : Bank :=
  match k with
  | 0 => { b with lo := { b.lo with q0 := v } }
  | 1 => { b with lo := { b.lo with q1 := v } }
  | 2 => { b with lo := { b.lo with q2 := v } }
  | 3 => { b with lo := { b.lo with q3 := v } }
  | 4 => { b with hi := { b.hi with q0 := v } }
  | 5 => { b with hi := { b.hi with q1 := v } }
  | 6 => { b with hi := { b.hi with q2 := v } }
  | 7 => { b with hi := { b.hi with q3 := v } }

/-- `PACKB[0..32)` (R78): byte `k` is bits `[8(k mod 4)+7 : 8(k mod 4)]` of register `k div 4`. -/
def packBytes (b : Bank) : List Byte := bytesOfWords b.toList

/-- The packed window that holds `bytes` from `PACKB[0]` upward and zero above them (R78, R122). -/
def packOf (bytes : List Byte) : Bank :=
  let reg (j : Nat) := le ((List.range 4).map fun b => bytes.getD (4 * j + b) 0)
  ⟨⟨reg 0, reg 1, reg 2, reg 3⟩, ⟨reg 4, reg 5, reg 6, reg 7⟩⟩

/-- The low and the high control byte of a control word (30_encoding.md R74). -/
def ctrlLo (w : BitVec 16) : Byte := w.extractLsb' 0 8

/-- The control byte of the second group of a control word (R74). -/
def ctrlHi (w : BitVec 16) : Byte := w.extractLsb' 8 8

/-- `lo | hi << 8` (R74). -/
def ctrlJoin (lo hi : Byte) : BitVec 16 := hi ++ lo

end Sys2Proof.Machine
end

