-- ==== Sys2Proof/Machine/Tables.lean ====
section
/-! DEFINITION. `length_table_rom` and `shuffle_table_rom` (40_tables.md R81 to R92). Both are total over their 256 addresses
(R90); their rows are computed from the formulas, which win over the listing (45_table_listing.md R150). -/

namespace Sys2Proof.Machine

/-- `L_i(c) = c[2i+1:2i] + 1` (R81), for `i` in 0..3. -/
def fieldLen (c : Byte) (i : Nat) : Nat := (c.extractLsb' (2 * i) 2).toNat + 1

/-- `o_i(c) = L_0 + ... + L_(i-1)` (R84). -/
def fieldOffset (c : Byte) : Nat → Nat
  | 0 => 0
  | i + 1 => fieldOffset c i + fieldLen c i

/-- `totalLength(c)` of a control byte (R82). -/
def totalLength (c : Byte) : Nat := fieldOffset c 4

/-- `totalLength(w)` of a control word (R83). -/
def totalLengthWord (w : BitVec 16) : Nat := totalLength (ctrlLo w) + totalLength (ctrlHi w)

/-- The sentinel of a shuffle mask (R85, D22). -/
def sentinel : Byte := 0xFF

/-- The lane whose packed bytes hold position `k < totalLength(c)`: the unique `i` with `o_i <= k < o_i + L_i` (R87). -/
def laneAt (c : Byte) (k : Nat) : Nat :=
  if k < fieldOffset c 1 then 0
  else if k < fieldOffset c 2 then 1
  else if k < fieldOffset c 3 then 2
  else 3

/-- `EncShuf[c][k]` (R87). -/
def encShuf (c : Byte) (k : Nat) : Byte :=
  if k < totalLength c then BitVec.ofNat 8 (4 * laneAt c k + (k - fieldOffset c (laneAt c k))) else sentinel

/-- `DecShuf[c][k]` (R88), with `k = 4i + b`. -/
def decShuf (c : Byte) (k : Nat) : Byte :=
  if k % 4 < fieldLen c (k / 4) then BitVec.ofNat 8 (fieldOffset c (k / 4) + k % 4) else sentinel

/-- The two banks of `shuffle_table_rom` (R92). -/
inductive ShufBank where
  | enc
  | dec
deriving DecidableEq, Repr

/-- The 16 entries of a row of `shuffle_table_rom` (R92). -/
def shuffleRom (bank : ShufBank) (c : Byte) : List Byte :=
  match bank with
  | .enc => (List.range 16).map (encShuf c)
  | .dec => (List.range 16).map (decShuf c)

/-- `shuffle(src, m)` (R86): an entry with bit 7 set zero-fills, another selects byte `e[3:0]`. -/
def shuffle (src mask : List Byte) : List Byte :=
  mask.map fun e => if e.getLsbD 7 then 0 else src.getD (e.extractLsb' 0 4).toNat 0

/-- The lengths of a control byte as `LENS` holds them, byte `i` the length of value `i` (10_state.md R35, R93). -/
def lensWord (c : Byte) : Word :=
  BitVec.ofNat 32 (fieldLen c 0 + fieldLen c 1 * 2 ^ 8 + fieldLen c 2 * 2 ^ 16 + fieldLen c 3 * 2 ^ 24)

end Sys2Proof.Machine
end

