-- ==== Sys2Proof/Machine/ControlByte.lean ====
section
/-! DEFINITION. `control_byte_generator` (41_control_byte.md): the scalar form, which is normative (R97 to R99), and the
vectorized form, steps 1 to 5 of the kernel (R101 to R105). -/

namespace Sys2Proof.Machine

/-- The length class of a value (R97), in the second of the rule's two forms. -/
def lc (v : Word) : Nat :=
  if v.toNat < 2 ^ 8 then 1 else if v.toNat < 2 ^ 16 then 2 else if v.toNat < 2 ^ 24 then 3 else 4

/-- The number of leading zero bits of a value; 32 for 0 (R97). -/
def lzcnt (v : Word) : Nat := if v = 0 then 32 else 31 - Nat.log2 v.toNat

/-- The length class in the first form of R97, `max(1, 4 - floor(lzcnt(v) / 8))`. -/
def lcByLeadingZeros (v : Word) : Nat := max 1 (4 - lzcnt v / 8)

/-- `controlByte(v0, v1, v2, v3)` (R98). -/
def controlByte (q : Quad) : Byte :=
  BitVec.ofNat 8 ((lc q.q0 - 1) + (lc q.q1 - 1) * 2 ^ 2 + (lc q.q2 - 1) * 2 ^ 4 + (lc q.q3 - 1) * 2 ^ 6)

/-- `controlWord(v0..v7)` (R99). -/
def controlWord (b : Bank) : BitVec 16 := ctrlJoin (controlByte b.lo) (controlByte b.hi)

/-- `s16(w)` (00_scope.md R11). -/
def s16 (w : BitVec 16) : Int := w.toInt

/-- `sat_u8(x)` (00_scope.md R11). -/
def satU8 (x : Int) : Byte := if x < 0 then 0 else if 255 < x then 255 else BitVec.ofInt 8 x

/-- Step 1 (R101): the unsigned minimum of a byte with 0x01. -/
def kernelMin (b : Byte) : Byte := if b.toNat ≤ 1 then b else 1

/-- Step 2 (R102): `p_(j,h)`, the pair `h` of a lane narrowed to a byte with unsigned saturation. -/
def kernelNarrow (v : Word) (h : Nat) : Byte :=
  satU8 (s16 (kernelMin (byteOf v (2 * h + 1)) ++ kernelMin (byteOf v (2 * h))))

/-- The 16-bit lane that enters step 3 (R103): `q_j = R2[2j] | R2[2j+1] << 8`. -/
def kernelLane (v : Word) : BitVec 16 := kernelNarrow v 1 ++ kernelNarrow v 0

/-- Step 3 (R103): the signed minimum with 0x0101 in 16-bit lanes. -/
def kernelSignedMin (q : BitVec 16) : BitVec 16 := if s16 q ≤ s16 0x0101 then q else 0x0101

/-- Step 4 (R104): the unsigned saturating add of 0x7F00 in 16-bit lanes. -/
def kernelSatAdd (r : BitVec 16) : BitVec 16 := BitVec.ofNat 16 (min (r.toNat + 0x7F00) 0xFFFF)

/-- The step-4 result of one value's lane. -/
def kernelStep4 (v : Word) : BitVec 16 := kernelSatAdd (kernelSignedMin (kernelLane v))

/-- Step 5 (R105): the most significant bits of a lane's two bytes, `s[15]` and `s[7]`: the value's field. -/
def kernelField (v : Word) : BitVec 2 :=
  BitVec.ofBool ((kernelStep4 v).getLsbD 15) ++ BitVec.ofBool ((kernelStep4 v).getLsbD 7)

/-- The mask of step 5 over one register of four lanes: the control byte of that group (R105). -/
def kernelControlByte (q : Quad) : Byte :=
  kernelField q.q3 ++ kernelField q.q2 ++ kernelField q.q1 ++ kernelField q.q0

/-- The vectorized datapath's control word over both registers (R105). -/
def kernelControlWord (b : Bank) : BitVec 16 := ctrlJoin (kernelControlByte b.lo) (kernelControlByte b.hi)

end Sys2Proof.Machine
end

