-- ==== Sys2Proof/Machine/Group.lean ====
section
/-! DEFINITION. The group codec (42_group.md): the group functions (R110 to R113), the two blocks that compute them (R115,
R116), and their vectorized datapath (R117 to R120). -/

namespace Sys2Proof.Machine

/-- The packed bytes of a group (R75, R110). -/
def groupBytes (q : Quad) : List Byte :=
  lebytes q.q0 (lc q.q0) ++ lebytes q.q1 (lc q.q1) ++ lebytes q.q2 (lc q.q2) ++ lebytes q.q3 (lc q.q3)

/-- `encodeGroup(v0, v1, v2, v3) = (c, bytes)` (R110). -/
def encodeGroup (q : Quad) : Byte × List Byte := (controlByte q, groupBytes q)

/-- `zext_32(le(B[o_i .. o_i + L_i)))` (R111). -/
def fieldValue (c : Byte) (bytes : List Byte) (i : Nat) : Word := le ((bytes.drop (fieldOffset c i)).take (fieldLen c i))

/-- The four values of `decodeGroup(c, B)` (R111); the bytes it consumes are `totalLength c`. -/
def decodeGroup (c : Byte) (bytes : List Byte) : Quad :=
  ⟨fieldValue c bytes 0, fieldValue c bytes 1, fieldValue c bytes 2, fieldValue c bytes 3⟩

/-- The deltas of a group against `prev`, modulo 2^32 (R112). -/
def deltaQuad (prev : Word) (q : Quad) : Quad := ⟨q.q0 - prev, q.q1 - q.q0, q.q2 - q.q1, q.q3 - q.q2⟩

/-- The prefix sum of a group against `prev`, modulo 2^32 (R113). -/
def prefixQuad (prev : Word) (d : Quad) : Quad :=
  let v0 := prev + d.q0
  let v1 := v0 + d.q1
  let v2 := v1 + d.q2
  ⟨v0, v1, v2, v2 + d.q3⟩

/-- The deltas of eight values: two groups with `prev` carried from the first to the second (R112). -/
def deltaBank (prev : Word) (b : Bank) : Bank := ⟨deltaQuad prev b.lo, deltaQuad b.lo.q3 b.hi⟩

/-- The prefix sum of eight deltas, running through the group boundary (R113, R129). -/
def prefixBank (prev : Word) (d : Bank) : Bank :=
  let lo := prefixQuad prev d.lo
  ⟨lo, prefixQuad lo.q3 d.hi⟩

/-- What `group_pack_unit` answers (R115): the control word, the packed bytes (`t` of them; the block's positions from `t` up are
zero) and the next `prev`. -/
structure PackOut where
  ctrl : BitVec 16
  bytes : List Byte
  last : Word
deriving DecidableEq, Repr

/-- `group_pack_unit` (R115): `w8` packs 8 values, `delta` packs their deltas against `prev`. -/
def groupPack (w8 delta : Bool) (prev : Word) (v : Bank) : PackOut :=
  let x := if delta then deltaBank prev v else v
  let (c0, b0) := encodeGroup x.lo
  let (c1, b1) := encodeGroup x.hi
  if w8 then { ctrl := ctrlJoin c0 c1, bytes := b0 ++ b1, last := v.hi.q3 }
  else { ctrl := ctrlJoin c0 0, bytes := b0, last := v.lo.q3 }

/-- The bytes a group decode consumes, from `length_table_rom` (R116). -/
def groupTotal (w8 : Bool) (ctrl : BitVec 16) : Nat := if w8 then totalLengthWord ctrl else totalLength (ctrlLo ctrl)

/-- What `group_unpack_unit` answers (R116), but for `t`, which is `groupTotal`. -/
structure UnpackOut where
  vals : Bank
  last : Word
deriving DecidableEq, Repr

/-- `group_unpack_unit` (R116): `v[4..7] = 0` when `w8 = 0`. -/
def groupUnpack (w8 delta : Bool) (prev : Word) (ctrl : BitVec 16) (bytes : List Byte) : UnpackOut :=
  let lo := decodeGroup (ctrlLo ctrl) bytes
  let hi := decodeGroup (ctrlHi ctrl) (bytes.drop (totalLength (ctrlLo ctrl)))
  let x : Bank := ⟨lo, if w8 then hi else Quad.zero⟩
  let v := if delta then prefixBank prev x else x
  if w8 then { vals := v, last := v.hi.q3 } else { vals := ⟨v.lo, Quad.zero⟩, last := v.lo.q3 }

/-- Vectorized pack (R117): the 16 bytes `P = shuffle(A, EncShuf[c])`. -/
def vectorPack (c : Byte) (q : Quad) : List Byte := shuffle (laneBytes q) (shuffleRom .enc c)

/-- Vectorized unpack (R118): the lanes of `shuffle(S, DecShuf[c])`. -/
def vectorUnpack (c : Byte) (bytes : List Byte) : Quad := quadOfBytes (shuffle bytes (shuffleRom .dec c))

/-- Lane-wise addition modulo 2^32 (R119). -/
def quadAdd (a b : Quad) : Quad := ⟨a.q0 + b.q0, a.q1 + b.q1, a.q2 + b.q2, a.q3 + b.q3⟩

/-- `sh_k(x)` (R119): the register moved by `k` lanes toward the most significant lane. -/
def shiftLanes (k : Nat) (q : Quad) : Quad :=
  let lane (j : Nat) := if k ≤ j then q.toList.getD (j - k) 0 else 0
  ⟨lane 0, lane 1, lane 2, lane 3⟩

/-- Vectorized prefix sum (R119): `x + sh_1(x) + sh_2(x) + sh_3(x) + broadcast(prev)`. -/
def vectorPrefix (prev : Word) (x : Quad) : Quad :=
  quadAdd (quadAdd (quadAdd (quadAdd x (shiftLanes 1 x)) (shiftLanes 2 x)) (shiftLanes 3 x)) ⟨prev, prev, prev, prev⟩

/-- Vectorized delta encode (R120): the difference of the register and itself moved one lane, with `prev` in lane 0. -/
def vectorDelta (prev : Word) (x : Quad) : Quad :=
  let m := quadAdd (shiftLanes 1 x) ⟨prev, 0, 0, 0⟩
  ⟨x.q0 - m.q0, x.q1 - m.q1, x.q2 - m.q2, x.q3 - m.q3⟩

end Sys2Proof.Machine
end

