-- ==== Sys2Proof/Machine/Stream.lean ====
section
/-! DEFINITION. The stream functions (43_stream.md R132 to R134, R143): what a stream of values is, and what a stream decodes to. -/

namespace Sys2Proof.Machine

/-- `G = ceil_div(N, 4)`, the number of control bytes (R76). -/
def ctrlCount (n : Nat) : Nat := (n + 3) / 4

/-- Delta coding of a sequence against `prev` (42_group.md R112). -/
def deltas (prev : Word) : List Word → List Word
  | [] => []
  | v :: vs => (v - prev) :: deltas v vs

/-- Prefix sum of a sequence of deltas against `prev` (42_group.md R113). -/
def prefixes (prev : Word) : List Word → List Word
  | [] => []
  | d :: ds => (prev + d) :: prefixes (prev + d) ds

/-- `prev'` of R112 and R113: the last value, or `prev` when there is none. -/
def lastValue (prev : Word) (vs : List Word) : Word := vs.getLastD prev

/-- The values of a sequence in groups of four, the last one of 1 to 4 values (R133). -/
def chunks : List Word → List (List Word)
  | [] => []
  | [a] => [[a]]
  | [a, b] => [[a, b]]
  | [a, b, c] => [[a, b, c]]
  | a :: b :: c :: d :: rest => [a, b, c, d] :: chunks rest

/-- The four lanes of a group: its real values, then zeros (R133). -/
def lanesOf (g : List Word) : Quad := ⟨g.getD 0 0, g.getD 1 0, g.getD 2 0, g.getD 3 0⟩

/-- `ctrl[g]`: the control byte of a group, unused lanes value 0 (R133). -/
def chunkCtrl (g : List Word) : Byte := (encodeGroup (lanesOf g)).1

/-- `data_g = b[0 .. totalLength(c) - (4 - r_g))`: only the real values' bytes (R133). -/
def chunkData (g : List Word) : List Byte :=
  (encodeGroup (lanesOf g)).2.take (totalLength (chunkCtrl g) - (4 - g.length))

/-- `encodeStream(w) = ctrl[0..G) ++ data` (R76, R133). -/
def encodeStream (w : List Word) : List Byte :=
  (chunks w).map chunkCtrl ++ (chunks w).flatMap chunkData

/-- `len_g = L_0 + ... + L_(r_g - 1)` of a group with `r` real values (R134). -/
def chunkLen (c : Byte) (r : Nat) : Nat := fieldOffset c r

/-- `data_len = sum_g len_g` over the control bytes of a stream of `n` values (R143). -/
def dataLen : List Byte → Nat → Nat
  | [], _ => 0
  | c :: cs, n => chunkLen c (min 4 n) + dataLen cs (n - 4)

/-- The `n` values of a stream with the given control bytes and data bytes (R134): the fields of unused lanes are ignored. -/
def decodeChunks : List Byte → Nat → List Byte → List Word
  | [], _, _ => []
  | c :: cs, n, data =>
    (decodeGroup c data).toList.take (min 4 n) ++ decodeChunks cs (n - 4) (data.drop (chunkLen c (min 4 n)))

/-- `decodeStream(N, S) = (x, consumed)` (R134). -/
def decodeStream (n : Nat) (s : List Byte) : List Word × Nat :=
  let ctrls := s.take (ctrlCount n)
  (decodeChunks ctrls n (s.drop (ctrlCount n)), ctrlCount n + dataLen ctrls n)

/-- The values a stream encoder writes: the values, or their deltas (R132). -/
def streamWords (delta : Bool) (prev : Word) (vs : List Word) : List Word := if delta then deltas prev vs else vs

/-- The values a stream decoder delivers: those decoded, or their prefix sums (R149). -/
def streamValues (delta : Bool) (prev : Word) (xs : List Word) : List Word := if delta then prefixes prev xs else xs

end Sys2Proof.Machine
end

