-- ==== Sys2Proof/Machine/Operands.lean ====
section
/-! DEFINITION. Where a command's operands come from (30_encoding.md R72), the effective mode (10_state.md R21), and the checks on
the windows of a stream command (60_exceptions.md R152, R153). -/

namespace Sys2Proof.Machine

/-- The operands of the command the engine performs: those snapshotted at accept (R41). A command performed by an engine that is idle
(which no run does) takes the CSRs as they stand (log 13). -/
def State.operands (s : State) : Operands :=
  match s.engine with
  | .idle => s.ops
  | .busy _ snap _ => snap

/-- Has the host written into a window of the running command (70_reset_and_hazards.md R173)? -/
def State.raced (s : State) : Bool :=
  match s.engine with
  | .idle => false
  | .busy _ _ race => race.isSome

/-- The effective mode (R21): Accelerated when `MODE.ACCEL = 1` and `FORCE_SCALAR = 0`. -/
def State.accelerated (s : State) (forceScalar : Bool) : Bool := s.modeAccel && !forceScalar

/-- The control byte operand, `CTRL_IO[7:0]` (R72). -/
def Operands.ctrlByte (o : Operands) : Byte := ctrlLo o.ctrl

/-- The value count `N` of a stream command (R26). -/
def Operands.n (o : Operands) : Nat := o.count.toNat

/-- `G` of a stream command. -/
def Operands.g (o : Operands) : Nat := ctrlCount o.n

/-- Does the window of `len` bytes at `base` end inside the address space (20_memory.md R52)? -/
def inSpace (base len : Word) : Bool := decide (base.toNat + len.toNat ≤ 2 ^ 32)

/-- R152: do the windows `[a, a + m)` and `[b, b + n)` overlap? -/
def overlap (a m b n : Nat) : Bool := decide (0 < m ∧ 0 < n ∧ a < b + n ∧ b < a + m)

/-- Checks 2 to 4 of R153, then stage 1 of the size checks (5 and 6) for an input of `inNeed` and an output of `outNeed` bytes. -/
def streamCheck (o : Operands) (inNeed outNeed : Nat) : Option CmdError :=
  if !inSpace o.srcAddr o.srcLen then some (.addrRange .input)
  else if !inSpace o.dstAddr o.dstCap then some (.addrRange .output)
  else if overlap o.srcAddr.toNat o.srcLen.toNat o.dstAddr.toNat o.dstCap.toNat then some .bufferOverlap
  else if o.srcLen.toNat < inNeed then some (.bufferTooSmall .input inNeed)
  else if o.dstCap.toNat < outNeed then some (.bufferTooSmall .output outNeed)
  else none

/-- The checks of `WRITE_ALL*` (R146, R153): `SRC_LEN >= 4N`, then `DST_CAP >= G + 4N`. -/
def writeCheck (o : Operands) : Option CmdError := streamCheck o (4 * o.n) (o.g + 4 * o.n)

/-- The stage-1 checks of `READ_ALL*` (R148, R153): `SRC_LEN >= G`, then `DST_CAP >= 4N`. -/
def readCheck (o : Operands) : Option CmdError := streamCheck o o.g (4 * o.n)

/-- Is an address inside the input or the output window (R52)? -/
def Operands.inWindow (o : Operands) (win : Window) (a : Nat) : Bool :=
  match win with
  | .input => decide (o.srcAddr.toNat ≤ a ∧ a < o.srcAddr.toNat + o.srcLen.toNat)
  | .output => decide (o.dstAddr.toNat ≤ a ∧ a < o.dstAddr.toNat + o.dstCap.toNat)

end Sys2Proof.Machine
end

