-- ==== Sys2Proof/Machine/Schedule.lean ====
section
/-! DEFINITION. The three-tier schedule of the stream commands and the memory accesses of each tier in either effective mode
(43_stream.md R136 to R143). Only the accesses depend on the mode, no result does (00_scope.md R8). The order and the sizes are
those of the rules; where they leave one open, log 11 names the choice. -/

namespace Sys2Proof.Machine

/-- One memory access of the engine (20_memory.md R56). -/
inductive Access where
  | read (addr size : Nat)
  | write (addr : Nat) (bytes : List Byte)
deriving DecidableEq, Repr

/-- A piece of the schedule (R136). -/
inductive Tier where
  /-- A bulk step of `B` values. -/
  | bulk
  /-- One full group. -/
  | full
  /-- The partial group of `r` values, 1 to 3. -/
  | partialGroup (r : Nat)
deriving DecidableEq, Repr

/-- `B`: 32 in the Accelerated effective mode and 16 in Scalar (R136). -/
def bulkSize (accel : Bool) : Nat := if accel then Config.bulkAccel else Config.bulkScalar

/-- The schedule of `n` remaining values (R136); `fuel` bounds the pieces, `n` of it is enough. -/
def tiersFrom (accel : Bool) : (fuel n : Nat) → List Tier
  | 0, _ => []
  | fuel + 1, n =>
    if bulkSize accel + Config.margin ≤ n then .bulk :: tiersFrom accel fuel (n - bulkSize accel)
    else if 4 ≤ n then .full :: tiersFrom accel fuel (n - 4)
    else if 0 < n then [.partialGroup n]
    else []

/-- The tier schedule of a stream command of `n` values (R136). -/
def tierSchedule (accel : Bool) (n : Nat) : List Tier := tiersFrom accel n n

/-- The values a piece of the schedule processes. -/
def tierCount (accel : Bool) : Tier → Nat
  | .bulk => bulkSize accel
  | .full => 4
  | .partialGroup r => r

/-- The hidden cursors of a stream command (10_state.md R47): the value index, the address of the next control byte, the address of
the next data byte, and the running `prev`. -/
structure Sequencer where
  idx : Nat
  ctrlPos : Nat
  dataPos : Nat
  prev : Word
deriving DecidableEq, Repr

/-- What a stream command's accesses are made of: the address of its value array, and whether it is a delta command. -/
structure Transfer where
  values : Nat
  delta : Bool
deriving DecidableEq, Repr

/-- A unit of work repeated `k` times, the cursors carried along. -/
def repeatUnit (unit : Sequencer → List Access × Sequencer) : Nat → Sequencer → List Access × Sequencer
  | 0, q => ([], q)
  | k + 1, q =>
    let (a, q1) := unit q
    let (as, q2) := repeatUnit unit k q1
    (a ++ as, q2)

/-- The encoder's accesses for one group of 1 to 4 values (R139, R140): it reads the values and writes the control byte and exactly
the packed bytes. `vs` is the whole value array. -/
def encodeChunkUnit (x : Transfer) (vs : List Word) (r : Nat) (q : Sequencer) : List Access × Sequencer :=
  let g := (vs.drop q.idx).take r
  let w := streamWords x.delta q.prev g
  ([.read (x.values + 4 * q.idx) (4 * r), .write q.ctrlPos [chunkCtrl w], .write q.dataPos (chunkData w)],
   { idx := q.idx + r, ctrlPos := q.ctrlPos + 1, dataPos := q.dataPos + (chunkData w).length, prev := lastValue q.prev g })

/-- The Accelerated encoder's accesses for 8 values of a bulk step (R138): the control word's 2 bytes, then the 16-byte shuffle
results of the two groups at `p` and `p + t0`. -/
def encodeOctetUnit (x : Transfer) (vs : List Word) (q : Sequencer) : List Access × Sequencer :=
  let g := (vs.drop q.idx).take 8
  let a := lanesOf (g.take 4)
  let b := lanesOf (g.drop 4)
  let a' := if x.delta then vectorDelta q.prev a else a
  let b' := if x.delta then vectorDelta a.q3 b else b
  let c0 := kernelControlByte a'
  let c1 := kernelControlByte b'
  let t0 := totalLength c0
  ([.read (x.values + 4 * q.idx) 16, .read (x.values + 4 * q.idx + 16) 16, .write q.ctrlPos [c0, c1],
    .write q.dataPos (vectorPack c0 a'), .write (q.dataPos + t0) (vectorPack c1 b')],
   { idx := q.idx + 8, ctrlPos := q.ctrlPos + 2, dataPos := q.dataPos + t0 + totalLength c1, prev := lastValue q.prev g })

/-- The encoder's accesses for one piece of the schedule (R138 to R140). -/
def encodeTier (accel : Bool) (x : Transfer) (vs : List Word) : Tier → Sequencer → List Access × Sequencer
  | .bulk => if accel then repeatUnit (encodeOctetUnit x vs) (Config.bulkAccel / 8)
      else repeatUnit (encodeChunkUnit x vs 4) (Config.bulkScalar / 4)
  | .full => encodeChunkUnit x vs 4
  | .partialGroup r => encodeChunkUnit x vs r

/-- The encoder's accesses for a schedule. -/
def encodeTiers (accel : Bool) (x : Transfer) (vs : List Word) : List Tier → Sequencer → List Access
  | [], _ => []
  | t :: ts, q =>
    let (a, q') := encodeTier accel x vs t q
    a ++ encodeTiers accel x vs ts q'

/-- All memory accesses of `WRITE_ALL` or `WRITE_ALL_DELTA` over the values `vs` at `src`, in order, with the stream at `dst`. -/
def encoderTrace (accel delta : Bool) (prev : Word) (src dst : Nat) (vs : List Word) : List Access :=
  encodeTiers accel { values := src, delta := delta } vs (tierSchedule accel vs.length)
    { idx := 0, ctrlPos := dst, dataPos := dst + ctrlCount vs.length, prev := prev }

/-- The decoder's pre-pass accesses: the `g` control bytes at `src`, one at a time (R143, log 11). -/
def prepassTrace (src g : Nat) : List Access := (List.range g).map fun k => .read (src + k) 1

/-- The `n` bytes from `addr` up, through a reader of one byte. -/
def viewBytes (view : Nat → Byte) (addr n : Nat) : List Byte := (List.range n).map fun k => view (addr + k)

/-- A byte sequence that stands from an address up, changed byte by byte. -/
def eachByte (f : (addr : Nat) → Byte → Byte) : (addr : Nat) → List Byte → List Byte
  | _, [] => []
  | a, b :: bs => f a b :: eachByte f (a + 1) bs

/-- The decoder's accesses for one group of `r` values (R142): the control byte, exactly the group's bytes, and the values written. -/
def decodeChunkUnit (x : Transfer) (view : Nat → Byte) (r : Nat) (q : Sequencer) : List Access × Sequencer :=
  let c := view q.ctrlPos
  let len := chunkLen c r
  let w := (decodeGroup c (viewBytes view q.dataPos len)).toList.take r
  let v := streamValues x.delta q.prev w
  ([.read q.ctrlPos 1, .read q.dataPos len, .write (x.values + 4 * q.idx) (bytesOfWords v)],
   { idx := q.idx + r, ctrlPos := q.ctrlPos + 1, dataPos := q.dataPos + len, prev := lastValue q.prev v })

/-- The Accelerated decoder's accesses for 8 values of a bulk step (R141): the 2-byte control word, a 16-byte load for each group at
the data cursor, and two 16-byte stores. -/
def decodeOctetUnit (x : Transfer) (view : Nat → Byte) (q : Sequencer) : List Access × Sequencer :=
  let c0 := view q.ctrlPos
  let c1 := view (q.ctrlPos + 1)
  let t0 := totalLength c0
  let a := vectorUnpack c0 (viewBytes view q.dataPos 16)
  let b := vectorUnpack c1 (viewBytes view (q.dataPos + t0) 16)
  let a' := if x.delta then vectorPrefix q.prev a else a
  let b' := if x.delta then vectorPrefix a'.q3 b else b
  ([.read q.ctrlPos 2, .read q.dataPos 16, .read (q.dataPos + t0) 16,
    .write (x.values + 4 * q.idx) (laneBytes a'), .write (x.values + 4 * q.idx + 16) (laneBytes b')],
   { idx := q.idx + 8, ctrlPos := q.ctrlPos + 2, dataPos := q.dataPos + t0 + totalLength c1, prev := b'.q3 })

/-- The decoder's accesses for one piece of the schedule (R141, R142). -/
def decodeTier (accel : Bool) (x : Transfer) (view : Nat → Byte) : Tier → Sequencer → List Access × Sequencer
  | .bulk => if accel then repeatUnit (decodeOctetUnit x view) (Config.bulkAccel / 8)
      else repeatUnit (decodeChunkUnit x view 4) (Config.bulkScalar / 4)
  | .full => decodeChunkUnit x view 4
  | .partialGroup r => decodeChunkUnit x view r

/-- The decoder's accesses for a schedule. -/
def decodeTiers (accel : Bool) (x : Transfer) (view : Nat → Byte) : List Tier → Sequencer → List Access
  | [], _ => []
  | t :: ts, q =>
    let (a, q') := decodeTier accel x view t q
    a ++ decodeTiers accel x view ts q'

/-- All memory accesses of the main pass of `READ_ALL` or `READ_ALL_DELTA` for `n` values, in order: the stream at `src`, read
through `view`, the values at `dst`. -/
def decoderTrace (accel delta : Bool) (prev : Word) (view : Nat → Byte) (src dst n : Nat) : List Access :=
  decodeTiers accel { values := dst, delta := delta } view (tierSchedule accel n)
    { idx := 0, ctrlPos := src, dataPos := src + ctrlCount n, prev := prev }

end Sys2Proof.Machine
end

