-- ==== Sys2Proof/Machine/Ops.lean ====
section
/-! DEFINITION. The named operations over memory and the engine's lifecycle: memory by the byte (20_memory.md), accept (10_state.md
R42), completion (R46), completion with an error (60_exceptions.md R154, R157) and its acknowledgement (R158), and the memory port's
answers (R155). -/

namespace Sys2Proof.Machine

/-- The byte at an address. -/
def Memory.read : Memory → Nat → Byte
  | [], _ => Config.unlistedByte
  | (k, v) :: m, a => if k = a then v else Memory.read m a

/-- Memory without an entry for an address. -/
def Memory.erase (m : Memory) (a : Nat) : Memory := m.filter fun c => c.1 != a

/-- Memory with an entry for an address, in address order. -/
def Memory.insert : Memory → Nat → Byte → Memory
  | [], a, b => [(a, b)]
  | (k, v) :: m, a, b =>
    if a < k then (a, b) :: (k, v) :: m
    else if a = k then (a, b) :: m
    else (k, v) :: Memory.insert m a b

/-- One byte written; writing what an unlisted address reads as removes the entry. -/
def Memory.write (m : Memory) (a : Nat) (b : Byte) : Memory :=
  if b = Config.unlistedByte then m.erase a else m.insert a b

/-- `MemRead(addr, n)` (00_scope.md R11). -/
def Memory.readBytes (m : Memory) (addr n : Nat) : List Byte := viewBytes (fun a => m.read a) addr n

/-- `MemWrite(addr, n, s)` with `n = len(s)` (00_scope.md R11). -/
def Memory.writeBytes (m : Memory) : (addr : Nat) → List Byte → Memory
  | _, [] => m
  | a, b :: bs => (m.write a b).writeBytes (a + 1) bs

/-- The place in memory an address reaches (70_reset_and_hazards.md R174). -/
def cellOf : Mirrors → Nat → Nat
  | [], a => a
  | (x, c) :: ms, a => if x = a then c else cellOf ms a

/-- The addresses that reach the same byte of memory as an address, itself among them (R174). -/
def aliases (ms : Mirrors) (a : Nat) : List Nat :=
  (a :: cellOf ms a :: ms.map Prod.fst).filter fun b => cellOf ms b == cellOf ms a

/-- `MemWrite` from an address up, through the platform's mirrors. -/
def Memory.writeVia (m : Memory) (ms : Mirrors) : (addr : Nat) → List Byte → Memory
  | _, [] => m
  | a, b :: bs => (m.write (cellOf ms a) b).writeVia ms (a + 1) bs

/-- The byte an address reads as. -/
def State.byteAt (s : State) (a : Nat) : Byte := s.mem.read (cellOf s.mirrors a)

/-- The `n` bytes from an address up. -/
def State.bytesAt (s : State) (addr n : Nat) : List Byte := viewBytes s.byteAt addr n

/-- Do the two windows of a stream command share memory that their addresses do not show (R174)? Some address of the input window and
another address of the output window reach the same byte. One of such two must be a listed address. -/
def Operands.windowsShare (o : Operands) (ms : Mirrors) : Bool :=
  ms.any fun p =>
    let sharers := aliases ms p.1
    sharers.any fun x => o.inWindow .input x && sharers.any fun y => y != x && o.inWindow .output y

/-- Do two of the `len` addresses from `base` up reach the byte that `a` reaches? -/
def heldTwice (ms : Mirrors) (base len a : Nat) : Bool :=
  let held := (aliases ms a).filter fun x => decide (base ≤ x ∧ x < base + len)
  held.any fun x => x != held.headD 0

/-- Do the footprint and the CSR results of the command the engine performs hold any values: it was raced by the host (R173), or its
windows share memory (R174)? -/
def State.resultsFree (s : State) : Bool := s.raced || s.operands.windowsShare s.mirrors

/-- May the byte that `a` reaches, in a write footprint of `len` bytes, hold any value: because the command's results may, or because the
footprint holds that byte twice, and no rule says which of the two final values stays (log 17)? -/
def State.byteFree (s : State) (len a : Nat) : Bool := s.resultsFree || heldTwice s.mirrors s.operands.dstAddr.toNat len a

/-- The canonical form: addresses strictly rising, no entry equal to what an unlisted address reads as. -/
def Memory.wf : Memory → Bool
  | [] => true
  | [(_, v)] => v != Config.unlistedByte
  | (k, v) :: (k', v') :: m => v != Config.unlistedByte && decide (k < k') && Memory.wf ((k', v') :: m)

/-- Memory after the writes of an access sequence, in order. -/
def Memory.replay (m : Memory) : List Access → Memory
  | [] => m
  | .read _ _ :: as => m.replay as
  | .write a bs :: as => (m.writeBytes a bs).replay as

/-- Accept of the word `w` (R42). -/
def accept (w : Word) (s : State) : State :=
  { s with cmd := w, status := s.status.accepted, engine := .busy w s.ops none }

/-- Completion of a command without an error, but for its results (R46). -/
def finish (s : State) : State := { s with status := s.status.completed, engine := .idle }

/-- Completion with an error (R154): what this hardware has in place of trap entry (R157). `RESULT_LEN` takes the required size, at
most 0xFFFF_FFFF, for `BUFFER_TOO_SMALL` only; every other CSR keeps its value. -/
def raiseError (e : CmdError) (s : State) : State :=
  { s with
    status := s.status.failed e.code e.win
    resultLen := match e with
      | .bufferTooSmall _ req => BitVec.ofNat 32 (min req 0xFFFFFFFF)
      | _ => s.resultLen
    engine := .idle }

/-- What this hardware has in place of a return from a trap (R158): the host's write to `STATUS` (R24), never dropped. -/
def acknowledge (w : Word) (s : State) : State := { s with status := s.status.hostWrite w }

/-- The memory port's answers to an access sequence (R155): whether one was answered with `mem_err = 1`, after which no access is made,
and the answers left. `faults` is `MEM_FAULTS`; an access beyond the list is answered without error (log 5). -/
def portAnswers (faults : Bool) : List Access → List Bool → Bool × List Bool
  | _, [] => (false, [])
  | [], q => (false, q)
  | _ :: as, e :: q => if e && faults then (true, q) else portAnswers faults as q
termination_by structural _ q => q

end Sys2Proof.Machine
end

