-- ==== Sys2Proof/Machine/ControlCommands.lean ====
section
/-! DEFINITION. The control-byte commands (41_control_byte.md R108, R109). `FORCE_SCALAR` has no effect on them (30_encoding.md R71). -/

namespace Sys2Proof.Machine

/-- A control word produced: `CTRL_IO` and `RESULT_LEN` (R108, R109). -/
def ctrlResult (w : BitVec 16) (total : Nat) (s : State) : State :=
  finish { s with ops := { s.ops with ctrl := w }, resultLen := BitVec.ofNat 32 total }

/-- `CTRL_BYTE` (R108): `CTRL_IO[15:8] <- 0`. -/
def execCtrlByte (_ : Bool) (s : State) : Host.Outcome State Fault Refusal :=
  let c := controlByte s.operands.vals.lo
  .next (ctrlResult (ctrlJoin c 0) (totalLength c) s)

/-- `CTRL_WORD` (R109). -/
def execCtrlWord (_ : Bool) (s : State) : Host.Outcome State Fault Refusal :=
  let w := controlWord s.operands.vals
  .next (ctrlResult w (totalLengthWord w) s)

end Sys2Proof.Machine
end

