-- ==== Sys2Proof/Machine/GroupCommands.lean ====
section
/-! DEFINITION. The group commands (42_group.md R122 to R129) over `group_pack_unit` and `group_unpack_unit`. They make no memory
access, and `FORCE_SCALAR` has no effect on them (30_encoding.md R71). -/

namespace Sys2Proof.Machine

/-- A group encode (R114, R122 to R125): `BUFFER_TOO_SMALL` on the output side when `PACK_LEN < t`; else the packed window, the control
word, the length and, for a delta command, `PREV`. -/
def groupEncode (w8 delta : Bool) (s : State) : State :=
  let o := s.operands
  let p := groupPack w8 delta o.prev o.vals
  let t := p.bytes.length
  if o.packLen.toNat < t then raiseError (.bufferTooSmall .output t) s
  else finish { s with
    ops := { s.ops with pack := packOf p.bytes, ctrl := p.ctrl, prev := if delta then p.last else s.ops.prev }
    resultLen := BitVec.ofNat 32 t }

/-- A group decode (R114, R126 to R129): `BUFFER_TOO_SMALL` on the input side when `PACK_LEN < t`; else the values (`VAL[4..7]` only
for 8 values), the length and, for a delta command, `PREV`. Only `PACKB[0..t)` is read. -/
def groupDecode (w8 delta : Bool) (s : State) : State :=
  let o := s.operands
  let t := groupTotal w8 o.ctrl
  let u := groupUnpack w8 delta o.prev o.ctrl ((packBytes o.pack).take t)
  if o.packLen.toNat < t then raiseError (.bufferTooSmall .input t) s
  else finish { s with
    ops := { s.ops with
      vals := if w8 then u.vals else { s.ops.vals with lo := u.vals.lo }
      prev := if delta then u.last else s.ops.prev }
    resultLen := BitVec.ofNat 32 t }

/-- `ENCODE4` (R122). -/
def execEncode4 (_ : Bool) (s : State) : Host.Outcome State Fault Refusal := .next (groupEncode false false s)

/-- `ENCODE8` (R123). -/
def execEncode8 (_ : Bool) (s : State) : Host.Outcome State Fault Refusal := .next (groupEncode true false s)

/-- `ENCODE4_DELTA` (R124). -/
def execEncode4Delta (_ : Bool) (s : State) : Host.Outcome State Fault Refusal := .next (groupEncode false true s)

/-- `ENCODE8_DELTA` (R125). -/
def execEncode8Delta (_ : Bool) (s : State) : Host.Outcome State Fault Refusal := .next (groupEncode true true s)

/-- `DECODE4` (R126). -/
def execDecode4 (_ : Bool) (s : State) : Host.Outcome State Fault Refusal := .next (groupDecode false false s)

/-- `DECODE8` (R127). -/
def execDecode8 (_ : Bool) (s : State) : Host.Outcome State Fault Refusal := .next (groupDecode true false s)

/-- `DECODE4_DELTA` (R128). -/
def execDecode4Delta (_ : Bool) (s : State) : Host.Outcome State Fault Refusal := .next (groupDecode false true s)

/-- `DECODE8_DELTA` (R129). -/
def execDecode8Delta (_ : Bool) (s : State) : Host.Outcome State Fault Refusal := .next (groupDecode true true s)

end Sys2Proof.Machine
end

