-- ==== Sys2Proof/WellFormed.lean ====
section
/-! DEFINITION. Well-formedness of a command word's fields (30_encoding.md R71) and of a command. -/

namespace Sys2Proof

/-- The opcodes that R71 lists as illegal. -/
def illegalOpcode (op : BitVec 6) : Bool :=
  op == 0x00 || op == 0x07 || op == 0x11 || op == 0x13 || op == 0x15 || decide (0x17 ≤ op.toNat)

/-- R71: a command word is legal when its reserved fields are zero and its opcode is mapped. -/
def CommandFields.wf (f : CommandFields) : Bool :=
  f.reservedHigh == 0 && f.reservedLow == 0 && !illegalOpcode f.opcode

/-- Every command is well formed: "`FORCE_SCALAR = 1` is legal with every command" (R71), and there is no other field (R72). -/
def Instr.wf (_ : Instr) : Bool := true

end Sys2Proof
end

