-- ==== Sys2Proof/Decode.lean ====
section
/-! DEFINITION. Decoding a command word (30_encoding.md R69 to R71), total on every 32-bit word, and the encoder. -/

namespace Sys2Proof

/-- The fields of a command word (R69). -/
def fieldsOfWord (w : Word) : CommandFields where
  reservedHigh := w.extractLsb' 9 23
  forceScalar := w.getLsbD 8
  reservedLow := w.extractLsb' 6 2
  opcode := w.extractLsb' 0 6

/-- The command word with the given fields (R69). -/
def wordOfFields (f : CommandFields) : Word :=
  f.reservedHigh ++ BitVec.ofBool f.forceScalar ++ f.reservedLow ++ f.opcode

/-- The opcode map of R70. -/
def opcodeMap (op : BitVec 6) (fs : Bool) : Decoded :=
  match op.toNat with
  | 0x01 => .command (.lenLookup fs)
  | 0x02 => .command (.lenLookupWord fs)
  | 0x03 => .command (.shufEncRead fs)
  | 0x04 => .command (.shufDecRead fs)
  | 0x05 => .command (.ctrlByte fs)
  | 0x06 => .command (.ctrlWord fs)
  | 0x08 => .command (.encode4 fs)
  | 0x09 => .command (.encode8 fs)
  | 0x0A => .command (.encode4Delta fs)
  | 0x0B => .command (.encode8Delta fs)
  | 0x0C => .command (.decode4 fs)
  | 0x0D => .command (.decode8 fs)
  | 0x0E => .command (.decode4Delta fs)
  | 0x0F => .command (.decode8Delta fs)
  | 0x10 => .command (.writeAll fs)
  | 0x12 => .command (.writeAllDelta fs)
  | 0x14 => .command (.readAll fs)
  | 0x16 => .command (.readAllDelta fs)
  | _ => .illegal .unmappedOpcode

/-- R69: `decode(w) = opcode_map(w[5:0])` when the reserved fields are zero, and illegal otherwise. -/
def decode (w : Word) : Decoded :=
  let f := fieldsOfWord w
  if f.reservedHigh ≠ 0 then .illegal .reservedHigh
  else if f.reservedLow ≠ 0 then .illegal .reservedLow
  else opcodeMap f.opcode f.forceScalar

/-- The opcode of a command (R70). -/
def Instr.opcode : Instr → BitVec 6
  | .lenLookup _ => 0x01
  | .lenLookupWord _ => 0x02
  | .shufEncRead _ => 0x03
  | .shufDecRead _ => 0x04
  | .ctrlByte _ => 0x05
  | .ctrlWord _ => 0x06
  | .encode4 _ => 0x08
  | .encode8 _ => 0x09
  | .encode4Delta _ => 0x0A
  | .encode8Delta _ => 0x0B
  | .decode4 _ => 0x0C
  | .decode8 _ => 0x0D
  | .decode4Delta _ => 0x0E
  | .decode8Delta _ => 0x0F
  | .writeAll _ => 0x10
  | .writeAllDelta _ => 0x12
  | .readAll _ => 0x14
  | .readAllDelta _ => 0x16

/-- The `FORCE_SCALAR` bit of a command (R22). -/
def Instr.forceScalar : Instr → Bool
  | .lenLookup fs => fs
  | .lenLookupWord fs => fs
  | .shufEncRead fs => fs
  | .shufDecRead fs => fs
  | .ctrlByte fs => fs
  | .ctrlWord fs => fs
  | .encode4 fs => fs
  | .encode8 fs => fs
  | .encode4Delta fs => fs
  | .encode8Delta fs => fs
  | .decode4 fs => fs
  | .decode8 fs => fs
  | .decode4Delta fs => fs
  | .decode8Delta fs => fs
  | .writeAll fs => fs
  | .writeAllDelta fs => fs
  | .readAll fs => fs
  | .readAllDelta fs => fs

/-- The command word of a command: the encoding string of R69, `00000000000000000000000s00oooooo`. -/
def encode (i : Instr) : Word :=
  wordOfFields { reservedHigh := 0, forceScalar := i.forceScalar, reservedLow := 0, opcode := i.opcode }

/-- The command the decoder reads from the table word `w` of `nbits` bits: the CORE stores a command as one 32-bit CSR word
(R69), so the bits above `nbits` are zero. -/
def decodeTableWord (nbits w : Nat) : Option Instr :=
  match decode (BitVec.ofNat 32 (w % 2 ^ nbits)) with
  | .command i => some i
  | .illegal _ => none

end Sys2Proof
end

