-- ==== Sys2Proof/Machine/StreamCommands.lean ====
section
/-! DEFINITION. The stream commands (43_stream.md R146 to R149): `stream_vbyte_encoder` and `stream_vbyte_decoder` (R130, R131). A
command's final bytes are those of R145, whatever its accesses; its accesses are the traces of Machine/Schedule.lean. -/

namespace Sys2Proof.Machine

/-- The memory the engine takes its input from: memory as it was at accept (20_memory.md R63), since a race frees results, not the
input (70_reset_and_hazards.md R173, log 9). -/
def State.inputMem (s : State) : Memory :=
  match s.engine with
  | .idle => s.mem
  | .busy _ _ race => race.getD s.mem

/-- What a byte of the input window gives the engine. -/
def State.inputView (s : State) (a : Nat) : Byte := s.inputMem.read (cellOf s.mirrors a)

/-- What a stream command that passes its checks delivers: the final bytes of its write footprint from `DST_ADDR` up (R145), the bytes
of stream written or consumed (30_encoding.md R79), and the value a delta command leaves in `PREV`, none when it leaves it alone. -/
structure StreamPlan where
  final : List Byte
  result : Nat
  prev : Option Word
deriving DecidableEq, Repr

/-- The value array of an encode, read from the input window (R146). -/
def encoderValues (s : State) : List Word :=
  wordsOf (viewBytes s.inputView s.operands.srcAddr.toNat (4 * s.operands.n))

/-- What `WRITE_ALL` (R146) or `WRITE_ALL_DELTA` (R147) delivers. -/
def encoderPlan (delta : Bool) (s : State) : StreamPlan :=
  let vs := encoderValues s
  let stream := encodeStream (streamWords delta s.operands.prev vs)
  { final := stream, result := stream.length, prev := if delta then vs.getLast? else none }

/-- The size of the stream in the input window of a decode, `G + data_len` (R143). -/
def decoderNeed (s : State) : Nat :=
  let o := s.operands
  o.g + dataLen (viewBytes s.inputView o.srcAddr.toNat o.g) o.n

/-- The values a decode delivers (R148, R149). -/
def decoderValues (delta : Bool) (s : State) : List Word :=
  let o := s.operands
  streamValues delta o.prev (decodeStream o.n (viewBytes s.inputView o.srcAddr.toNat (decoderNeed s))).1

/-- What `READ_ALL` (R148) or `READ_ALL_DELTA` (R149) delivers. -/
def decoderPlan (delta : Bool) (s : State) : StreamPlan :=
  let vs := decoderValues delta s
  { final := bytesOfWords vs, result := decoderNeed s, prev := if delta then vs.getLast? else none }

/-- A byte of the write footprint, of `len` bytes, while or after its command is disturbed: its old value, its final value or, where
`zeros`, a zero written by a 16-byte store (R155, R171, R173); any value when the command is raced or its windows share memory (R174), or
the footprint holds the byte twice. Which one is free (log 8). -/
def State.disturbedByte (s : State) (zeros : Bool) (len a : Nat) (new : Byte) : Byte :=
  if s.byteFree len a then Config.freeByte s.free a
  else match Config.freeChoice s.free a % 3 with
    | 0 => s.byteAt a
    | 1 => new
    | _ => if zeros then 0 else s.byteAt a

/-- Memory after a command is cut off by a bus error (60_exceptions.md R155) or by reset (70_reset_and_hazards.md R171). -/
def disturbFootprint (zeros : Bool) (final : List Byte) (s : State) : State :=
  let dst := s.operands.dstAddr.toNat
  { s with mem := s.mem.writeVia s.mirrors dst (eachByte (s.disturbedByte zeros final.length) dst final), free := s.free + 1 }

/-- The final bytes of a footprint as a successful command leaves them: a byte that the footprint holds twice is free (log 17). -/
def State.deliveredBytes (s : State) (final : List Byte) : List Byte :=
  eachByte (fun a b => if s.byteFree final.length a then Config.freeByte s.free a else b) s.operands.dstAddr.toNat final

/-- Does a footprint of `len` bytes hold a byte that may hold any value? -/
def State.footprintFree (s : State) (len : Nat) : Bool := (List.range len).any fun k => s.byteFree len (s.operands.dstAddr.toNat + k)

/-- Success: the footprint holds its final bytes, and the CSR results are written (R145 to R149, 30_encoding.md R79). -/
def transferDone (p : StreamPlan) (s : State) : State :=
  finish { s with
    mem := s.mem.writeVia s.mirrors s.operands.dstAddr.toNat (s.deliveredBytes p.final)
    ops := { s.ops with prev := p.prev.getD s.ops.prev }
    resultLen := BitVec.ofNat 32 p.result
    free := if s.footprintFree p.final.length then s.free + 1 else s.free }

/-- Success of a command that the host has raced (R173, log 9) or whose windows share memory (R174, log 17): every byte of the footprint
and every CSR result is free. -/
def transferFree (p : StreamPlan) (s : State) : State :=
  let dst := s.operands.dstAddr.toNat
  finish { s with
    mem := s.mem.writeVia s.mirrors dst (viewBytes (Config.freeByte s.free) dst p.final.length)
    ops := { s.ops with prev := if p.prev.isSome then Config.freeWord s.free 1 else s.ops.prev }
    resultLen := Config.freeWord s.free 0
    free := s.free + 1 }

/-- The main pass of a stream command (R153, item 8): its accesses are answered, and a bus error ends it. -/
def runTransfer (zeros : Bool) (trace : List Access) (p : StreamPlan) (s : State) : State :=
  let answered := portAnswers s.memFaults trace s.memErrs
  let s' := { s with memErrs := answered.2 }
  if answered.1 then raiseError .busError (disturbFootprint zeros p.final s')
  else if s.resultsFree then transferFree p s'
  else transferDone p s'

/-- `stream_vbyte_encoder` (R130, R146, R147). -/
def streamEncode (delta forceScalar : Bool) (s : State) : State :=
  let o := s.operands
  match writeCheck o with
  | some e => raiseError e s
  | none =>
    let accel := s.accelerated forceScalar
    runTransfer accel (encoderTrace accel delta o.prev o.srcAddr.toNat o.dstAddr.toNat (encoderValues s)) (encoderPlan delta s) s

/-- Do the control bytes of a decode declare no more than its input window holds (R143)? If not, it ends in its pre-pass. -/
def decoderFits (s : State) : Bool := decide (decoderNeed s ≤ s.operands.srcLen.toNat)

/-- The final bytes of the footprint of a decode that is cut off before it ends, by a bus error (60_exceptions.md R155) or by reset
(70_reset_and_hazards.md R171). Where the decode could only end in its pre-pass, no rule says what its final bytes are: DESIGN CHOICE, any
values (log 8). -/
def cutOffFinal (delta : Bool) (s : State) : List Byte :=
  if decoderFits s then (decoderPlan delta s).final
  else viewBytes (Config.freeByte s.free) s.operands.dstAddr.toNat (4 * s.operands.n)

/-- `stream_vbyte_decoder` (R131, R148, R149): the pre-pass reads the control bytes and checks the input length before any byte is
written (R143), then the main pass. -/
def streamDecode (delta forceScalar : Bool) (s : State) : State :=
  let o := s.operands
  match readCheck o with
  | some e => raiseError e s
  | none =>
    let prepass := portAnswers s.memFaults (prepassTrace o.srcAddr.toNat o.g) s.memErrs
    let s' := { s with memErrs := prepass.2 }
    if prepass.1 then raiseError .busError (disturbFootprint false (cutOffFinal delta s) s')
    else if decoderFits s then
      let trace := decoderTrace (s.accelerated forceScalar) delta o.prev s.inputView o.srcAddr.toNat o.dstAddr.toNat o.n
      runTransfer false trace (decoderPlan delta s) s'
    else raiseError (.bufferTooSmall .input (decoderNeed s)) s'

/-- `WRITE_ALL` (R146). -/
def execWriteAll (fs : Bool) (s : State) : Host.Outcome State Fault Refusal := .next (streamEncode false fs s)

/-- `WRITE_ALL_DELTA` (R147). -/
def execWriteAllDelta (fs : Bool) (s : State) : Host.Outcome State Fault Refusal := .next (streamEncode true fs s)

/-- `READ_ALL` (R148). -/
def execReadAll (fs : Bool) (s : State) : Host.Outcome State Fault Refusal := .next (streamDecode false fs s)

/-- `READ_ALL_DELTA` (R149). -/
def execReadAllDelta (fs : Bool) (s : State) : Host.Outcome State Fault Refusal := .next (streamDecode true fs s)

/-- The write footprint of a command in progress. -/
structure Footprint where
  /-- Its final bytes, from `DST_ADDR` up. -/
  final : List Byte
  /-- Can zeros of 16-byte stores stand in it (R138)? -/
  zeros : Bool
  /-- Does the engine write it? Not that of a decode that can only end in its pre-pass (R143): reset and a bus error leave any values there
  all the same (log 8). -/
  written : Bool
deriving DecidableEq, Repr

/-- The write footprint of an encode (R145); none when a check fails, since the command then makes no access and ends with an error that
leaves memory unchanged (60_exceptions.md R153, R154; DEDUCED, log 8). -/
def encoderFootprint (delta forceScalar : Bool) (s : State) : Option Footprint :=
  match writeCheck s.operands with
  | some _ => none
  | none => some { final := (encoderPlan delta s).final, zeros := s.accelerated forceScalar, written := true }

/-- The write footprint of a decode (R145): its `4N` value bytes, also where it can only end in its pre-pass, as R171 and R155 make no
exception for it; none when a check fails, as for an encode (DEDUCED, log 8). -/
def decoderFootprint (delta : Bool) (s : State) : Option Footprint :=
  match readCheck s.operands with
  | some _ => none
  | none => some { final := cutOffFinal delta s, zeros := false, written := decoderFits s }

/-- The write footprint of a command: empty for every command but the stream commands (20_memory.md R59). -/
def commandFootprint (i : Instr) (s : State) : Option Footprint :=
  match i with
  | .lenLookup _ => none
  | .lenLookupWord _ => none
  | .shufEncRead _ => none
  | .shufDecRead _ => none
  | .ctrlByte _ => none
  | .ctrlWord _ => none
  | .encode4 _ => none
  | .encode8 _ => none
  | .encode4Delta _ => none
  | .encode8Delta _ => none
  | .decode4 _ => none
  | .decode8 _ => none
  | .decode4Delta _ => none
  | .decode8Delta _ => none
  | .writeAll fs => encoderFootprint false fs s
  | .writeAllDelta fs => encoderFootprint true fs s
  | .readAll _ => decoderFootprint false s
  | .readAllDelta _ => decoderFootprint true s

/-- Is a command a stream command, the only kind that uses its windows (20_memory.md R50)? -/
def Instr.usesWindows : Instr → Bool
  | .lenLookup _ => false
  | .lenLookupWord _ => false
  | .shufEncRead _ => false
  | .shufDecRead _ => false
  | .ctrlByte _ => false
  | .ctrlWord _ => false
  | .encode4 _ => false
  | .encode8 _ => false
  | .encode4Delta _ => false
  | .encode8Delta _ => false
  | .decode4 _ => false
  | .decode8 _ => false
  | .decode4Delta _ => false
  | .decode8Delta _ => false
  | .writeAll _ => true
  | .writeAllDelta _ => true
  | .readAll _ => true
  | .readAllDelta _ => true

/-- Does the word of the running command spell a stream command? -/
def wordUsesWindows (w : Word) : Bool :=
  match decode w with
  | .command i => Instr.usesWindows i
  | .illegal _ => false

/-- The write footprint of the command in progress, none when the engine is idle. -/
def State.footprint (s : State) : Option Footprint :=
  match s.engine with
  | .idle => none
  | .busy cmd _ _ =>
    match decode cmd with
    | .command i => commandFootprint i s
    | .illegal _ => none

end Sys2Proof.Machine
end

