-- ==== Sys2Proof/Machine/TableCommands.lean ====
section
/-! DEFINITION. The table commands (40_tables.md R93 to R96). `FORCE_SCALAR` has no effect on them (30_encoding.md R71). -/

namespace Sys2Proof.Machine

/-- `LEN_LOOKUP` (R93). -/
def execLenLookup (_ : Bool) (s : State) : Host.Outcome State Fault Refusal :=
  let c := s.operands.ctrlByte
  .next (finish { s with lens := lensWord c, resultLen := BitVec.ofNat 32 (totalLength c) })

/-- `LEN_LOOKUP_WORD` (R94). -/
def execLenLookupWord (_ : Bool) (s : State) : Host.Outcome State Fault Refusal :=
  let w := s.operands.ctrl
  .next (finish { s with
    lens := lensWord (ctrlLo w), lensHi := lensWord (ctrlHi w), resultLen := BitVec.ofNat 32 (totalLengthWord w) })

/-- A row of the shuffle ROM in the packed window, `PACKB[16..32)` cleared (R95, R96). -/
def shufRead (bank : ShufBank) (s : State) : State :=
  let c := s.operands.ctrlByte
  finish { s with
    ops := { s.ops with pack := packOf (shuffleRom bank c) }
    resultLen := BitVec.ofNat 32 (totalLength c) }

/-- `SHUF_ENC_READ` (R95). -/
def execShufEncRead (_ : Bool) (s : State) : Host.Outcome State Fault Refusal := .next (shufRead .enc s)

/-- `SHUF_DEC_READ` (R96). -/
def execShufDecRead (_ : Bool) (s : State) : Host.Outcome State Fault Refusal := .next (shufRead .dec s)

end Sys2Proof.Machine
end

