-- ==== Sys2Proof/Machine/Dispatch.lean ====
section
/-! DEFINITION. The meaning of every command, one arm a constructor. -/

namespace Sys2Proof.Machine

def exec (i : Instr) (s : State) : Host.Outcome State Fault Refusal :=
  match i with
  | .lenLookup fs => Sys2Proof.Machine.execLenLookup fs s
  | .lenLookupWord fs => Sys2Proof.Machine.execLenLookupWord fs s
  | .shufEncRead fs => Sys2Proof.Machine.execShufEncRead fs s
  | .shufDecRead fs => Sys2Proof.Machine.execShufDecRead fs s
  | .ctrlByte fs => Sys2Proof.Machine.execCtrlByte fs s
  | .ctrlWord fs => Sys2Proof.Machine.execCtrlWord fs s
  | .encode4 fs => Sys2Proof.Machine.execEncode4 fs s
  | .encode8 fs => Sys2Proof.Machine.execEncode8 fs s
  | .encode4Delta fs => Sys2Proof.Machine.execEncode4Delta fs s
  | .encode8Delta fs => Sys2Proof.Machine.execEncode8Delta fs s
  | .decode4 fs => Sys2Proof.Machine.execDecode4 fs s
  | .decode8 fs => Sys2Proof.Machine.execDecode8 fs s
  | .decode4Delta fs => Sys2Proof.Machine.execDecode4Delta fs s
  | .decode8Delta fs => Sys2Proof.Machine.execDecode8Delta fs s
  | .writeAll fs => Sys2Proof.Machine.execWriteAll fs s
  | .writeAllDelta fs => Sys2Proof.Machine.execWriteAllDelta fs s
  | .readAll fs => Sys2Proof.Machine.execReadAll fs s
  | .readAllDelta fs => Sys2Proof.Machine.execReadAllDelta fs s

end Sys2Proof.Machine
end

