-- ==== Sys2Proof/Machine/HostPort.lean ====
section
/-! DEFINITION. The host's side (10_state.md R13 to R16): the CSR map, CSR reads and writes, the host's own memory accesses with the
hazards of 70_reset_and_hazards.md R173, and reset (R169, R171). -/

namespace Sys2Proof.Machine

/-- The CSRs of the map (R16). -/
inductive CsrName where
  | id
  | caps
  | mode
  | cmd
  | status
  | irqEn
  | count
  | prev
  | srcAddr
  | srcLen
  | dstAddr
  | dstCap
  | resultLen
  | ctrlIo
  | packLen
  | lens
  | lensHi
  | val (k : Fin 8)
  | pack (k : Fin 8)
deriving DecidableEq, Repr

/-- The CSR at a byte offset (R15, R16): bits [1:0] of the offset are ignored, and an offset the map does not name has no CSR. -/
def csrAt (off : BitVec 12) : Option CsrName :=
  let j := off.toNat / 4
  if j = 0x000 / 4 then some .id
  else if j = 0x004 / 4 then some .caps
  else if j = 0x008 / 4 then some .mode
  else if j = 0x00C / 4 then some .cmd
  else if j = 0x010 / 4 then some .status
  else if j = 0x014 / 4 then some .irqEn
  else if j = 0x018 / 4 then some .count
  else if j = 0x01C / 4 then some .prev
  else if j = 0x020 / 4 then some .srcAddr
  else if j = 0x024 / 4 then some .srcLen
  else if j = 0x028 / 4 then some .dstAddr
  else if j = 0x02C / 4 then some .dstCap
  else if j = 0x030 / 4 then some .resultLen
  else if j = 0x034 / 4 then some .ctrlIo
  else if j = 0x038 / 4 then some .packLen
  else if j = 0x03C / 4 then some .lens
  else if j = 0x040 / 4 then some .lensHi
  else if h : 0x060 / 4 ≤ j ∧ j < 0x060 / 4 + 8 then some (.val ⟨j - 0x060 / 4, by omega⟩)
  else if h : 0x080 / 4 ≤ j ∧ j < 0x080 / 4 + 8 then some (.pack ⟨j - 0x080 / 4, by omega⟩)
  else none

/-- The value of a CSR (R17 to R35). Fields marked RAZ read 0. A read has no side effect (R15); while the engine is BUSY it gives the
value from before the command (R44), since a command writes its results only at completion. -/
def csrValue (r : CsrName) (s : State) : Word :=
  match r with
  | .id => Config.idValue
  | .caps => (BitVec.ofBool s.accelPresent).setWidth 32
  | .mode => (BitVec.ofBool s.modeAccel).setWidth 32
  | .cmd => s.cmd
  | .status => s.status.toWord
  | .irqEn => (BitVec.ofBool s.doneEn).setWidth 32
  | .count => s.ops.count
  | .prev => s.ops.prev
  | .srcAddr => s.ops.srcAddr
  | .srcLen => s.ops.srcLen
  | .dstAddr => s.ops.dstAddr
  | .dstCap => s.ops.dstCap
  | .resultLen => s.resultLen
  | .ctrlIo => s.ops.ctrl.setWidth 32
  | .packLen => s.ops.packLen.setWidth 32
  | .lens => s.lens
  | .lensHi => s.lensHi
  | .val k => bankGet s.ops.vals k
  | .pack k => bankGet s.ops.pack k

/-- A CSR read at an offset: an offset without a CSR reads 0 (R15). -/
def csrRead (off : BitVec 12) (s : State) : Word :=
  match csrAt off with
  | some r => csrValue r s
  | none => 0

/-- `min(w[5:0], 32)` (R31). -/
def packLenOf (w : Word) : BitVec 6 :=
  if Config.packBytes < (w.extractLsb' 0 6).toNat then BitVec.ofNat 6 Config.packBytes else w.extractLsb' 0 6

/-- A host write to an operand CSR while the engine is idle (R26 to R34); a CSR that is not one of them is left alone. -/
def operandWrite (r : CsrName) (w : Word) (o : Operands) : Operands :=
  match r with
  | .count => { o with count := w }
  | .prev => { o with prev := w }
  | .srcAddr => { o with srcAddr := w }
  | .srcLen => { o with srcLen := w }
  | .dstAddr => { o with dstAddr := w }
  | .dstCap => { o with dstCap := w }
  | .ctrlIo => { o with ctrl := w.extractLsb' 0 16 }
  | .packLen => { o with packLen := packLenOf w }
  | .val k => { o with vals := bankSet o.vals k w }
  | .pack k => { o with pack := bankSet o.pack k w }
  | .id => o
  | .caps => o
  | .mode => o
  | .cmd => o
  | .status => o
  | .irqEn => o
  | .resultLen => o
  | .lens => o
  | .lensHi => o

/-- How a CSR takes a host write. -/
inductive WriteKind where
  /-- The write is ignored, and never sets `OVERRUN` (R15). -/
  | readOnly
  /-- The write takes effect, also while the engine is BUSY (R24, R25). -/
  | always
  /-- The write is dropped and sets `OVERRUN` while the engine is BUSY (R43). -/
  | whileIdle
deriving DecidableEq, Repr

/-- The access column of R16, with R43. -/
def writeKind : CsrName → WriteKind
  | .id => .readOnly
  | .caps => .readOnly
  | .mode => .readOnly
  | .cmd => .whileIdle
  | .status => .always
  | .irqEn => .always
  | .count => .whileIdle
  | .prev => .whileIdle
  | .srcAddr => .whileIdle
  | .srcLen => .whileIdle
  | .dstAddr => .whileIdle
  | .dstCap => .whileIdle
  | .resultLen => .readOnly
  | .ctrlIo => .whileIdle
  | .packLen => .whileIdle
  | .lens => .readOnly
  | .lensHi => .readOnly
  | .val _ => .whileIdle
  | .pack _ => .whileIdle

/-- Is the engine BUSY (R41)? -/
def State.isBusy (s : State) : Bool :=
  match s.engine with
  | .idle => false
  | .busy _ _ _ => true

/-- A host write that the CSR takes: `CMD` starts a command (R42), `STATUS` clears flags (R24), `IRQ_EN` takes its enable (R25), the
others are operands. -/
def csrStore (r : CsrName) (w : Word) (s : State) : State :=
  match r with
  | .cmd => accept w s
  | .status => acknowledge w s
  | .irqEn => { s with doneEn := w.getLsbD 0 }
  | r => { s with ops := operandWrite r w s.ops }

/-- A host write to a named CSR (R15, R24, R25, R43). -/
def csrWriteNamed (r : CsrName) (w : Word) (s : State) : State :=
  match writeKind r with
  | .readOnly => s
  | .always => csrStore r w s
  | .whileIdle => if s.isBusy then { s with status := s.status.overran } else csrStore r w s

/-- A host write at an offset: one without a CSR ignores it (R15). -/
def csrWrite (off : BitVec 12) (w : Word) (s : State) : State :=
  match csrAt off with
  | some r => csrWriteNamed r w s
  | none => s

/-- A CSR access; `csr_rdata` takes what a read returns (R14). -/
def csrAccess (a : CsrAccess) (s : State) : State :=
  match a with
  | .read off => { s with csrRdata := csrRead off s }
  | .write off w => csrWrite off w s

/-- The final byte that an address reaches in the footprint of the command in progress, with that footprint; none outside it, and none
where the engine writes no byte of it. -/
def State.footprintByte (s : State) (a : Nat) : Option (Byte × Footprint) :=
  let dst := s.operands.dstAddr.toNat
  match s.footprint with
  | none => none
  | some f =>
    if f.written then (aliases s.mirrors a).findSome? fun x => if dst ≤ x then (f.final[x - dst]?).map fun b => (b, f) else none
    else none

/-- A host read of one byte of memory. Inside the footprint of a command in progress it gives the old, the final or an intermediate value
(R173, I14); elsewhere, and of the input window, it gives the byte memory holds. -/
def hostMemRead (addr : Word) (s : State) : State :=
  match s.footprintByte addr.toNat with
  | none => { s with hostRdata := s.byteAt addr.toNat }
  | some (new, f) => { s with hostRdata := s.disturbedByte f.zeros f.final.length addr.toNat new, free := s.free + 1 }

/-- The engine state after a host write to the byte that the addresses `as` reach, on the memory `m`: a write into a window of the stream
command in progress races it (R173), and the first one keeps the memory it found. -/
def Engine.afterHostWrite (e : Engine) (m : Memory) (as : List Nat) : Engine :=
  match e with
  | .idle => .idle
  | .busy cmd snap race =>
    .busy cmd snap (race.or (if wordUsesWindows cmd && as.any (fun a => snap.inWindow .input a || snap.inWindow .output a) then some m else none))

/-- A host write of one byte of memory. -/
def hostMemWrite (addr : Word) (b : Byte) (s : State) : State :=
  { s with
    mem := s.mem.write (cellOf s.mirrors addr.toNat) b
    engine := s.engine.afterHostWrite s.mem (aliases s.mirrors addr.toNat) }

/-- A clock edge with `rst = 1` (R169): every CSR takes its reset value and the engine becomes idle; instance parameters, memory and the
inputs to come stay. -/
def resetCsrs (s : State) : State :=
  { s with
    modeAccel := s.accelPresent, cmd := 0, status := Status.reset, doneEn := false, ops := Operands.reset, resultLen := 0, lens := 0,
    lensHi := 0, engine := .idle }

/-- Reset (R169): a command in progress is aborted and the bytes of its write footprint are disturbed (R171). -/
def hostReset (s : State) : State :=
  match s.footprint with
  | none => resetCsrs s
  | some f => resetCsrs (disturbFootprint f.zeros f.final s)

/-- A CSR access at an edge with `rst = 1`: a write is ignored, a read returns 0 (R169). -/
def accessInReset (a : Option CsrAccess) (s : State) : State :=
  match a with
  | none => s
  | some (.write _ _) => s
  | some (.read _) => { s with csrRdata := 0 }

/-- What the host does in its turn. -/
def hostOp (op : HostOp) (s : State) : State :=
  match op with
  | .idle => s
  | .csr a => csrAccess a s
  | .memRead addr => hostMemRead addr s
  | .memWrite addr b => hostMemWrite addr b s
  | .rst a => accessInReset a (hostReset s)

/-- The next turn and the state without it: the engine's when none is listed (log 1). -/
def State.nextTurn (s : State) : Turn × State :=
  match s.turns with
  | [] => (.engine, s)
  | t :: ts => (t, { s with turns := ts })

/-- The engine's turn: idle, it does nothing; BUSY, it decodes the accepted word and performs the command (R45, R46), or completes with
`ILLEGAL_CMD` (30_encoding.md R71). `run` gives the commands their meaning. -/
def engineTurn (run : Instr → State → Host.Outcome State Fault Refusal) (s : State) : Host.Outcome State Fault Refusal :=
  match s.engine with
  | .idle => .next s
  | .busy cmd _ _ =>
    match decode cmd with
    | .command i => run i s
    | .illegal _ => .next (raiseError .illegalCmd s)

/-- One turn. -/
def takeTurn (run : Instr → State → Host.Outcome State Fault Refusal) (s : State) : Host.Outcome State Fault Refusal :=
  match s.nextTurn with
  | (.engine, s') => engineTurn run s'
  | (.host op, s') => .next (hostOp op s')

/-- The state with the command word `w` accepted and the next turn the engine's (log 2). -/
def placeCommand (w : Word) (s : State) : State := { accept w s with turns := .engine :: s.turns }

end Sys2Proof.Machine
end

