-- ==== Sys2Proof/Safety.lean ====
section
/-! DEFINITION. What a sound state of the CORE is, in the terms the statements use. -/

namespace Sys2Proof.Machine

/-- What 10_state.md R23 and 60_exceptions.md R151 say of `STATUS` in every state: its invariants, the reserved codes never produced, and
`ERR_WIN` only with an error that names a window. -/
structure Status.Wf (st : Status) : Prop where
  busy_clears : st.busy = true → st.done = false ∧ st.err = false
  no_error_no_code : st.err = false → st.errCode = 0 ∧ st.errWin = false
  code_known : st.errCode.toNat ≤ 5
  window_named : st.errWin = true → st.errCode = 2 ∨ st.errCode = 4

/-- R41, R42, R43, R46: `STATUS.BUSY` says whether the engine is BUSY; the accepted word is in `CMD`; the operand CSRs still are what
they were at accept; and the memory a race keeps is canonical. -/
def EngineWf (s : State) : Prop :=
  match s.engine with
  | .idle => s.status.busy = false
  | .busy cmd snap race => s.status.busy = true ∧ s.cmd = cmd ∧ snap = s.ops ∧ ∀ m, race = some m → Memory.wf m = true

/-- A state of the CORE that the spec allows: the memory in canonical form, the `STATUS` invariants (R23), the engine in step with the
CSRs, `MODE` fixed to `CAPS` (R20), `PACK_LEN` at most 32 (R31), and bits [7:3] of every byte of `LENS` and `LENS_HI` zero (R35). -/
structure State.Wf (s : State) : Prop where
  mem_canonical : Memory.wf s.mem = true
  status_wf : s.status.Wf
  engine_wf : EngineWf s
  mode_is_caps : s.modeAccel = s.accelPresent
  pack_len_le : s.ops.packLen.toNat ≤ 32
  lens_reserved : s.lens &&& 0xF8F8F8F8 = 0
  lens_hi_reserved : s.lensHi &&& 0xF8F8F8F8 = 0

/-- A command completed without an error (R46). -/
def State.CompletedOk (s : State) : Prop :=
  s.engine = .idle ∧ s.status.busy = false ∧ s.status.done = true ∧ s.status.err = false

/-- A command completed with the error `e` recorded in `STATUS` (60_exceptions.md R154). -/
def State.CompletedWith (e : CmdError) (s : State) : Prop :=
  s.engine = .idle ∧ s.status.busy = false ∧ s.status.done = true ∧ s.status.err = true ∧ s.status.errCode = e.code ∧
    s.status.errWin = e.win

/-- The memory answers every coming access of the engine without error: either it cannot fault (`MEM_FAULTS` false) or no pending answer is
`mem_err = 1` (R155). -/
def State.MemAnswers (s : State) : Prop := s.memFaults = false ∨ true ∉ s.memErrs

/-- The command the engine performs meets what R173 and R174 ask of the host: the host has not written into its windows while it ran, and
its two windows share no byte of memory through different addresses. -/
def State.Settled (s : State) : Prop :=
  s.raced = false ∧ ∀ x y, s.operands.inWindow .input x = true → s.operands.inWindow .output y = true → x ≠ y →
    cellOf s.mirrors x ≠ cellOf s.mirrors y

/-- A footprint of `len` bytes at `DST_ADDR` holds the byte that `a` reaches at most once (R174, log 17). -/
def State.HeldOnce (s : State) (len a : Nat) : Prop :=
  ∀ i j, i < len → j < len → cellOf s.mirrors (s.operands.dstAddr.toNat + i) = cellOf s.mirrors a →
    cellOf s.mirrors (s.operands.dstAddr.toNat + j) = cellOf s.mirrors a → i = j

/-- `m` is what memory is after a footprint's final bytes are delivered, and `f` the counter of free values: every byte outside the footprint is
as before, every byte it holds once is final; and where it holds none twice, the bytes are written in address order and nothing was free. -/
def State.Delivers (s : State) (final : List Byte) (m : Memory) (f : Nat) : Prop :=
  (∀ a, (∀ k < final.length, cellOf s.mirrors (s.operands.dstAddr.toNat + k) ≠ cellOf s.mirrors a) →
    m.read (cellOf s.mirrors a) = s.byteAt a) ∧
  (∀ k v, final[k]? = some v → s.HeldOnce final.length (s.operands.dstAddr.toNat + k) →
    m.read (cellOf s.mirrors (s.operands.dstAddr.toNat + k)) = v) ∧
  ((∀ a, s.HeldOnce final.length a) → m = s.mem.writeVia s.mirrors s.operands.dstAddr.toNat final ∧ f = s.free)

/-- The windows of a stream command are legal and disjoint (60_exceptions.md R151, R152). -/
def Operands.WindowsOk (o : Operands) : Prop :=
  o.srcAddr.toNat + o.srcLen.toNat ≤ 2 ^ 32 ∧ o.dstAddr.toNat + o.dstCap.toNat ≤ 2 ^ 32 ∧
    ¬ (0 < o.srcLen.toNat ∧ 0 < o.dstCap.toNat ∧ o.srcAddr.toNat < o.dstAddr.toNat + o.dstCap.toNat ∧
      o.dstAddr.toNat < o.srcAddr.toNat + o.srcLen.toNat)

end Sys2Proof.Machine
end

