-- ==== Sys2Proof/Certificates/Slice0/Obligations.lean ====
section
/-! DEFINITION. The statements about the model. -/

open Sys2Proof Sys2Proof.Machine

/-! ### The command word -/

/-- R69, R70: a word decodes to a command exactly when it is that command's encoding; no bit of a word is dropped. -/
def Obligations.DecodeEncodeAgree : Prop :=
  ∀ (w : Word) (i : Instr), i.wf = true → (decode w = .command i ↔ w = encode i)

/-- R71: which words are illegal; what an illegal word does when the engine takes its turn (it completes with `ILLEGAL_CMD`, nothing but
`STATUS` changes, `CMD` was written at accept); `FORCE_SCALAR` never makes a word illegal and has an effect on no command outside the
stream family. -/
def Obligations.IllegalWordsComplete : Prop :=
  (∀ w : Word, (∃ why, decode w = .illegal why) ↔
    w.extractLsb' 9 23 ≠ 0 ∨ w.extractLsb' 6 2 ≠ 0 ∨
      (w.extractLsb' 0 6).toNat ∈ [0x00, 0x07, 0x11, 0x13, 0x15] ∨ 0x17 ≤ (w.extractLsb' 0 6).toNat) ∧
  (∀ (s s' : State) (w : Word) (snap : Operands) (r : Option Memory) (why : IllegalWord),
    s.nextTurn = (.engine, s') → s.engine = .busy w snap r → decode w = .illegal why →
    step s = .next { s' with
      status := { s'.status with busy := false, done := true, err := true, errCode := 1, errWin := false }
      engine := .idle }) ∧
  (∀ w : Word, (∃ why, decode w = .illegal why) ↔ ∃ why, decode (w ^^^ 0x100) = .illegal why) ∧
  (∀ (i j : Instr) (s : State), i.opcode = j.opcode → i.opcode.toNat < 0x10 → exec i s = exec j s)

/-- R70: words written out from the opcode map, one of each family, `FORCE_SCALAR` clear and set, and an illegal one. -/
def Obligations.SampleWordsDecode : Prop :=
  decode 0b00000000000000000000000000000001 = .command (.lenLookup false) ∧
  decode 0b00000000000000000000000100000110 = .command (.ctrlWord true) ∧
  decode 0b00000000000000000000000000001011 = .command (.encode8Delta false) ∧
  decode 0b00000000000000000000000100001100 = .command (.decode4 true) ∧
  decode 0b00000000000000000000000100010010 = .command (.writeAllDelta true) ∧
  decode 0b00000000000000000000000000010100 = .command (.readAll false) ∧
  decode 0b00000000000000000000000001001000 = .illegal .reservedLow

/-! ### The life of a command -/

/-- A step is one turn: the first listed, the engine's when none is (log 1). At the engine's turn it runs the decoded command on the state
without that turn, and with the engine idle changes nothing else; at the host's turn it performs the host's operation on the state without
that turn, and a CSR write is `csrWrite`. The command placed by `withFetchWord` is the one the next step runs, on the state its acceptance
leaves (log 2). -/
def Obligations.StepRunsAcceptedCommand : Prop :=
  (∀ (s : State) (t : Turn) (ts : List Turn),
    (s.turns = t :: ts → s.nextTurn = (t, { s with turns := ts })) ∧ (s.turns = [] → s.nextTurn = (.engine, s))) ∧
  (∀ (s s' : State) (w : Word) (snap : Operands) (r : Option Memory) (i : Instr),
    s.nextTurn = (.engine, s') → s.engine = .busy w snap r → decode w = .command i → i.wf = true → step s = exec i s') ∧
  (∀ s s' : State, s.nextTurn = (.engine, s') → s.engine = .idle → step s = .next s') ∧
  (∀ (s s' : State) (op : HostOp), s.nextTurn = (.host op, s') → step s = .next (hostOp op s')) ∧
  (∀ (s : State) (off : BitVec 12) (w : Word), hostOp (.csr (.write off w)) s = csrWrite off w s ∧ hostOp .idle s = s) ∧
  (∀ (s : State) (w : Word) (i : Instr), decode w = .command i → step (s.withFetchWord 32 w.toNat) = exec i (accept w s))

/-- R42: accept of any word by an idle engine. -/
def Obligations.AcceptStartsCommand : Prop :=
  ∀ (s : State) (w : Word) (ts : List Turn),
    s.engine = .idle → s.turns = .host (.csr (.write 0x00C w)) :: ts →
    step s = .next { s with
      turns := ts
      cmd := w
      status := { s.status with busy := true, done := false, err := false, errCode := 0, errWin := false }
      engine := .busy w s.ops none }

/-- R43: while the engine is BUSY, a write to `CMD` or an operand CSR changes nothing but `OVERRUN`; `STATUS` and `IRQ_EN` take theirs. -/
def Obligations.BusyDropsWrites : Prop :=
  ∀ (s : State) (cmd : Word) (snap : Operands) (r : Option Memory) (off : BitVec 12) (w : Word),
    s.engine = .busy cmd snap r →
    let o := off.toNat / 4 * 4
    ((o = 0x00C ∨ (0x018 ≤ o ∧ o ≤ 0x02C) ∨ o = 0x034 ∨ o = 0x038 ∨ (0x060 ≤ o ∧ o ≤ 0x09C)) →
      csrWrite off w s = { s with status := { s.status with overrun := true } }) ∧
    (o = 0x010 → csrWrite off w s = { s with status := s.status.hostWrite w }) ∧
    (o = 0x014 → csrWrite off w s = { s with doneEn := w.getLsbD 0 })

/-- R24: a host write to `STATUS` clears the named flags, in any engine state, and nothing else. -/
def Obligations.StatusWriteClears : Prop :=
  ∀ (s : State) (w : Word),
    csrWrite 0x010 w s = { s with
      status := {
        busy := s.status.busy
        done := if w.getLsbD 1 then false else s.status.done
        err := if w.getLsbD 2 then false else s.status.err
        overrun := if w.getLsbD 3 then false else s.status.overrun
        errCode := if w.getLsbD 2 then 0 else s.status.errCode
        errWin := if w.getLsbD 2 then false else s.status.errWin } }

/-- R15, R16: bits [1:0] of an offset are ignored; a CSR read has no effect but on the read data; what a read gives at every offset of the
map, `STATUS` with the layout of R23; offsets without a CSR read 0; and a write to one of them, or to a read-only CSR, changes nothing (so
never `OVERRUN`), BUSY or not. -/
def Obligations.CsrAccessProtocol : Prop :=
  ∀ (s : State) (off : BitVec 12) (w : Word),
    csrRead off s = csrRead (off &&& 0xFFC) s ∧ csrWrite off w s = csrWrite (off &&& 0xFFC) w s ∧
    hostOp (.csr (.read off)) s = { s with csrRdata := csrRead off s } ∧
    (let o := off.toNat / 4 * 4
     let r := csrRead off s
     (o = 0x000 → r = 0x53564231) ∧
     (o = 0x004 → r = if s.accelPresent then 1 else 0) ∧
     (o = 0x008 → r = if s.modeAccel then 1 else 0) ∧
     (o = 0x00C → r = s.cmd) ∧
     (o = 0x010 → r.getLsbD 0 = s.status.busy ∧ r.getLsbD 1 = s.status.done ∧ r.getLsbD 2 = s.status.err ∧
       r.getLsbD 3 = s.status.overrun ∧ r.extractLsb' 8 4 = s.status.errCode ∧ r.getLsbD 12 = s.status.errWin ∧
       r &&& 0xFFFFE0F0 = 0) ∧
     (o = 0x014 → r = if s.doneEn then 1 else 0) ∧
     (o = 0x018 → r = s.ops.count) ∧
     (o = 0x01C → r = s.ops.prev) ∧
     (o = 0x020 → r = s.ops.srcAddr) ∧
     (o = 0x024 → r = s.ops.srcLen) ∧
     (o = 0x028 → r = s.ops.dstAddr) ∧
     (o = 0x02C → r = s.ops.dstCap) ∧
     (o = 0x030 → r = s.resultLen) ∧
     (o = 0x034 → r.toNat = s.ops.ctrl.toNat) ∧
     (o = 0x038 → r.toNat = s.ops.packLen.toNat) ∧
     (o = 0x03C → r = s.lens) ∧
     (o = 0x040 → r = s.lensHi) ∧
     (∀ k : Fin 8, (o = 0x060 + 4 * k.val → s.ops.vals.toList[k.val]? = some r) ∧
       (o = 0x080 + 4 * k.val → s.ops.pack.toList[k.val]? = some r)) ∧
     ((0x044 ≤ o ∧ o ≤ 0x05C) ∨ 0x0A0 ≤ o → r = 0 ∧ csrWrite off w s = s) ∧
     (o ≤ 0x008 ∨ o = 0x030 ∨ o = 0x03C ∨ o = 0x040 → csrWrite off w s = s))

/-- R22, R25 to R30, R33, R34: what an idle CORE reads back after a host write to a writable CSR but `STATUS` and `PACK_LEN`. -/
def Obligations.CsrWriteThenRead : Prop :=
  ∀ (s : State) (off : BitVec 12) (w : Word), s.engine = .idle →
    let o := off.toNat / 4 * 4
    ((o = 0x00C ∨ (0x018 ≤ o ∧ o ≤ 0x02C) ∨ (0x060 ≤ o ∧ o ≤ 0x09C)) → csrRead off (csrWrite off w s) = w) ∧
    (o = 0x014 → csrRead off (csrWrite off w s) = w &&& 1) ∧
    (o = 0x034 → csrRead off (csrWrite off w s) = w &&& 0xFFFF)

/-- A host write to a CSR other than `CMD` changes the reading of no other CSR but, while the engine is BUSY, `STATUS` (`OVERRUN`, R43). With
the engine idle a write to any CSR but `CMD` and `STATUS` leaves `STATUS` as it was. -/
def Obligations.CsrWriteFrame : Prop :=
  ∀ (s : State) (off off' : BitVec 12) (w : Word), off.toNat / 4 ≠ 0x00C / 4 →
    (off'.toNat / 4 ≠ off.toNat / 4 → (off'.toNat / 4 ≠ 0x010 / 4 ∨ s.engine = .idle) →
      csrRead off' (csrWrite off w s) = csrRead off' s) ∧
    (s.engine = .idle → off.toNat / 4 ≠ 0x010 / 4 → (csrWrite off w s).status = s.status) ∧
    (csrWrite off w s).mem = s.mem ∧ (csrWrite off w s).engine = s.engine

/-- R31: `PACK_LEN` stores `min(w[5:0], 32)`, so it reads 0 to 32; it is 32 after reset; no command writes it. -/
def Obligations.PackLenLegal : Prop :=
  (∀ (s : State) (w : Word), s.engine = .idle →
    csrRead 0x038 (csrWrite 0x038 w s) = BitVec.ofNat 32 (min (w.toNat % 64) 32)) ∧
  (∀ s : State, csrRead 0x038 s &&& 0xFFFFFFC0 = 0) ∧
  (∀ s t : State, s.Wf → step s = .next t → (csrRead 0x038 t).toNat ≤ 32) ∧
  csrRead 0x038 State.reset = 32 ∧
  (∀ (i : Instr) (s t : State), exec i s = .next t → t.ops.packLen = s.ops.packLen)

/-- R43, R44: nothing the host does during a command, short of reset, changes the reading of a CSR other than `STATUS` and `IRQ_EN`; and
`STATUS` keeps reading `BUSY = 1`. -/
def Obligations.BusyCsrsKeepTheirValues : Prop :=
  ∀ (s : State) (cmd : Word) (snap : Operands) (r : Option Memory) (op : HostOp) (off : BitVec 12),
    s.engine = .busy cmd snap r → (∀ a, op ≠ .rst a) →
    (off.toNat / 4 ≠ 0x010 / 4 → off.toNat / 4 ≠ 0x014 / 4 → csrRead off (hostOp op s) = csrRead off s) ∧
    (s.status.busy = true → (csrRead 0x010 (hostOp op s)).getLsbD 0 = true)

/-- R160: the interrupt output is `DONE AND DONE_EN` as the CSRs read; a completion raises it when enabled, with or without error;
accept, a write of 1 to `DONE` and reset clear it. -/
def Obligations.InterruptOutput : Prop :=
  (∀ s : State, s.irq = ((csrRead 0x010 s).getLsbD 1 && (csrRead 0x014 s).getLsbD 0)) ∧
  (∀ (i : Instr) (s t : State), exec i s = .next t → t.irq = s.doneEn) ∧
  (∀ (w : Word) (s : State), (accept w s).irq = false) ∧
  (∀ (w : Word) (s : State), w.getLsbD 1 = true → (csrWrite 0x010 w s).irq = false) ∧
  (∀ (a : Option CsrAccess) (s : State), (hostOp (.rst a) s).irq = false) ∧ State.reset.irq = false

/-- R16, R170: what every offset of the CSR block reads right after reset, and after any clock edge with `rst = 1` (R169), at which a CSR
write is ignored and a CSR read returns 0. -/
def Obligations.ResetValues : Prop :=
  ∀ (off : BitVec 12),
    let value (accel : Bool) : Word :=
      if off.toNat / 4 = 0 then 0x53564231
      else if off.toNat / 4 = 1 ∨ off.toNat / 4 = 2 then (if accel then 1 else 0)
      else if off.toNat / 4 = 0x038 / 4 then 32
      else 0
    csrRead off State.reset = value Config.accelPresent ∧ State.reset.engine = .idle ∧
    ∀ (s : State) (a : Option CsrAccess),
      csrRead off (hostOp (.rst a) s) = value s.accelPresent ∧ (hostOp (.rst a) s).engine = .idle ∧
      (∀ o, a = some (.read o) → (hostOp (.rst a) s).csrRdata = 0)

/-- R169, R171, R145: reset, with a CSR access at its edge or none, changes no byte of memory, but for the write footprint of the command in
progress, raced or not; each byte of that footprint is the old value, the final value, or (accelerated encoder) zero, where the command is
not raced, its windows share no memory and the footprint holds the byte once (log 9, log 17). Which of them a byte takes is the model's
free choice (log 8). The footprint, taken from the input as memory held it at accept (log 9): none without a command that writes memory
(R59), the stream of an encode, the `4N` value bytes of a decode. Not the spec's words but the model's reading (log 8, DEDUCED): a command
whose checks fail has none, so that reset leaves its bytes as they were; and a decode whose pre-pass would fail has its `4N` bytes, though
it would write none, with any values for final ones, as after `BUS_ERROR` (O37). -/
def Obligations.ResetAbortsCommand : Prop :=
  (∀ (s : State) (acc : Option CsrAccess) (a : Nat),
    let b := (hostOp (.rst acc) s).byteAt a
    (s.footprint = none → b = s.byteAt a) ∧
    (∀ f, s.footprint = some f →
      ((∀ k < f.final.length, cellOf s.mirrors (s.operands.dstAddr.toNat + k) ≠ cellOf s.mirrors a) → b = s.byteAt a) ∧
      (s.Settled → s.HeldOnce f.final.length a → b = s.byteAt a ∨
      ∃ k v, f.final[k]? = some v ∧ cellOf s.mirrors (s.operands.dstAddr.toNat + k) = cellOf s.mirrors a ∧
        (b = v ∨ (f.zeros = true ∧ b = 0))))) ∧
  (∀ s : State, s.engine = .idle → s.footprint = none) ∧
  (∀ (s : State) (w : Word) (o : Operands) (r : Option Memory), s.engine = .busy w o r →
    let n := o.count.toNat
    let g := (n + 3) / 4
    let input (len : Nat) : List Byte := (List.range len).map fun k => (r.getD s.mem).read (cellOf s.mirrors (o.srcAddr.toNat + k))
    let vs := wordsOf (input (4 * n))
    let need := g + dataLen (input g) n
    let xs := (decodeStream n (input need)).1
    let encodes := o.WindowsOk ∧ 4 * n ≤ o.srcLen.toNat ∧ g + 4 * n ≤ o.dstCap.toNat
    let decodes := o.WindowsOk ∧ g ≤ o.srcLen.toNat ∧ 4 * n ≤ o.dstCap.toNat
    let decodesInto (final : List Byte) : Prop :=
      (decodes → need ≤ o.srcLen.toNat → s.footprint = some ⟨final, false, true⟩) ∧
      (decodes → o.srcLen.toNat < need → ∃ anything, anything.length = 4 * n ∧ s.footprint = some ⟨anything, false, false⟩) ∧
      (¬ decodes → s.footprint = none)
    (∀ why, decode w = .illegal why → s.footprint = none) ∧
    (∀ i, decode w = .command i → i.opcode.toNat < 0x10 → s.footprint = none) ∧
    (∀ fs, decode w = .command (.writeAll fs) →
      (encodes → s.footprint = some ⟨encodeStream vs, s.modeAccel && !fs, true⟩) ∧ (¬ encodes → s.footprint = none)) ∧
    (∀ fs, decode w = .command (.writeAllDelta fs) →
      (encodes → s.footprint = some ⟨encodeStream (deltas o.prev vs), s.modeAccel && !fs, true⟩) ∧
      (¬ encodes → s.footprint = none)) ∧
    (∀ fs, decode w = .command (.readAll fs) → decodesInto (bytesOfWords xs)) ∧
    (∀ fs, decode w = .command (.readAllDelta fs) → decodesInto (bytesOfWords (prefixes o.prev xs))))

/-! ### The table and control-byte commands -/

/-- R93. -/
def Obligations.LenLookupResult : Prop :=
  decode 0x00000001 = .command (.lenLookup false) ∧ decode 0x00000101 = .command (.lenLookup true) ∧
  ∀ (fs : Bool) (s : State),
    let c := s.operands.ctrl.extractLsb' 0 8
    let len (i : Nat) : Word := (c.extractLsb' (2 * i) 2).setWidth 32 + 1
    exec (.lenLookup fs) s = .next { s with
      lens := len 0 ||| len 1 <<< 8 ||| len 2 <<< 16 ||| len 3 <<< 24
      resultLen := len 0 + len 1 + len 2 + len 3
      status := { s.status with busy := false, done := true }
      engine := .idle }

/-- R94. -/
def Obligations.LenLookupWordResult : Prop :=
  decode 0x00000002 = .command (.lenLookupWord false) ∧ decode 0x00000102 = .command (.lenLookupWord true) ∧
  ∀ (fs : Bool) (s : State),
    let w := s.operands.ctrl
    let len (i : Nat) : Word := (w.extractLsb' (2 * i) 2).setWidth 32 + 1
    exec (.lenLookupWord fs) s = .next { s with
      lens := len 0 ||| len 1 <<< 8 ||| len 2 <<< 16 ||| len 3 <<< 24
      lensHi := len 4 ||| len 5 <<< 8 ||| len 6 <<< 16 ||| len 7 <<< 24
      resultLen := len 0 + len 1 + len 2 + len 3 + len 4 + len 5 + len 6 + len 7
      status := { s.status with busy := false, done := true }
      engine := .idle }

/-- R95, with the row of R87. -/
def Obligations.ShufEncReadResult : Prop :=
  decode 0x00000003 = .command (.shufEncRead false) ∧ decode 0x00000103 = .command (.shufEncRead true) ∧
  ∀ (fs : Bool) (s : State),
    let c := s.operands.ctrl.extractLsb' 0 8
    ∃ p : Bank,
      (∀ k < 32, (packBytes p)[k]? = some (if k < 16 then encShuf c k else 0)) ∧
      exec (.shufEncRead fs) s = .next { s with
        ops := { s.ops with pack := p }
        resultLen := BitVec.ofNat 32 (totalLength c)
        status := { s.status with busy := false, done := true }
        engine := .idle }

/-- R96, with the row of R88. -/
def Obligations.ShufDecReadResult : Prop :=
  decode 0x00000004 = .command (.shufDecRead false) ∧ decode 0x00000104 = .command (.shufDecRead true) ∧
  ∀ (fs : Bool) (s : State),
    let c := s.operands.ctrl.extractLsb' 0 8
    ∃ p : Bank,
      (∀ k < 32, (packBytes p)[k]? = some (if k < 16 then decShuf c k else 0)) ∧
      exec (.shufDecRead fs) s = .next { s with
        ops := { s.ops with pack := p }
        resultLen := BitVec.ofNat 32 (totalLength c)
        status := { s.status with busy := false, done := true }
        engine := .idle }

/-- R108: the control byte in `CTRL_IO[7:0]`, zero above it, and the total, which is the sum of the length classes. -/
def Obligations.CtrlByteResult : Prop :=
  decode 0x00000005 = .command (.ctrlByte false) ∧ decode 0x00000105 = .command (.ctrlByte true) ∧
  ∀ (fs : Bool) (s : State),
    let v := s.operands.vals.lo
    exec (.ctrlByte fs) s = .next { s with
      ops := { s.ops with ctrl := (controlByte v).setWidth 16 }
      resultLen := BitVec.ofNat 32 (lc v.q0 + lc v.q1 + lc v.q2 + lc v.q3)
      status := { s.status with busy := false, done := true }
      engine := .idle }

/-- R109. -/
def Obligations.CtrlWordResult : Prop :=
  decode 0x00000006 = .command (.ctrlWord false) ∧ decode 0x00000106 = .command (.ctrlWord true) ∧
  ∀ (fs : Bool) (s : State),
    let v := s.operands.vals
    exec (.ctrlWord fs) s = .next { s with
      ops := { s.ops with ctrl := (controlByte v.lo).setWidth 16 ||| (controlByte v.hi).setWidth 16 <<< 8 }
      resultLen := BitVec.ofNat 32 ((v.toList.map lc).sum)
      status := { s.status with busy := false, done := true }
      engine := .idle }

/-! ### The group commands -/

/-- R122: success when `t <= PACK_LEN`, `BUFFER_TOO_SMALL` on the output side otherwise. -/
def Obligations.Encode4Result : Prop :=
  decode 0x00000008 = .command (.encode4 false) ∧ decode 0x00000108 = .command (.encode4 true) ∧
  ∀ (fs : Bool) (s : State),
    let v := s.operands.vals.lo
    let c := controlByte v
    let bytes := lebytes v.q0 (lc v.q0) ++ lebytes v.q1 (lc v.q1) ++ lebytes v.q2 (lc v.q2) ++ lebytes v.q3 (lc v.q3)
    let t := totalLength c
    (t ≤ s.operands.packLen.toNat → ∃ p : Bank,
      (∀ k < 32, (packBytes p)[k]? = some (if k < t then bytes.getD k 0 else 0)) ∧
      exec (.encode4 fs) s = .next { s with
        ops := { s.ops with pack := p, ctrl := c.setWidth 16 }
        resultLen := BitVec.ofNat 32 t
        status := { s.status with busy := false, done := true }
        engine := .idle }) ∧
    (s.operands.packLen.toNat < t → exec (.encode4 fs) s = .next (raiseError (.bufferTooSmall .output t) s))

/-- R123. -/
def Obligations.Encode8Result : Prop :=
  decode 0x00000009 = .command (.encode8 false) ∧ decode 0x00000109 = .command (.encode8 true) ∧
  ∀ (fs : Bool) (s : State),
    let v := s.operands.vals
    let w := (controlByte v.lo).setWidth 16 ||| (controlByte v.hi).setWidth 16 <<< 8
    let bytes := groupBytes v.lo ++ groupBytes v.hi
    let t := totalLength (controlByte v.lo) + totalLength (controlByte v.hi)
    (t ≤ s.operands.packLen.toNat → ∃ p : Bank,
      (∀ k < 32, (packBytes p)[k]? = some (if k < t then bytes.getD k 0 else 0)) ∧
      exec (.encode8 fs) s = .next { s with
        ops := { s.ops with pack := p, ctrl := w }
        resultLen := BitVec.ofNat 32 t
        status := { s.status with busy := false, done := true }
        engine := .idle }) ∧
    (s.operands.packLen.toNat < t → exec (.encode8 fs) s = .next (raiseError (.bufferTooSmall .output t) s))

/-- R124. -/
def Obligations.Encode4DeltaResult : Prop :=
  decode 0x0000000A = .command (.encode4Delta false) ∧ decode 0x0000010A = .command (.encode4Delta true) ∧
  ∀ (fs : Bool) (s : State),
    let v := s.operands.vals.lo
    let d : Quad := ⟨v.q0 - s.operands.prev, v.q1 - v.q0, v.q2 - v.q1, v.q3 - v.q2⟩
    let t := totalLength (controlByte d)
    (t ≤ s.operands.packLen.toNat → ∃ p : Bank,
      (∀ k < 32, (packBytes p)[k]? = some (if k < t then (groupBytes d).getD k 0 else 0)) ∧
      exec (.encode4Delta fs) s = .next { s with
        ops := { s.ops with pack := p, ctrl := (controlByte d).setWidth 16, prev := v.q3 }
        resultLen := BitVec.ofNat 32 t
        status := { s.status with busy := false, done := true }
        engine := .idle }) ∧
    (s.operands.packLen.toNat < t → exec (.encode4Delta fs) s = .next (raiseError (.bufferTooSmall .output t) s))

/-- R125: the chain of deltas runs through the group boundary. -/
def Obligations.Encode8DeltaResult : Prop :=
  decode 0x0000000B = .command (.encode8Delta false) ∧ decode 0x0000010B = .command (.encode8Delta true) ∧
  ∀ (fs : Bool) (s : State),
    let v := s.operands.vals
    let d0 : Quad := ⟨v.lo.q0 - s.operands.prev, v.lo.q1 - v.lo.q0, v.lo.q2 - v.lo.q1, v.lo.q3 - v.lo.q2⟩
    let d1 : Quad := ⟨v.hi.q0 - v.lo.q3, v.hi.q1 - v.hi.q0, v.hi.q2 - v.hi.q1, v.hi.q3 - v.hi.q2⟩
    let bytes := groupBytes d0 ++ groupBytes d1
    let t := totalLength (controlByte d0) + totalLength (controlByte d1)
    (t ≤ s.operands.packLen.toNat → ∃ p : Bank,
      (∀ k < 32, (packBytes p)[k]? = some (if k < t then bytes.getD k 0 else 0)) ∧
      exec (.encode8Delta fs) s = .next { s with
        ops := { s.ops with
          pack := p, ctrl := (controlByte d0).setWidth 16 ||| (controlByte d1).setWidth 16 <<< 8, prev := v.hi.q3 }
        resultLen := BitVec.ofNat 32 t
        status := { s.status with busy := false, done := true }
        engine := .idle }) ∧
    (s.operands.packLen.toNat < t → exec (.encode8Delta fs) s = .next (raiseError (.bufferTooSmall .output t) s))

/-- R126: `VAL[4..7]` and `PACK` are unchanged. -/
def Obligations.Decode4Result : Prop :=
  decode 0x0000000C = .command (.decode4 false) ∧ decode 0x0000010C = .command (.decode4 true) ∧
  ∀ (fs : Bool) (s : State),
    let c := s.operands.ctrl.extractLsb' 0 8
    let t := totalLength c
    let x := decodeGroup c ((packBytes s.operands.pack).take t)
    (t ≤ s.operands.packLen.toNat →
      exec (.decode4 fs) s = .next { s with
        ops := { s.ops with vals := { s.ops.vals with lo := x } }
        resultLen := BitVec.ofNat 32 t
        status := { s.status with busy := false, done := true }
        engine := .idle }) ∧
    (s.operands.packLen.toNat < t → exec (.decode4 fs) s = .next (raiseError (.bufferTooSmall .input t) s))

/-- R127. -/
def Obligations.Decode8Result : Prop :=
  decode 0x0000000D = .command (.decode8 false) ∧ decode 0x0000010D = .command (.decode8 true) ∧
  ∀ (fs : Bool) (s : State),
    let c0 := s.operands.ctrl.extractLsb' 0 8
    let c1 := s.operands.ctrl.extractLsb' 8 8
    let t0 := totalLength c0
    let t := t0 + totalLength c1
    let x0 := decodeGroup c0 ((packBytes s.operands.pack).take t0)
    let x1 := decodeGroup c1 (((packBytes s.operands.pack).take t).drop t0)
    (t ≤ s.operands.packLen.toNat →
      exec (.decode8 fs) s = .next { s with
        ops := { s.ops with vals := ⟨x0, x1⟩ }
        resultLen := BitVec.ofNat 32 t
        status := { s.status with busy := false, done := true }
        engine := .idle }) ∧
    (s.operands.packLen.toNat < t → exec (.decode8 fs) s = .next (raiseError (.bufferTooSmall .input t) s))

/-- R128. -/
def Obligations.Decode4DeltaResult : Prop :=
  decode 0x0000000E = .command (.decode4Delta false) ∧ decode 0x0000010E = .command (.decode4Delta true) ∧
  ∀ (fs : Bool) (s : State),
    let c := s.operands.ctrl.extractLsb' 0 8
    let t := totalLength c
    let x := decodeGroup c ((packBytes s.operands.pack).take t)
    let v0 := s.operands.prev + x.q0
    let v1 := v0 + x.q1
    let v2 := v1 + x.q2
    let v3 := v2 + x.q3
    (t ≤ s.operands.packLen.toNat →
      exec (.decode4Delta fs) s = .next { s with
        ops := { s.ops with vals := { s.ops.vals with lo := ⟨v0, v1, v2, v3⟩ }, prev := v3 }
        resultLen := BitVec.ofNat 32 t
        status := { s.status with busy := false, done := true }
        engine := .idle }) ∧
    (s.operands.packLen.toNat < t → exec (.decode4Delta fs) s = .next (raiseError (.bufferTooSmall .input t) s))

/-- R129: the prefix sum runs through the group boundary. -/
def Obligations.Decode8DeltaResult : Prop :=
  decode 0x0000000F = .command (.decode8Delta false) ∧ decode 0x0000010F = .command (.decode8Delta true) ∧
  ∀ (fs : Bool) (s : State),
    let c0 := s.operands.ctrl.extractLsb' 0 8
    let c1 := s.operands.ctrl.extractLsb' 8 8
    let t0 := totalLength c0
    let t := t0 + totalLength c1
    let x0 := decodeGroup c0 ((packBytes s.operands.pack).take t0)
    let x1 := decodeGroup c1 (((packBytes s.operands.pack).take t).drop t0)
    let v0 := s.operands.prev + x0.q0
    let v1 := v0 + x0.q1
    let v2 := v1 + x0.q2
    let v3 := v2 + x0.q3
    let v4 := v3 + x1.q0
    let v5 := v4 + x1.q1
    let v6 := v5 + x1.q2
    let v7 := v6 + x1.q3
    (t ≤ s.operands.packLen.toNat →
      exec (.decode8Delta fs) s = .next { s with
        ops := { s.ops with vals := ⟨⟨v0, v1, v2, v3⟩, ⟨v4, v5, v6, v7⟩⟩, prev := v7 }
        resultLen := BitVec.ofNat 32 t
        status := { s.status with busy := false, done := true }
        engine := .idle }) ∧
    (s.operands.packLen.toNat < t → exec (.decode8Delta fs) s = .next (raiseError (.bufferTooSmall .input t) s))

/-! ### The stream commands -/

/-- R146, R133, R145: `WRITE_ALL` in either mode, with legal windows of sufficient size that share no memory, no race and no bus error: the output window
holds the stream of the value array (but for bytes it holds twice through mirrors, which are free, log 17), `RESULT_LEN` its length, and
nothing else changes (`memErrs`: the answers its accesses used). -/
def Obligations.WriteAllResult : Prop :=
  ∀ (fs : Bool) (s : State),
    let o := s.operands
    let n := o.count.toNat
    let vs := wordsOf (s.bytesAt o.srcAddr.toNat (4 * n))
    s.Settled → s.MemAnswers → o.WindowsOk → 4 * n ≤ o.srcLen.toNat → (n + 3) / 4 + 4 * n ≤ o.dstCap.toNat →
    ∃ k m f, exec (.writeAll fs) s = .next { s with
      mem := m
      resultLen := BitVec.ofNat 32 (encodeStream vs).length
      status := { s.status with busy := false, done := true }
      engine := .idle
      memErrs := s.memErrs.drop k
      free := f } ∧
      s.Delivers (encodeStream vs) m f

/-- R147, R132: `WRITE_ALL_DELTA`, as `WRITE_ALL` over the deltas; `PREV` takes the last value when there is one. -/
def Obligations.WriteAllDeltaResult : Prop :=
  ∀ (fs : Bool) (s : State),
    let o := s.operands
    let n := o.count.toNat
    let vs := wordsOf (s.bytesAt o.srcAddr.toNat (4 * n))
    s.Settled → s.MemAnswers → o.WindowsOk → 4 * n ≤ o.srcLen.toNat → (n + 3) / 4 + 4 * n ≤ o.dstCap.toNat →
    ∃ k m f, exec (.writeAllDelta fs) s = .next { s with
      mem := m
      ops := { s.ops with prev := if n = 0 then s.ops.prev else vs.getLastD 0 }
      resultLen := BitVec.ofNat 32 (encodeStream (deltas o.prev vs)).length
      status := { s.status with busy := false, done := true }
      engine := .idle
      memErrs := s.memErrs.drop k
      free := f } ∧
      s.Delivers (encodeStream (deltas o.prev vs)) m f

/-- R148, R134, R143: `READ_ALL`, with an input window at least as long as the stream its control bytes declare. -/
def Obligations.ReadAllResult : Prop :=
  ∀ (fs : Bool) (s : State),
    let o := s.operands
    let n := o.count.toNat
    let g := (n + 3) / 4
    let need := g + dataLen (s.bytesAt o.srcAddr.toNat g) n
    let xs := (decodeStream n (s.bytesAt o.srcAddr.toNat need)).1
    s.Settled → s.MemAnswers → o.WindowsOk → need ≤ o.srcLen.toNat → 4 * n ≤ o.dstCap.toNat →
    ∃ k m f, exec (.readAll fs) s = .next { s with
      mem := m
      resultLen := BitVec.ofNat 32 need
      status := { s.status with busy := false, done := true }
      engine := .idle
      memErrs := s.memErrs.drop k
      free := f } ∧
      s.Delivers (bytesOfWords xs) m f

/-- R149, R113: `READ_ALL_DELTA`, as `READ_ALL` with the prefix sums; `PREV` takes the last value when there is one. -/
def Obligations.ReadAllDeltaResult : Prop :=
  ∀ (fs : Bool) (s : State),
    let o := s.operands
    let n := o.count.toNat
    let g := (n + 3) / 4
    let need := g + dataLen (s.bytesAt o.srcAddr.toNat g) n
    let vs := prefixes o.prev (decodeStream n (s.bytesAt o.srcAddr.toNat need)).1
    s.Settled → s.MemAnswers → o.WindowsOk → need ≤ o.srcLen.toNat → 4 * n ≤ o.dstCap.toNat →
    ∃ k m f, exec (.readAllDelta fs) s = .next { s with
      mem := m
      ops := { s.ops with prev := if n = 0 then s.ops.prev else vs.getLastD 0 }
      resultLen := BitVec.ofNat 32 need
      status := { s.status with busy := false, done := true }
      engine := .idle
      memErrs := s.memErrs.drop k
      free := f } ∧
      s.Delivers (bytesOfWords vs) m f

/-- R153, items 2 to 6: the first failing check of a stream command, in order, is the error it completes with. -/
def Obligations.StreamChecksInOrder : Prop :=
  ∀ (i : Instr) (fs : Bool) (s : State),
    let o := s.operands
    let n := o.count.toNat
    let g := (n + 3) / 4
    let inOk := o.srcAddr.toNat + o.srcLen.toNat ≤ 2 ^ 32
    let outOk := o.dstAddr.toNat + o.dstCap.toNat ≤ 2 ^ 32
    (i = .writeAll fs ∨ i = .writeAllDelta fs ∨ i = .readAll fs ∨ i = .readAllDelta fs) →
    let inNeed := if i = .writeAll fs ∨ i = .writeAllDelta fs then 4 * n else g
    let outNeed := if i = .writeAll fs ∨ i = .writeAllDelta fs then g + 4 * n else 4 * n
    (¬ inOk → exec i s = .next (raiseError (.addrRange .input) s)) ∧
    (inOk → ¬ outOk → exec i s = .next (raiseError (.addrRange .output) s)) ∧
    (inOk → outOk → ¬ o.WindowsOk → exec i s = .next (raiseError .bufferOverlap s)) ∧
    (o.WindowsOk → o.srcLen.toNat < inNeed → exec i s = .next (raiseError (.bufferTooSmall .input inNeed) s)) ∧
    (o.WindowsOk → inNeed ≤ o.srcLen.toNat → o.dstCap.toNat < outNeed →
      exec i s = .next (raiseError (.bufferTooSmall .output outNeed) s))

/-- R143: a decode whose control bytes declare more than the input window holds ends in the pre-pass; no memory changes. -/
def Obligations.PrepassRejectsShortInput : Prop :=
  ∀ (i : Instr) (fs : Bool) (s : State),
    let o := s.operands
    let n := o.count.toNat
    let g := (n + 3) / 4
    let need := g + dataLen (s.bytesAt o.srcAddr.toNat g) n
    (i = .readAll fs ∨ i = .readAllDelta fs) →
    s.Settled → s.MemAnswers → o.WindowsOk → g ≤ o.srcLen.toNat → 4 * n ≤ o.dstCap.toNat → o.srcLen.toNat < need →
    ∃ k, exec i s = .next { s with
      resultLen := BitVec.ofNat 32 (min need 0xFFFFFFFF)
      status := { s.status with busy := false, done := true, err := true, errCode := 4, errWin := false }
      engine := .idle
      memErrs := s.memErrs.drop k }

/-- R154: what a completion with an error records, and that it changes nothing else of the state. -/
def Obligations.ErrorRecord : Prop :=
  ∀ s : State,
    let rec1 (code : BitVec 4) (win : Bool) (len : Word) : State := { s with
      status := { s.status with busy := false, done := true, err := true, errCode := code, errWin := win }
      resultLen := len
      engine := .idle }
    raiseError .illegalCmd s = rec1 1 false s.resultLen ∧
    raiseError (.addrRange .input) s = rec1 2 false s.resultLen ∧ raiseError (.addrRange .output) s = rec1 2 true s.resultLen ∧
    raiseError .bufferOverlap s = rec1 3 false s.resultLen ∧
    (∀ n, raiseError (.bufferTooSmall .input n) s = rec1 4 false (BitVec.ofNat 32 (min n 0xFFFFFFFF))) ∧
    (∀ n, raiseError (.bufferTooSmall .output n) s = rec1 4 true (BitVec.ofNat 32 (min n 0xFFFFFFFF))) ∧
    raiseError .busError s = rec1 5 false s.resultLen

/-- R153 (items 7 and 8), R155: with `MEM_FAULTS`, the first answer `mem_err = 1` (the answer of access number `k`) ends a stream command with
`BUS_ERROR`: an encode, a decode in its pre-pass, and a decode in its main pass, which comes only when the pre-pass finds the input long
enough. No further answer is used, no CSR but `STATUS` changes, and every byte of memory is its old value or, inside the write
footprint where it holds the byte once (log 17), its new value or (accelerated encoder) a zero; where the pre-pass would have found the
input too short, no rule gives a new value, and the model takes any (log 8). Which of them is the model's free choice (log 8); the number and the order of the
accesses, and so the place of `k` among them, are the model's choice (log 11), as is the list of answers (log 5). -/
def Obligations.BusErrorEndsStreamCommand : Prop :=
  ∀ (delta fs : Bool) (s : State) (k : Nat),
    let o := s.operands
    let n := o.count.toNat
    let g := (n + 3) / 4
    let vs := wordsOf (s.bytesAt o.srcAddr.toNat (4 * n))
    let need := g + dataLen (s.bytesAt o.srcAddr.toNat g) n
    let xs := (decodeStream n (s.bytesAt o.srcAddr.toNat need)).1
    let endsWithBusError (i : Instr) (final : List Byte) (zeros : Bool) : Prop := ∃ m : Memory,
      exec i s = .next { s with
        status := { s.status with busy := false, done := true, err := true, errCode := 5, errWin := false }
        engine := .idle
        mem := m
        memErrs := s.memErrs.drop (k + 1)
        free := s.free + 1 } ∧
      ∀ a, ((∀ j < final.length, cellOf s.mirrors (o.dstAddr.toNat + j) ≠ cellOf s.mirrors a) →
          m.read (cellOf s.mirrors a) = s.byteAt a) ∧
        (s.HeldOnce final.length a → m.read (cellOf s.mirrors a) = s.byteAt a ∨
          ∃ j v, final[j]? = some v ∧ cellOf s.mirrors (o.dstAddr.toNat + j) = cellOf s.mirrors a ∧
            (m.read (cellOf s.mirrors a) = v ∨ (zeros = true ∧ m.read (cellOf s.mirrors a) = 0)))
    s.Settled → s.memFaults = true → o.WindowsOk → s.memErrs[k]? = some true → (∀ j < k, s.memErrs[j]? = some false) →
    (4 * n ≤ o.srcLen.toNat → g + 4 * n ≤ o.dstCap.toNat →
      k < (encoderTrace (s.modeAccel && !fs) delta o.prev o.srcAddr.toNat o.dstAddr.toNat vs).length →
      endsWithBusError (if delta then .writeAllDelta fs else .writeAll fs) (encodeStream (if delta then deltas o.prev vs else vs))
        (s.modeAccel && !fs)) ∧
    (g ≤ o.srcLen.toNat → 4 * n ≤ o.dstCap.toNat →
      (k < g ∨ (need ≤ o.srcLen.toNat ∧
        k < g + (decoderTrace (s.modeAccel && !fs) delta o.prev s.byteAt o.srcAddr.toNat o.dstAddr.toNat n).length)) →
      ∃ final, final.length = 4 * n ∧
        (need ≤ o.srcLen.toNat → final = bytesOfWords (if delta then prefixes o.prev xs else xs)) ∧
        endsWithBusError (if delta then .readAllDelta fs else .readAll fs) final false)

/-! ### Every command -/

/-- R45, R46, R156: every command, from every state, completes in the engine's turn with the engine idle, in one of two ways. Either `BUSY` is 0,
`DONE` 1 and the rest of `STATUS` as before (no error), and no CSR but the outputs of a command (R37) changed: which of them, and to what, the
result statement of each command says. Or there is one error whose record (ErrorRecord says what it holds) is the whole change, but for the
bytes of memory after `BUS_ERROR` and the model's own fields. A `BUFFER_TOO_SMALL` is recorded only of a window that is smaller than the size recorded, and
a `BUS_ERROR` only of a stream command on a memory that can fault. -/
def Obligations.CommandsArePrecise : Prop :=
  ∀ (i : Instr) (s : State), ∃ t, exec i s = .next t ∧
    ((t.engine = .idle ∧ t.status = { s.status with busy := false, done := true } ∧
      t.cmd = s.cmd ∧ t.doneEn = s.doneEn ∧ t.modeAccel = s.modeAccel ∧ t.accelPresent = s.accelPresent ∧
      t.ops.count = s.ops.count ∧ t.ops.srcAddr = s.ops.srcAddr ∧ t.ops.srcLen = s.ops.srcLen ∧ t.ops.dstAddr = s.ops.dstAddr ∧
      t.ops.dstCap = s.ops.dstCap ∧ t.ops.packLen = s.ops.packLen ∧
      t.turns = s.turns ∧ t.csrRdata = s.csrRdata ∧ t.hostRdata = s.hostRdata ∧ t.mirrors = s.mirrors ∧ t.memFaults = s.memFaults) ∨
     ∃ (e : CmdError) (m : Memory) (q : List Bool) (f : Nat),
      t = { raiseError e s with mem := m, memErrs := q, free := f } ∧ e ≠ .illegalCmd ∧
      (e ≠ .busError → m = s.mem ∧ f = s.free) ∧ (i.opcode.toNat < 0x10 → q = s.memErrs) ∧
      (e = .busError → 0x10 ≤ i.opcode.toNat ∧ s.memFaults = true) ∧
      ∀ win req, e = .bufferTooSmall win req →
        (if i.opcode.toNat < 0x10 then s.operands.packLen.toNat
          else match win with
            | .input => s.operands.srcLen.toNat
            | .output => s.operands.dstCap.toNat) < req)

/-- R45: "Every command completes", from every state: no step faults or refuses, and at the engine's turn a BUSY engine becomes idle with
`DONE = 1` and `BUSY = 0`. -/
def Obligations.EveryStepCompletes : Prop :=
  ∀ s : State, ∃ t, step s = .next t ∧
    (s.isBusy = true → s.nextTurn.1 = .engine → t.engine = .idle ∧ t.status.done = true ∧ t.status.busy = false)

/-- R58, R59, R145: a group, control-byte or table command writes no memory; `WRITE_ALL*` writes at most `[DST_ADDR, DST_ADDR + G + 4N)`
and `READ_ALL*` at most `[DST_ADDR, DST_ADDR + 4N)`, raced or not, cut off by a bus error or not, on any mirrors; and both lie inside the
output window. An address is unchanged when none of those reaches its byte. -/
def Obligations.MemoryOutsideFootprintUnchanged : Prop :=
  ∀ (i : Instr) (s t : State) (a : Nat), exec i s = .next t →
    let o := s.operands
    let n := o.count.toNat
    let apart (len : Nat) : Prop := ∀ k < len, cellOf s.mirrors (o.dstAddr.toNat + k) ≠ cellOf s.mirrors a
    t.mirrors = s.mirrors ∧
    (i.opcode.toNat < 0x10 → t.mem = s.mem) ∧
    ((i.opcode = 0x10 ∨ i.opcode = 0x12) → apart ((n + 3) / 4 + 4 * n) → t.byteAt a = s.byteAt a) ∧
    ((i.opcode = 0x14 ∨ i.opcode = 0x16) → apart (4 * n) → t.byteAt a = s.byteAt a) ∧
    (apart o.dstCap.toNat → t.byteAt a = s.byteAt a)

/-- R8: where the memory answers without error, no result of a command depends on `FORCE_SCALAR` or on the datapath; only the number of
answers its accesses use does (log 5, log 11). -/
def Obligations.ModeChangesNoResult : Prop :=
  ∀ (i j : Instr) (s : State) (accel : Bool), i.opcode = j.opcode → s.MemAnswers →
    ∃ t q, exec i s = .next t ∧ exec j { s with modeAccel := accel } = .next { t with modeAccel := accel, memErrs := q }

/-! ### The host beside a running command -/

/-- R173 (I14): a host read of memory changes neither memory nor a CSR. With no command in progress, or outside the running command's write
footprint, or where the engine writes nothing of it (a decode that can only end in its pre-pass, R143), it gives the byte memory holds, the
command raced or not; inside the footprint, where the command is not raced, its windows share no memory and the footprint holds the byte once (log 9,
log 17), the old byte, the final byte or (accelerated encoder) a zero, the model's free choice (log 8). -/
def Obligations.HostReadDuringCommand : Prop :=
  ∀ (s : State) (addr : Word),
    let t := hostOp (.memRead addr) s
    t.mem = s.mem ∧ t.ops = s.ops ∧ t.engine = s.engine ∧ t.status = s.status ∧ (∀ off, csrRead off t = csrRead off s) ∧
    ((∀ f, s.footprint = some f → f.written = true →
        ∀ k < f.final.length, cellOf s.mirrors (s.operands.dstAddr.toNat + k) ≠ cellOf s.mirrors addr.toNat) →
      t.hostRdata = s.byteAt addr.toNat) ∧
    (∀ f, s.footprint = some f → s.Settled → s.HeldOnce f.final.length addr.toNat → t.hostRdata = s.byteAt addr.toNat ∨
      ∃ k v, f.final[k]? = some v ∧ cellOf s.mirrors (s.operands.dstAddr.toNat + k) = cellOf s.mirrors addr.toNat ∧
        (t.hostRdata = v ∨ (f.zeros = true ∧ t.hostRdata = 0)))

/-- R173 (I15), R174: a host write of a byte reaches memory, at every address that reaches that byte; it races the running command, keeping
the memory it found, exactly when that is a stream command, not raced yet, and one of those addresses lies in one of its windows. -/
def Obligations.HostWriteRacesCommand : Prop :=
  ∀ (s : State) (addr : Word) (b : Byte),
    let t := hostOp (.memWrite addr b) s
    let o := s.operands
    let touches : Prop := ∃ x, cellOf s.mirrors x = cellOf s.mirrors addr.toNat ∧
      ((o.srcAddr.toNat ≤ x ∧ x < o.srcAddr.toNat + o.srcLen.toNat) ∨ (o.dstAddr.toNat ≤ x ∧ x < o.dstAddr.toNat + o.dstCap.toNat))
    (∀ a, t.byteAt a = if cellOf s.mirrors a = cellOf s.mirrors addr.toNat then b else s.byteAt a) ∧
    (s.engine = .idle → t.engine = .idle) ∧
    (∀ (w : Word) (snap : Operands) (m : Memory), s.engine = .busy w snap (some m) → t.engine = s.engine) ∧
    (∀ (w : Word) (snap : Operands), s.engine = .busy w snap none →
      ((∃ i, decode w = .command i ∧ 0x10 ≤ i.opcode.toNat) ∧ touches → t.engine = .busy w snap (some s.mem)) ∧
      (¬ ((∃ i, decode w = .command i ∧ 0x10 ≤ i.opcode.toNat) ∧ touches) → t.engine = s.engine))

/-! ### Codec functions and their vectorized forms -/

/-- R97: both forms of the length class, and the law that it is the least number of bytes that holds the value. -/
def Obligations.LengthClassLaw : Prop :=
  ∀ v : Word,
    lc v = max 1 (4 - lzcnt v / 8) ∧ (lzcnt v = 32 ↔ v = 0) ∧
    (v ≠ 0 → 2 ^ (31 - lzcnt v) ≤ v.toNat ∧ v.toNat < 2 ^ (32 - lzcnt v)) ∧
    1 ≤ lc v ∧ lc v ≤ 4 ∧ v.toNat < 256 ^ lc v ∧ ∀ n, 1 ≤ n → v.toNat < 256 ^ n → lc v ≤ n

/-- R81, R82, R84, R98, R87, R88, the byte view of R78, and `lebytes` and `le` of R11: the functions the other statements are written with, from the bits of
their arguments. -/
def Obligations.CodecFunctionsAsWritten : Prop :=
  (∀ (c : Byte) (i : Nat), i < 4 → fieldLen c i = c.toNat / 4 ^ i % 4 + 1) ∧
  (∀ c : Byte, totalLength c = ((List.range 4).map (fieldLen c)).sum ∧ 4 ≤ totalLength c ∧ totalLength c ≤ 16) ∧
  (∀ (c : Byte) (i : Nat), fieldOffset c i = ((List.range i).map (fieldLen c)).sum) ∧
  (∀ q : Quad, (controlByte q).toNat = (lc q.q0 - 1) + 4 * (lc q.q1 - 1) + 16 * (lc q.q2 - 1) + 64 * (lc q.q3 - 1)) ∧
  (∀ (c : Byte) (i b : Nat), i < 4 → b < fieldLen c i → encShuf c (fieldOffset c i + b) = BitVec.ofNat 8 (4 * i + b)) ∧
  (∀ (c : Byte) (k : Nat), totalLength c ≤ k → encShuf c k = 0xFF) ∧
  (∀ (c : Byte) (i b : Nat), i < 4 → b < 4 →
    decShuf c (4 * i + b) = if b < fieldLen c i then BitVec.ofNat 8 (fieldOffset c i + b) else 0xFF) ∧
  (∀ (v : Word) (n k : Nat), k < n → ((lebytes v n)[k]?).map BitVec.toNat = some (v.toNat / 256 ^ k % 256)) ∧
  (∀ (bs : List Byte) (k : Nat), bs.length ≤ 4 → k < 4 → (le bs).toNat / 256 ^ k % 256 = (bs.getD k 0).toNat) ∧
  (∀ (b : Bank) (j : Fin 8) (k : Nat), k < 4 →
    b.toList[j.val]? = some (bankGet b j) ∧
    ((packBytes b)[4 * j.val + k]?).map BitVec.toNat = some ((bankGet b j).toNat / 256 ^ k % 256)) ∧
  (∀ (s : State) (j : Fin 8), csrRead (BitVec.ofNat 12 (0x060 + 4 * j.val)) s = bankGet s.ops.vals j ∧
    csrRead (BitVec.ofNat 12 (0x080 + 4 * j.val)) s = bankGet s.ops.pack j)

/-- R89: table consistency, and that expanding a compressed register keeps the bytes a lane's length covers and zeroes the others. -/
def Obligations.TableConsistency : Prop :=
  ∀ c : Byte,
    fieldLen c 0 + fieldLen c 1 + fieldLen c 2 + fieldLen c 3 = totalLength c ∧
    ((shuffleRom .dec c).filter (· ≠ 0xFF)).map BitVec.toNat = List.range (totalLength c) ∧
    ((shuffleRom .enc c).filter (· ≠ 0xFF)).length = totalLength c ∧
    ((shuffleRom .enc c).filter (· ≠ 0xFF)).Nodup ∧ (∀ e ∈ (shuffleRom .enc c).filter (· ≠ 0xFF), e.toNat < 16) ∧
    ∀ x : List Byte, x.length = 16 → ∀ i < 4, ∀ b < 4,
      (shuffle (shuffle x (shuffleRom .enc c)) (shuffleRom .dec c))[4 * i + b]? =
        some (if b < fieldLen c i then x.getD (4 * i + b) 0 else 0)

/-- R107: the vectorized control-byte datapath equals the scalar one for every 8 values. -/
def Obligations.KernelEqualsScalar : Prop :=
  ∀ b : Bank, kernelControlWord b = controlWord b

/-- R117: the vectorized pack of a group is its packed bytes, then zeros to 16 bytes. -/
def Obligations.VectorPackEqualsScalar : Prop :=
  ∀ q : Quad, vectorPack (controlByte q) q =
    groupBytes q ++ List.replicate (16 - totalLength (controlByte q)) 0

/-- R118: the vectorized unpack of any 16 bytes equals the group decode, which reads only the group's own bytes. -/
def Obligations.VectorUnpackEqualsScalar : Prop :=
  ∀ (c : Byte) (bytes rest : List Byte), bytes.length = 16 →
    vectorUnpack c bytes = decodeGroup c bytes ∧
    decodeGroup c (bytes.take (totalLength c) ++ rest) = decodeGroup c bytes

/-- R119, R120: the lane-wise prefix sum and the lane-wise delta equal the scalar ones. -/
def Obligations.VectorDeltaEqualsScalar : Prop :=
  ∀ (prev : Word) (x : Quad), vectorPrefix prev x = prefixQuad prev x ∧ vectorDelta prev x = deltaQuad prev x

/-- R110, R111, R112, R113: decoding the packed bytes of a group gives the group back, whatever follows them; and the prefix sum undoes the
deltas, for every sequence and every `prev`, leaving the same next `prev`. -/
def Obligations.GroupAndDeltaRoundTrip : Prop :=
  (∀ (q : Quad) (rest : List Byte), decodeGroup (controlByte q) (groupBytes q ++ rest) = q) ∧
  (∀ (prev : Word) (vs : List Word), prefixes prev (deltas prev vs) = vs ∧ deltas prev (prefixes prev vs) = vs) ∧
  (∀ (prev : Word) (b : Bank), prefixBank prev (deltaBank prev b) = b)

/-- R77: the length of a stream, and its bounds. -/
def Obligations.StreamLength : Prop :=
  ∀ w : List Word,
    (encodeStream w).length = (w.length + 3) / 4 + (w.map lc).sum ∧
    (w.length + 3) / 4 + w.length ≤ (encodeStream w).length ∧
    (encodeStream w).length ≤ (w.length + 3) / 4 + 4 * w.length

/-- R135: the round trip, plain and delta, for every sequence and every `prev`; the whole stream is consumed, and what follows it in the
input window does not matter. -/
def Obligations.StreamRoundTrip : Prop :=
  ∀ (v : List Word) (prev : Word) (rest : List Byte),
    decodeStream v.length (encodeStream v ++ rest) = (v, (encodeStream v).length) ∧
    prefixes prev (decodeStream v.length (encodeStream (deltas prev v) ++ rest)).1 = v ∧
    (decodeStream v.length (encodeStream (deltas prev v))).2 = (encodeStream (deltas prev v)).length

/-! ### The memory accesses of the stream commands -/

/-- R136, R137: the tiers cover the `n` values exactly; every bulk step leaves at least 12; the partial group is last, of 1 to 3 values. -/
def Obligations.TierScheduleCovers : Prop :=
  ∀ (accel : Bool) (n : Nat),
    ((tierSchedule accel n).map (tierCount accel)).sum = n ∧
    (∀ pre post, tierSchedule accel n = pre ++ .bulk :: post → 12 ≤ (post.map (tierCount accel)).sum) ∧
    (∀ pre post r, tierSchedule accel n = pre ++ .partialGroup r :: post → post = [] ∧ 1 ≤ r ∧ r ≤ 3) ∧
    (∀ pre post, tierSchedule accel n = pre ++ .full :: post →
      (post.map (tierCount accel)).sum + 4 < (if accel then 32 else 16) + 12)

/-- R136, R138 to R140, R145, R8: performing the encoder's accesses, in either mode, leaves exactly the stream in memory. The
order and the sizes of the accesses are the model's choice (log 11). -/
def Obligations.EncoderAccessesWriteStream : Prop :=
  ∀ (accel delta : Bool) (prev : Word) (src dst : Nat) (vs : List Word) (m : Memory) (a : Nat),
    (m.replay (encoderTrace accel delta prev src dst vs)).read a =
      (m.writeBytes dst (encodeStream (if delta then deltas prev vs else vs))).read a

/-- R136, R141, R142, R145, R8: performing the decoder's accesses, in either mode, leaves exactly the decoded values in memory.
The order and the sizes of the accesses are the model's choice (log 11). -/
def Obligations.DecoderAccessesWriteValues : Prop :=
  ∀ (accel delta : Bool) (prev : Word) (src dst n : Nat) (m : Memory) (a : Nat),
    let need := (n + 3) / 4 + dataLen (m.readBytes src ((n + 3) / 4)) n
    let xs := (decodeStream n (m.readBytes src need)).1
    (m.replay (decoderTrace accel delta prev (fun x => m.read x) src dst n)).read a =
      (m.writeBytes dst (bytesOfWords (if delta then prefixes prev xs else xs))).read a

/-- R138, R144, R145: every access of the encoder is of 1 to 16 bytes, reads inside the value array and writes inside the stream, the
16-byte stores of the Accelerated mode included. -/
def Obligations.EncoderAccessesInFootprint : Prop :=
  ∀ (accel delta : Bool) (prev : Word) (src dst : Nat) (vs : List Word),
    let len := (encodeStream (if delta then deltas prev vs else vs)).length
    ∀ x ∈ encoderTrace accel delta prev src dst vs,
      (∀ a n, x = .read a n → 1 ≤ n ∧ n ≤ 16 ∧ src ≤ a ∧ a + n ≤ src + 4 * vs.length) ∧
      (∀ a bs, x = .write a bs → 1 ≤ bs.length ∧ bs.length ≤ 16 ∧ dst ≤ a ∧ a + bs.length ≤ dst + len)

/-- R141, R143, R144, R145: the decoder's pre-pass makes no write and reads only control bytes, `[SRC_ADDR, SRC_ADDR + G)`, each of them; every
access of its main pass is of 1 to 16 bytes, reads inside the stream and writes inside the value array, whatever the bytes of the stream: no 16-byte load of the Accelerated mode reaches past the stream's end. -/
def Obligations.DecoderAccessesInFootprint : Prop :=
  ∀ (accel delta : Bool) (prev : Word) (view : Nat → Byte) (src dst n : Nat),
    let need := (n + 3) / 4 + dataLen (viewBytes view src ((n + 3) / 4)) n
    (∀ x ∈ prepassTrace src ((n + 3) / 4), ∃ a, x = .read a 1 ∧ src ≤ a ∧ a < src + (n + 3) / 4) ∧
    (∀ a, src ≤ a → a < src + (n + 3) / 4 → .read a 1 ∈ prepassTrace src ((n + 3) / 4)) ∧
    ∀ x ∈ decoderTrace accel delta prev view src dst n,
      (∀ a k, x = .read a k → 1 ≤ k ∧ k ≤ 16 ∧ src ≤ a ∧ a + k ≤ src + need) ∧
      (∀ a bs, x = .write a bs → 1 ≤ bs.length ∧ bs.length ≤ 16 ∧ dst ≤ a ∧ a + bs.length ≤ dst + 4 * n)

/-! ### Invariants -/

/-- Every step keeps the invariant of Safety.lean: canonical memory, the `STATUS` invariants of R23, the engine in step with the CSRs (R41,
R43), `MODE` equal to `CAPS` (R20), `PACK_LEN` at most 32 (R31), the reserved bits of `LENS` zero (R35). -/
def Obligations.StepKeepsWf : Prop :=
  ∀ s t : State, s.Wf → step s = .next t → t.Wf

/-- The invariant holds after reset. -/
def Obligations.ResetIsWf : Prop := State.reset.Wf
end

