-- ==== Sys2Proof/Laws/Codec.lean ====
section
/-! SUPPORT. Lengths and fields of the codec's functions. -/

namespace Sys2Proof.Machine

@[simp] theorem lebytes_length (v : Word) (n : Nat) : (lebytes v n).length = n := by simp [lebytes]

@[simp] theorem laneBytes_length (q : Quad) : (laneBytes q).length = 16 := by
  simp [laneBytes, bytesOfWords, Quad.toList]

@[simp] theorem packBytes_length (b : Bank) : (packBytes b).length = 32 := by
  simp [packBytes, bytesOfWords, Bank.toList, Quad.toList]

theorem bytesOfWords_length (ws : List Word) : (bytesOfWords ws).length = 4 * ws.length := by
  induction ws with
  | nil => rfl
  | cons w ws ih =>
    have : bytesOfWords (w :: ws) = lebytes w 4 ++ bytesOfWords ws := rfl
    rw [this, List.length_append, ih, lebytes_length, List.length_cons]; omega

theorem wordsOf_length (n : Nat) (bs : List Byte) (h : bs.length = 4 * n) : (wordsOf bs).length = n := by
  induction n generalizing bs with
  | zero => rw [List.eq_nil_of_length_eq_zero (by omega : bs.length = 0)]; rfl
  | succ n ih =>
    match bs, h with
    | b0 :: b1 :: b2 :: b3 :: rest, h =>
      have hr : rest.length = 4 * n := by simp only [List.length_cons] at h; omega
      simp [wordsOf, ih rest hr]

theorem lc_bounds (v : Word) : 1 ≤ lc v ∧ lc v ≤ 4 := by
  unfold lc; split
  · omega
  · split
    · omega
    · split <;> omega

theorem fieldLen_bounds (c : Byte) (i : Nat) : 1 ≤ fieldLen c i ∧ fieldLen c i ≤ 4 := by
  have := (c.extractLsb' (2 * i) 2).isLt
  unfold fieldLen; omega

/-- The offsets of a control byte's fields, written out. -/
theorem fieldOffset_eq (c : Byte) :
    fieldOffset c 0 = 0 ∧ fieldOffset c 1 = fieldLen c 0 ∧ fieldOffset c 2 = fieldLen c 0 + fieldLen c 1 ∧
    fieldOffset c 3 = fieldLen c 0 + fieldLen c 1 + fieldLen c 2 ∧
    fieldOffset c 4 = fieldLen c 0 + fieldLen c 1 + fieldLen c 2 + fieldLen c 3 := by
  simp [fieldOffset]

theorem totalLength_eq (c : Byte) :
    totalLength c = fieldLen c 0 + fieldLen c 1 + fieldLen c 2 + fieldLen c 3 := (fieldOffset_eq c).2.2.2.2

theorem totalLength_bounds (c : Byte) : 4 ≤ totalLength c ∧ totalLength c ≤ 16 := by
  have h := fieldLen_bounds c
  have := h 0; have := h 1; have := h 2; have := h 3
  rw [totalLength_eq]; omega

/-- The fields of a byte assembled from four 2-bit numbers. -/
theorem fieldLen_assemble : ∀ a b c d : Fin 4,
    let x := BitVec.ofNat 8 (a.val + b.val * 2 ^ 2 + c.val * 2 ^ 4 + d.val * 2 ^ 6)
    fieldLen x 0 = a.val + 1 ∧ fieldLen x 1 = b.val + 1 ∧ fieldLen x 2 = c.val + 1 ∧ fieldLen x 3 = d.val + 1 := by
  decide

/-- The lengths a control byte declares are the length classes of its values (R73, R98). -/
theorem fieldLen_controlByte (q : Quad) :
    fieldLen (controlByte q) 0 = lc q.q0 ∧ fieldLen (controlByte q) 1 = lc q.q1 ∧ fieldLen (controlByte q) 2 = lc q.q2 ∧
      fieldLen (controlByte q) 3 = lc q.q3 := by
  have h0 := lc_bounds q.q0; have h1 := lc_bounds q.q1; have h2 := lc_bounds q.q2; have h3 := lc_bounds q.q3
  obtain ⟨e0, e1, e2, e3⟩ := fieldLen_assemble ⟨lc q.q0 - 1, by omega⟩ ⟨lc q.q1 - 1, by omega⟩ ⟨lc q.q2 - 1, by omega⟩
    ⟨lc q.q3 - 1, by omega⟩
  exact ⟨e0.trans (by simp only; omega), e1.trans (by simp only; omega), e2.trans (by simp only; omega),
    e3.trans (by simp only; omega)⟩

theorem totalLength_controlByte (q : Quad) :
    totalLength (controlByte q) = lc q.q0 + lc q.q1 + lc q.q2 + lc q.q3 := by
  obtain ⟨e0, e1, e2, e3⟩ := fieldLen_controlByte q
  rw [totalLength_eq, e0, e1, e2, e3]

/-- `t = |bytes| = totalLength(c)` (R110). -/
theorem groupBytes_length (q : Quad) : (groupBytes q).length = totalLength (controlByte q) := by
  rw [totalLength_controlByte]; simp [groupBytes]; omega

@[simp] theorem ctrlLo_ctrlJoin (a b : Byte) : ctrlLo (ctrlJoin a b) = a := by
  ext i hi
  have h := BitVec.getLsbD_append (x := b) (y := a) (i := i)
  rw [ctrlLo, BitVec.getElem_extractLsb', Nat.zero_add]
  exact h.trans (by simp [hi])

@[simp] theorem ctrlHi_ctrlJoin (a b : Byte) : ctrlHi (ctrlJoin a b) = b := by
  ext i hi
  have h := BitVec.getLsbD_append (x := b) (y := a) (i := 8 + i)
  rw [ctrlHi, BitVec.getElem_extractLsb']
  exact h.trans (by simp [BitVec.getLsbD_eq_getElem hi])

/-- `group_pack_unit` for each of its two selectors (R115). -/
theorem groupPack_four (delta : Bool) (prev : Word) (v : Bank) :
    groupPack false delta prev v =
      let x := if delta then deltaQuad prev v.lo else v.lo
      { ctrl := ctrlJoin (controlByte x) 0, bytes := groupBytes x, last := v.lo.q3 } := by
  cases delta <;> rfl

theorem groupPack_eight (delta : Bool) (prev : Word) (v : Bank) :
    groupPack true delta prev v =
      let x := if delta then deltaBank prev v else v
      { ctrl := ctrlJoin (controlByte x.lo) (controlByte x.hi), bytes := groupBytes x.lo ++ groupBytes x.hi, last := v.hi.q3 } := by
  cases delta <;> rfl

/-- The control bytes of a stream give its values, four to a byte and the rest to the last. -/
theorem decodeChunks_length (ctrls : List Byte) (n : Nat) (data : List Byte) :
    (decodeChunks ctrls n data).length = min n (4 * ctrls.length) := by
  induction ctrls generalizing n data with
  | nil => simp [decodeChunks]
  | cons c cs ih => simp [decodeChunks, ih, Quad.toList]; omega

theorem prefixes_length (prev : Word) (ds : List Word) : (prefixes prev ds).length = ds.length := by
  induction ds generalizing prev with
  | nil => rfl
  | cons d ds ih => simp [prefixes, ih]

theorem streamValues_length (delta : Bool) (prev : Word) (xs : List Word) : (streamValues delta prev xs).length = xs.length := by
  cases delta
  · rfl
  · exact prefixes_length prev xs

theorem viewBytes_getElem? (view : Nat → Byte) (a n k : Nat) (h : k < n) : (viewBytes view a n)[k]? = some (view (a + k)) := by
  simp [viewBytes, h]

end Sys2Proof.Machine
end

