-- ==== Sys2Proof/Laws/Memory.lean ====
section
/-! SUPPORT. Memory: a read after a write, and the canonical form, which every memory operation keeps. -/

namespace Sys2Proof.Machine

@[simp] theorem Memory.read_nil (a : Nat) : Memory.read [] a = Config.unlistedByte := rfl

@[simp] theorem Memory.read_cons (k : Nat) (v : Byte) (m : Memory) (a : Nat) :
    Memory.read ((k, v) :: m) a = if k = a then v else Memory.read m a := rfl

theorem Memory.read_erase (m : Memory) (a a' : Nat) :
    (Memory.erase m a).read a' = if a' = a then Config.unlistedByte else m.read a' := by
  induction m with
  | nil => simp [Memory.erase]
  | cons c m ih =>
    obtain ⟨k, v⟩ := c
    by_cases hk : k = a
    · subst hk
      have : Memory.erase ((k, v) :: m) k = Memory.erase m k := by simp [Memory.erase]
      rw [this, ih]
      by_cases h : a' = k
      · simp [h]
      · simp [h, Ne.symm h]
    · have : Memory.erase ((k, v) :: m) a = (k, v) :: Memory.erase m a := by simp [Memory.erase, hk]
      rw [this, Memory.read_cons, Memory.read_cons, ih]
      by_cases h : a' = a
      · subst h; simp [hk]
      · simp [h]

theorem Memory.read_insert (m : Memory) (a : Nat) (b : Byte) (a' : Nat) :
    (Memory.insert m a b).read a' = if a' = a then b else m.read a' := by
  induction m with
  | nil => simp [Memory.insert, eq_comm]
  | cons c m ih =>
    obtain ⟨k, v⟩ := c
    simp only [Memory.insert]
    split
    · simp [eq_comm]
    · split
      · next h =>
        subst h
        by_cases h' : a' = a
        · simp [h']
        · have h'' : ¬ a = a' := fun e => h' e.symm
          simp [h', h'']
      · next h1 h2 =>
        rw [Memory.read_cons, ih, Memory.read_cons]
        by_cases h' : a' = a
        · subst h'; simp [Ne.symm h2]
        · simp [h']

/-- A read after a write of one byte, at any address of any memory. -/
theorem Memory.read_write (m : Memory) (a : Nat) (b : Byte) (a' : Nat) :
    (m.write a b).read a' = if a' = a then b else m.read a' := by
  unfold Memory.write
  split
  · next h => rw [Memory.read_erase, h]
  · rw [Memory.read_insert]

@[simp] theorem Memory.writeBytes_nil (m : Memory) (a : Nat) : m.writeBytes a [] = m := rfl

@[simp] theorem Memory.writeBytes_cons (m : Memory) (a : Nat) (b : Byte) (bs : List Byte) :
    m.writeBytes a (b :: bs) = (m.write a b).writeBytes (a + 1) bs := rfl

/-- A read after a write of a byte sequence: inside it the sequence's byte, outside it what memory held. -/
theorem Memory.read_writeBytes (m : Memory) (a : Nat) (bs : List Byte) (a' : Nat) :
    (m.writeBytes a bs).read a' = if a ≤ a' ∧ a' < a + bs.length then bs.getD (a' - a) 0 else m.read a' := by
  induction bs generalizing m a with
  | nil =>
    have h : ¬ (a ≤ a' ∧ a' < a + ([] : List Byte).length) := by simp
    rw [if_neg h, Memory.writeBytes_nil]
  | cons b bs ih =>
    rw [Memory.writeBytes_cons, ih, Memory.read_write]
    rcases Nat.lt_trichotomy a' a with h | h | h
    · rw [if_neg (by omega), if_neg (by omega), if_neg (by simp; omega)]
    · subst h; simp
    · by_cases h2 : a' < a + 1 + bs.length
      · rw [if_pos (by omega), if_pos (by simp; omega)]
        obtain ⟨d, hd⟩ : ∃ d, a' - a = d + 1 := ⟨a' - a - 1, by omega⟩
        rw [hd, show a' - (a + 1) = d by omega]; simp
      · rw [if_neg (by omega), if_neg (by omega), if_neg (by simp; omega)]

theorem Memory.readBytes_length (m : Memory) (a n : Nat) : (m.readBytes a n).length = n := by
  simp [Memory.readBytes, viewBytes]

theorem viewBytes_length (f : Nat → Byte) (a n : Nat) : (viewBytes f a n).length = n := by simp [viewBytes]

/-- The canonical form through its tail. -/
theorem Memory.wf_cons (k : Nat) (v : Byte) (m : Memory) :
    Memory.wf ((k, v) :: m) = true ↔ v ≠ Config.unlistedByte ∧ (∀ c ∈ m, k < c.1) ∧ Memory.wf m = true := by
  induction m generalizing k v with
  | nil => simp [Memory.wf]
  | cons c m ih =>
    obtain ⟨k', v'⟩ := c
    have key : Memory.wf ((k, v) :: (k', v') :: m) = true ↔
        v ≠ Config.unlistedByte ∧ k < k' ∧ Memory.wf ((k', v') :: m) = true := by
      simp [Memory.wf, and_assoc]
    rw [key]
    constructor
    · rintro ⟨h1, h2, h3⟩
      refine ⟨h1, ?_, h3⟩
      have := ((ih k' v').1 h3).2.1
      intro c hc
      rcases List.mem_cons.1 hc with rfl | hc
      · exact h2
      · exact lt_trans h2 (this c hc)
    · rintro ⟨h1, h2, h3⟩
      exact ⟨h1, h2 _ (List.mem_cons_self ..), h3⟩

theorem Memory.erase_wf (m : Memory) (a : Nat) (h : Memory.wf m = true) : Memory.wf (Memory.erase m a) = true := by
  induction m with
  | nil => exact h
  | cons c m ih =>
    obtain ⟨k, v⟩ := c
    obtain ⟨h1, h2, h3⟩ := (Memory.wf_cons k v m).1 h
    by_cases hk : k = a
    · have : Memory.erase ((k, v) :: m) a = Memory.erase m a := by simp [Memory.erase, hk]
      rw [this]; exact ih h3
    · have : Memory.erase ((k, v) :: m) a = (k, v) :: Memory.erase m a := by simp [Memory.erase, hk]
      rw [this, Memory.wf_cons]
      exact ⟨h1, fun c hc => h2 c (List.mem_of_mem_filter hc), ih h3⟩

theorem Memory.mem_insert (m : Memory) (a : Nat) (b : Byte) (c : Host.Cell) (h : c ∈ Memory.insert m a b) :
    c = (a, b) ∨ c ∈ m := by
  induction m with
  | nil => simpa [Memory.insert] using h
  | cons d m ih =>
    obtain ⟨k, v⟩ := d
    simp only [Memory.insert] at h
    split at h
    · simpa using h
    · split at h
      · rcases List.mem_cons.1 h with h | h
        · exact .inl h
        · exact .inr (List.mem_cons_of_mem _ h)
      · rcases List.mem_cons.1 h with h | h
        · exact .inr (h ▸ List.mem_cons_self ..)
        · exact (ih h).imp_right (List.mem_cons_of_mem _)

theorem Memory.insert_wf (m : Memory) (a : Nat) (b : Byte) (hb : b ≠ Config.unlistedByte) (h : Memory.wf m = true) :
    Memory.wf (Memory.insert m a b) = true := by
  induction m with
  | nil => simpa [Memory.insert, Memory.wf] using hb
  | cons d m ih =>
    obtain ⟨k, v⟩ := d
    obtain ⟨h1, h2, h3⟩ := (Memory.wf_cons k v m).1 h
    simp only [Memory.insert]
    split
    · next hlt =>
      rw [Memory.wf_cons]
      refine ⟨hb, fun c hc => ?_, h⟩
      rcases List.mem_cons.1 hc with rfl | hc
      · exact hlt
      · exact lt_trans hlt (h2 c hc)
    · split
      · next heq => subst heq; rw [Memory.wf_cons]; exact ⟨hb, h2, h3⟩
      · next hlt hne =>
        rw [Memory.wf_cons]
        refine ⟨h1, fun c hc => ?_, ih h3⟩
        rcases Memory.mem_insert m a b c hc with rfl | hc
        · simp only; omega
        · exact h2 c hc

/-- Writing a byte keeps the canonical form. -/
theorem Memory.write_wf (m : Memory) (a : Nat) (b : Byte) (h : Memory.wf m = true) : Memory.wf (m.write a b) = true := by
  unfold Memory.write
  split
  · exact Memory.erase_wf m a h
  · next hb => exact Memory.insert_wf m a b hb h

/-- Writing a byte sequence keeps the canonical form. -/
theorem Memory.writeBytes_wf (m : Memory) (a : Nat) (bs : List Byte) (h : Memory.wf m = true) :
    Memory.wf (m.writeBytes a bs) = true := by
  induction bs generalizing m a with
  | nil => exact h
  | cons b bs ih => exact ih _ _ (Memory.write_wf m a b h)

@[simp] theorem Memory.writeVia_nil (m : Memory) (ms : Mirrors) (a : Nat) : m.writeVia ms a [] = m := rfl

@[simp] theorem Memory.writeVia_cons (m : Memory) (ms : Mirrors) (a : Nat) (b : Byte) (bs : List Byte) :
    m.writeVia ms a (b :: bs) = (m.write (cellOf ms a) b).writeVia ms (a + 1) bs := rfl

/-- Without mirrors, addresses are places in memory. -/
theorem Memory.writeVia_no_mirror (m : Memory) (a : Nat) (bs : List Byte) : m.writeVia [] a bs = m.writeBytes a bs := by
  induction bs generalizing m a with
  | nil => rfl
  | cons b bs ih => exact ih _ _

/-- A place in memory after a write through mirrors: one of the bytes written to an address that reaches it, or, where there is none, what
memory held. -/
theorem Memory.read_writeVia (m : Memory) (ms : Mirrors) (a : Nat) (bs : List Byte) (c : Nat) :
    (∃ k v, bs[k]? = some v ∧ cellOf ms (a + k) = c ∧ (m.writeVia ms a bs).read c = v) ∨
      ((∀ k < bs.length, cellOf ms (a + k) ≠ c) ∧ (m.writeVia ms a bs).read c = m.read c) := by
  induction bs generalizing m a with
  | nil => exact .inr ⟨fun k hk => absurd hk (Nat.not_lt_zero k), rfl⟩
  | cons b bs ih =>
    rw [Memory.writeVia_cons]
    rcases ih (m.write (cellOf ms a) b) (a + 1) with ⟨k, v, hv, hc, hr⟩ | ⟨hn, hr⟩
    · exact .inl ⟨k + 1, v, hv, by rw [← hc]; congr 1; omega, hr⟩
    · rw [hr, Memory.read_write]
      by_cases h : cellOf ms a = c
      · exact .inl ⟨0, b, rfl, h, if_pos h.symm⟩
      · refine .inr ⟨fun k hk => ?_, if_neg (Ne.symm h)⟩
        cases k with
        | zero => exact h
        | succ k =>
          have := hn k (by simpa using hk)
          rwa [show a + 1 + k = a + (k + 1) by omega] at this

/-- A write through mirrors reads back at its addresses where no two of them reach one place. -/
theorem Memory.read_writeVia_of_separate (m : Memory) (ms : Mirrors) (a : Nat) (bs : List Byte) (k : Nat) (v : Byte)
    (hs : ∀ i j, i < bs.length → j < bs.length → i ≠ j → cellOf ms (a + i) ≠ cellOf ms (a + j)) (hv : bs[k]? = some v) :
    (m.writeVia ms a bs).read (cellOf ms (a + k)) = v := by
  have hk : k < bs.length := (List.getElem?_eq_some_iff.mp hv).1
  rcases Memory.read_writeVia m ms a bs (cellOf ms (a + k)) with ⟨j, w, hw, hc, hr⟩ | ⟨hn, _⟩
  · have hj : j < bs.length := (List.getElem?_eq_some_iff.mp hw).1
    by_cases e : j = k
    · rw [hr]; subst e; rw [hw] at hv; exact Option.some.inj hv
    · exact absurd hc (hs j k hj hk e)
  · exact absurd rfl (hn k hk)

/-- Writing through mirrors keeps the canonical form. -/
theorem Memory.writeVia_wf (m : Memory) (ms : Mirrors) (a : Nat) (bs : List Byte) (h : Memory.wf m = true) :
    Memory.wf (m.writeVia ms a bs) = true := by
  induction bs generalizing m a with
  | nil => exact h
  | cons b bs ih => exact ih _ _ (Memory.write_wf m _ b h)

@[simp] theorem cellOf_no_mirror (a : Nat) : cellOf [] a = a := rfl

/-- An address that no mirror lists reaches the place of its own number. -/
theorem cellOf_of_not_listed (ms : Mirrors) (a : Nat) (h : a ∉ ms.map Prod.fst) : cellOf ms a = a := by
  induction ms with
  | nil => rfl
  | cons p ms ih =>
    obtain ⟨x, c⟩ := p
    simp only [List.map_cons, List.mem_cons, not_or] at h
    rw [cellOf, if_neg (Ne.symm h.1), ih h.2]

/-- The aliases of an address are exactly the addresses that reach its place. -/
theorem mem_aliases (ms : Mirrors) (a b : Nat) : b ∈ aliases ms a ↔ cellOf ms b = cellOf ms a := by
  unfold aliases
  rw [List.mem_filter, beq_iff_eq]
  refine ⟨fun h => h.2, fun h => ⟨?_, h⟩⟩
  by_cases hl : b ∈ ms.map Prod.fst
  · exact List.mem_cons_of_mem _ (List.mem_cons_of_mem _ hl)
  · rw [cellOf_of_not_listed ms b hl] at h
    rw [h]; exact List.mem_cons_of_mem _ List.mem_cons_self

/-- The windows share memory exactly when an address of the input window and another of the output window reach the same place. -/
theorem windowsShare_eq_false (o : Operands) (ms : Mirrors) :
    o.windowsShare ms = false ↔ ∀ x y, o.inWindow .input x = true → o.inWindow .output y = true → x ≠ y → cellOf ms x ≠ cellOf ms y := by
  rw [← Bool.not_eq_true]
  unfold Operands.windowsShare
  simp only [List.any_eq_true, Bool.and_eq_true, bne_iff_ne, mem_aliases]
  constructor
  · intro h x y hx hy hne hc
    have key : ∃ p ∈ ms, cellOf ms x = cellOf ms p.1 := by
      by_cases hl : x ∈ ms.map Prod.fst
      · obtain ⟨p, hp, rfl⟩ := List.mem_map.mp hl; exact ⟨p, hp, rfl⟩
      · by_cases hl' : y ∈ ms.map Prod.fst
        · obtain ⟨p, hp, rfl⟩ := List.mem_map.mp hl'; exact ⟨p, hp, hc⟩
        · rw [cellOf_of_not_listed ms x hl, cellOf_of_not_listed ms y hl'] at hc; exact absurd hc hne
    obtain ⟨p, hp, hxp⟩ := key
    exact h ⟨p, hp, x, hxp, hx, y, hc ▸ hxp, hne.symm, hy⟩
  · rintro h ⟨p, _, x, hxp, hx, y, hyp, hne, hy⟩
    exact h x y hx hy hne.symm (hxp.trans hyp.symm)

/-- A list of numbers has two different members exactly when one differs from its head. -/
theorem any_ne_head (l : List Nat) : (l.any fun x => x != l.headD 0) = false ↔ ∀ x ∈ l, ∀ y ∈ l, x = y := by
  cases l with
  | nil => simp
  | cons h t =>
    simp only [List.headD_cons, List.any_eq_false, bne_iff_ne, ne_eq, not_not]
    exact ⟨fun e x hx y hy => (e x hx).trans (e y hy).symm, fun e x hx => e x hx h List.mem_cons_self⟩

theorem heldTwice_eq_false (ms : Mirrors) (base len a : Nat) :
    heldTwice ms base len a = false ↔
      ∀ i j, i < len → j < len → cellOf ms (base + i) = cellOf ms a → cellOf ms (base + j) = cellOf ms a → i = j := by
  unfold heldTwice
  rw [any_ne_head]
  simp only [List.mem_filter, mem_aliases, decide_eq_true_eq]
  constructor
  · intro h i j hi hj ci cj
    have := h (base + i) ⟨ci, by omega⟩ (base + j) ⟨cj, by omega⟩
    omega
  · intro h x hx y hy
    have := h (x - base) (y - base) (by omega) (by omega) (by rw [show base + (x - base) = x by omega]; exact hx.1)
      (by rw [show base + (y - base) = y by omega]; exact hy.1)
    omega

@[simp] theorem eachByte_length (f : Nat → Byte → Byte) (a : Nat) (bs : List Byte) : (eachByte f a bs).length = bs.length := by
  induction bs generalizing a with
  | nil => rfl
  | cons b bs ih => simp [eachByte, ih]

theorem eachByte_getElem? (f : Nat → Byte → Byte) (a : Nat) (bs : List Byte) (k : Nat) :
    (eachByte f a bs)[k]? = (bs[k]?).map (f (a + k)) := by
  induction bs generalizing a k with
  | nil => rfl
  | cons b bs ih =>
    cases k with
    | zero => rfl
    | succ k => simp [eachByte, ih, Nat.add_assoc, Nat.add_comm 1 k]

/-- A change that leaves each byte of the sequence leaves the sequence. -/
theorem eachByte_id (f : Nat → Byte → Byte) (a : Nat) (bs : List Byte) (h : ∀ k < bs.length, ∀ b, f (a + k) b = b) :
    eachByte f a bs = bs := by
  induction bs generalizing a with
  | nil => rfl
  | cons b bs ih =>
    rw [eachByte, show f a b = b from h 0 (by simp) b, ih (a + 1) fun k hk c => by
      rw [show a + 1 + k = a + (k + 1) by omega]; exact h (k + 1) (by simpa using hk) c]

/-- Performing an access sequence keeps the canonical form. -/
theorem Memory.replay_wf (m : Memory) (as : List Access) (h : Memory.wf m = true) : Memory.wf (m.replay as) = true := by
  induction as generalizing m with
  | nil => exact h
  | cons a as ih =>
    cases a with
    | read x n => exact ih m h
    | write x bs => exact ih _ (Memory.writeBytes_wf m x bs h)

end Sys2Proof.Machine
end

