-- ==== Sys2Proof/Laws/State.lean ====
section
/-! SUPPORT. One lemma per field per update of the state, so that no later proof unfolds a record update. -/

namespace Sys2Proof.Machine

@[simp] theorem accept_accelPresent (w : Word) (s : State) : (accept w s).accelPresent = s.accelPresent := rfl
@[simp] theorem accept_modeAccel (w : Word) (s : State) : (accept w s).modeAccel = s.modeAccel := rfl
@[simp] theorem accept_cmd (w : Word) (s : State) : (accept w s).cmd = w := rfl
@[simp] theorem accept_status (w : Word) (s : State) : (accept w s).status = s.status.accepted := rfl
@[simp] theorem accept_doneEn (w : Word) (s : State) : (accept w s).doneEn = s.doneEn := rfl
@[simp] theorem accept_ops (w : Word) (s : State) : (accept w s).ops = s.ops := rfl
@[simp] theorem accept_resultLen (w : Word) (s : State) : (accept w s).resultLen = s.resultLen := rfl
@[simp] theorem accept_lens (w : Word) (s : State) : (accept w s).lens = s.lens := rfl
@[simp] theorem accept_lensHi (w : Word) (s : State) : (accept w s).lensHi = s.lensHi := rfl
@[simp] theorem accept_engine (w : Word) (s : State) : (accept w s).engine = .busy w s.ops none := rfl
@[simp] theorem accept_mem (w : Word) (s : State) : (accept w s).mem = s.mem := rfl
@[simp] theorem accept_csrRdata (w : Word) (s : State) : (accept w s).csrRdata = s.csrRdata := rfl
@[simp] theorem accept_hostRdata (w : Word) (s : State) : (accept w s).hostRdata = s.hostRdata := rfl
@[simp] theorem accept_mirrors (w : Word) (s : State) : (accept w s).mirrors = s.mirrors := rfl
@[simp] theorem accept_memFaults (w : Word) (s : State) : (accept w s).memFaults = s.memFaults := rfl
@[simp] theorem accept_memErrs (w : Word) (s : State) : (accept w s).memErrs = s.memErrs := rfl
@[simp] theorem accept_turns (w : Word) (s : State) : (accept w s).turns = s.turns := rfl
@[simp] theorem accept_free (w : Word) (s : State) : (accept w s).free = s.free := rfl

@[simp] theorem finish_accelPresent (s : State) : (finish s).accelPresent = s.accelPresent := rfl
@[simp] theorem finish_modeAccel (s : State) : (finish s).modeAccel = s.modeAccel := rfl
@[simp] theorem finish_cmd (s : State) : (finish s).cmd = s.cmd := rfl
@[simp] theorem finish_status (s : State) : (finish s).status = s.status.completed := rfl
@[simp] theorem finish_doneEn (s : State) : (finish s).doneEn = s.doneEn := rfl
@[simp] theorem finish_ops (s : State) : (finish s).ops = s.ops := rfl
@[simp] theorem finish_resultLen (s : State) : (finish s).resultLen = s.resultLen := rfl
@[simp] theorem finish_lens (s : State) : (finish s).lens = s.lens := rfl
@[simp] theorem finish_lensHi (s : State) : (finish s).lensHi = s.lensHi := rfl
@[simp] theorem finish_engine (s : State) : (finish s).engine = .idle := rfl
@[simp] theorem finish_mem (s : State) : (finish s).mem = s.mem := rfl
@[simp] theorem finish_csrRdata (s : State) : (finish s).csrRdata = s.csrRdata := rfl
@[simp] theorem finish_hostRdata (s : State) : (finish s).hostRdata = s.hostRdata := rfl
@[simp] theorem finish_mirrors (s : State) : (finish s).mirrors = s.mirrors := rfl
@[simp] theorem finish_memFaults (s : State) : (finish s).memFaults = s.memFaults := rfl
@[simp] theorem finish_memErrs (s : State) : (finish s).memErrs = s.memErrs := rfl
@[simp] theorem finish_turns (s : State) : (finish s).turns = s.turns := rfl
@[simp] theorem finish_free (s : State) : (finish s).free = s.free := rfl

@[simp] theorem raiseError_accelPresent (e : CmdError) (s : State) : (raiseError e s).accelPresent = s.accelPresent := rfl
@[simp] theorem raiseError_modeAccel (e : CmdError) (s : State) : (raiseError e s).modeAccel = s.modeAccel := rfl
@[simp] theorem raiseError_cmd (e : CmdError) (s : State) : (raiseError e s).cmd = s.cmd := rfl
@[simp] theorem raiseError_status (e : CmdError) (s : State) : (raiseError e s).status = s.status.failed e.code e.win := rfl
@[simp] theorem raiseError_doneEn (e : CmdError) (s : State) : (raiseError e s).doneEn = s.doneEn := rfl
@[simp] theorem raiseError_ops (e : CmdError) (s : State) : (raiseError e s).ops = s.ops := rfl
@[simp] theorem raiseError_lens (e : CmdError) (s : State) : (raiseError e s).lens = s.lens := rfl
@[simp] theorem raiseError_lensHi (e : CmdError) (s : State) : (raiseError e s).lensHi = s.lensHi := rfl
@[simp] theorem raiseError_engine (e : CmdError) (s : State) : (raiseError e s).engine = .idle := rfl
@[simp] theorem raiseError_mem (e : CmdError) (s : State) : (raiseError e s).mem = s.mem := rfl
@[simp] theorem raiseError_csrRdata (e : CmdError) (s : State) : (raiseError e s).csrRdata = s.csrRdata := rfl
@[simp] theorem raiseError_hostRdata (e : CmdError) (s : State) : (raiseError e s).hostRdata = s.hostRdata := rfl
@[simp] theorem raiseError_mirrors (e : CmdError) (s : State) : (raiseError e s).mirrors = s.mirrors := rfl
@[simp] theorem raiseError_memFaults (e : CmdError) (s : State) : (raiseError e s).memFaults = s.memFaults := rfl
@[simp] theorem raiseError_memErrs (e : CmdError) (s : State) : (raiseError e s).memErrs = s.memErrs := rfl
@[simp] theorem raiseError_turns (e : CmdError) (s : State) : (raiseError e s).turns = s.turns := rfl
@[simp] theorem raiseError_free (e : CmdError) (s : State) : (raiseError e s).free = s.free := rfl

@[simp] theorem acknowledge_accelPresent (w : Word) (s : State) : (acknowledge w s).accelPresent = s.accelPresent := rfl
@[simp] theorem acknowledge_modeAccel (w : Word) (s : State) : (acknowledge w s).modeAccel = s.modeAccel := rfl
@[simp] theorem acknowledge_cmd (w : Word) (s : State) : (acknowledge w s).cmd = s.cmd := rfl
@[simp] theorem acknowledge_status (w : Word) (s : State) : (acknowledge w s).status = s.status.hostWrite w := rfl
@[simp] theorem acknowledge_doneEn (w : Word) (s : State) : (acknowledge w s).doneEn = s.doneEn := rfl
@[simp] theorem acknowledge_ops (w : Word) (s : State) : (acknowledge w s).ops = s.ops := rfl
@[simp] theorem acknowledge_resultLen (w : Word) (s : State) : (acknowledge w s).resultLen = s.resultLen := rfl
@[simp] theorem acknowledge_lens (w : Word) (s : State) : (acknowledge w s).lens = s.lens := rfl
@[simp] theorem acknowledge_lensHi (w : Word) (s : State) : (acknowledge w s).lensHi = s.lensHi := rfl
@[simp] theorem acknowledge_engine (w : Word) (s : State) : (acknowledge w s).engine = s.engine := rfl
@[simp] theorem acknowledge_mem (w : Word) (s : State) : (acknowledge w s).mem = s.mem := rfl
@[simp] theorem acknowledge_csrRdata (w : Word) (s : State) : (acknowledge w s).csrRdata = s.csrRdata := rfl
@[simp] theorem acknowledge_hostRdata (w : Word) (s : State) : (acknowledge w s).hostRdata = s.hostRdata := rfl
@[simp] theorem acknowledge_mirrors (w : Word) (s : State) : (acknowledge w s).mirrors = s.mirrors := rfl
@[simp] theorem acknowledge_memFaults (w : Word) (s : State) : (acknowledge w s).memFaults = s.memFaults := rfl
@[simp] theorem acknowledge_memErrs (w : Word) (s : State) : (acknowledge w s).memErrs = s.memErrs := rfl
@[simp] theorem acknowledge_turns (w : Word) (s : State) : (acknowledge w s).turns = s.turns := rfl
@[simp] theorem acknowledge_free (w : Word) (s : State) : (acknowledge w s).free = s.free := rfl

@[simp] theorem disturbFootprint_accelPresent (z : Bool) (f : List Byte) (s : State) : (disturbFootprint z f s).accelPresent = s.accelPresent := rfl
@[simp] theorem disturbFootprint_modeAccel (z : Bool) (f : List Byte) (s : State) : (disturbFootprint z f s).modeAccel = s.modeAccel := rfl
@[simp] theorem disturbFootprint_cmd (z : Bool) (f : List Byte) (s : State) : (disturbFootprint z f s).cmd = s.cmd := rfl
@[simp] theorem disturbFootprint_status (z : Bool) (f : List Byte) (s : State) : (disturbFootprint z f s).status = s.status := rfl
@[simp] theorem disturbFootprint_doneEn (z : Bool) (f : List Byte) (s : State) : (disturbFootprint z f s).doneEn = s.doneEn := rfl
@[simp] theorem disturbFootprint_ops (z : Bool) (f : List Byte) (s : State) : (disturbFootprint z f s).ops = s.ops := rfl
@[simp] theorem disturbFootprint_resultLen (z : Bool) (f : List Byte) (s : State) : (disturbFootprint z f s).resultLen = s.resultLen := rfl
@[simp] theorem disturbFootprint_lens (z : Bool) (f : List Byte) (s : State) : (disturbFootprint z f s).lens = s.lens := rfl
@[simp] theorem disturbFootprint_lensHi (z : Bool) (f : List Byte) (s : State) : (disturbFootprint z f s).lensHi = s.lensHi := rfl
@[simp] theorem disturbFootprint_engine (z : Bool) (f : List Byte) (s : State) : (disturbFootprint z f s).engine = s.engine := rfl
@[simp] theorem disturbFootprint_mem (z : Bool) (f : List Byte) (s : State) : (disturbFootprint z f s).mem = s.mem.writeVia s.mirrors s.operands.dstAddr.toNat (eachByte (s.disturbedByte z f.length) s.operands.dstAddr.toNat f) := rfl
@[simp] theorem disturbFootprint_csrRdata (z : Bool) (f : List Byte) (s : State) : (disturbFootprint z f s).csrRdata = s.csrRdata := rfl
@[simp] theorem disturbFootprint_hostRdata (z : Bool) (f : List Byte) (s : State) : (disturbFootprint z f s).hostRdata = s.hostRdata := rfl
@[simp] theorem disturbFootprint_mirrors (z : Bool) (f : List Byte) (s : State) : (disturbFootprint z f s).mirrors = s.mirrors := rfl
@[simp] theorem disturbFootprint_memFaults (z : Bool) (f : List Byte) (s : State) : (disturbFootprint z f s).memFaults = s.memFaults := rfl
@[simp] theorem disturbFootprint_memErrs (z : Bool) (f : List Byte) (s : State) : (disturbFootprint z f s).memErrs = s.memErrs := rfl
@[simp] theorem disturbFootprint_turns (z : Bool) (f : List Byte) (s : State) : (disturbFootprint z f s).turns = s.turns := rfl
@[simp] theorem disturbFootprint_free (z : Bool) (f : List Byte) (s : State) : (disturbFootprint z f s).free = s.free + 1 := rfl

@[simp] theorem resetCsrs_accelPresent (s : State) : (resetCsrs s).accelPresent = s.accelPresent := rfl
@[simp] theorem resetCsrs_modeAccel (s : State) : (resetCsrs s).modeAccel = s.accelPresent := rfl
@[simp] theorem resetCsrs_cmd (s : State) : (resetCsrs s).cmd = 0 := rfl
@[simp] theorem resetCsrs_status (s : State) : (resetCsrs s).status = Status.reset := rfl
@[simp] theorem resetCsrs_doneEn (s : State) : (resetCsrs s).doneEn = false := rfl
@[simp] theorem resetCsrs_ops (s : State) : (resetCsrs s).ops = Operands.reset := rfl
@[simp] theorem resetCsrs_resultLen (s : State) : (resetCsrs s).resultLen = 0 := rfl
@[simp] theorem resetCsrs_lens (s : State) : (resetCsrs s).lens = 0 := rfl
@[simp] theorem resetCsrs_lensHi (s : State) : (resetCsrs s).lensHi = 0 := rfl
@[simp] theorem resetCsrs_engine (s : State) : (resetCsrs s).engine = .idle := rfl
@[simp] theorem resetCsrs_mem (s : State) : (resetCsrs s).mem = s.mem := rfl
@[simp] theorem resetCsrs_csrRdata (s : State) : (resetCsrs s).csrRdata = s.csrRdata := rfl
@[simp] theorem resetCsrs_hostRdata (s : State) : (resetCsrs s).hostRdata = s.hostRdata := rfl
@[simp] theorem resetCsrs_mirrors (s : State) : (resetCsrs s).mirrors = s.mirrors := rfl
@[simp] theorem resetCsrs_memFaults (s : State) : (resetCsrs s).memFaults = s.memFaults := rfl
@[simp] theorem resetCsrs_memErrs (s : State) : (resetCsrs s).memErrs = s.memErrs := rfl
@[simp] theorem resetCsrs_turns (s : State) : (resetCsrs s).turns = s.turns := rfl
@[simp] theorem resetCsrs_free (s : State) : (resetCsrs s).free = s.free := rfl

@[simp] theorem hostMemWrite_accelPresent (a : Word) (b : Byte) (s : State) : (hostMemWrite a b s).accelPresent = s.accelPresent := rfl
@[simp] theorem hostMemWrite_modeAccel (a : Word) (b : Byte) (s : State) : (hostMemWrite a b s).modeAccel = s.modeAccel := rfl
@[simp] theorem hostMemWrite_cmd (a : Word) (b : Byte) (s : State) : (hostMemWrite a b s).cmd = s.cmd := rfl
@[simp] theorem hostMemWrite_status (a : Word) (b : Byte) (s : State) : (hostMemWrite a b s).status = s.status := rfl
@[simp] theorem hostMemWrite_doneEn (a : Word) (b : Byte) (s : State) : (hostMemWrite a b s).doneEn = s.doneEn := rfl
@[simp] theorem hostMemWrite_ops (a : Word) (b : Byte) (s : State) : (hostMemWrite a b s).ops = s.ops := rfl
@[simp] theorem hostMemWrite_resultLen (a : Word) (b : Byte) (s : State) : (hostMemWrite a b s).resultLen = s.resultLen := rfl
@[simp] theorem hostMemWrite_lens (a : Word) (b : Byte) (s : State) : (hostMemWrite a b s).lens = s.lens := rfl
@[simp] theorem hostMemWrite_lensHi (a : Word) (b : Byte) (s : State) : (hostMemWrite a b s).lensHi = s.lensHi := rfl
@[simp] theorem hostMemWrite_engine (a : Word) (b : Byte) (s : State) : (hostMemWrite a b s).engine = s.engine.afterHostWrite s.mem (aliases s.mirrors a.toNat) := rfl
@[simp] theorem hostMemWrite_mem (a : Word) (b : Byte) (s : State) : (hostMemWrite a b s).mem = s.mem.write (cellOf s.mirrors a.toNat) b := rfl
@[simp] theorem hostMemWrite_csrRdata (a : Word) (b : Byte) (s : State) : (hostMemWrite a b s).csrRdata = s.csrRdata := rfl
@[simp] theorem hostMemWrite_hostRdata (a : Word) (b : Byte) (s : State) : (hostMemWrite a b s).hostRdata = s.hostRdata := rfl
@[simp] theorem hostMemWrite_mirrors (a : Word) (b : Byte) (s : State) : (hostMemWrite a b s).mirrors = s.mirrors := rfl
@[simp] theorem hostMemWrite_memFaults (a : Word) (b : Byte) (s : State) : (hostMemWrite a b s).memFaults = s.memFaults := rfl
@[simp] theorem hostMemWrite_memErrs (a : Word) (b : Byte) (s : State) : (hostMemWrite a b s).memErrs = s.memErrs := rfl
@[simp] theorem hostMemWrite_turns (a : Word) (b : Byte) (s : State) : (hostMemWrite a b s).turns = s.turns := rfl
@[simp] theorem hostMemWrite_free (a : Word) (b : Byte) (s : State) : (hostMemWrite a b s).free = s.free := rfl

@[simp] theorem raiseError_resultLen_tooSmall (w : Window) (n : Nat) (s : State) :
    (raiseError (.bufferTooSmall w n) s).resultLen = BitVec.ofNat 32 (min n 0xFFFFFFFF) := rfl
@[simp] theorem raiseError_resultLen_illegalCmd (s : State) : (raiseError .illegalCmd s).resultLen = s.resultLen := rfl
@[simp] theorem raiseError_resultLen_addrRange (w : Window) (s : State) :
    (raiseError (.addrRange w) s).resultLen = s.resultLen := rfl
@[simp] theorem raiseError_resultLen_bufferOverlap (s : State) :
    (raiseError .bufferOverlap s).resultLen = s.resultLen := rfl
@[simp] theorem raiseError_resultLen_busError (s : State) : (raiseError .busError s).resultLen = s.resultLen := rfl

@[simp] theorem Status.accepted_busy (st : Status) : (st.accepted).busy = true := rfl
@[simp] theorem Status.accepted_done (st : Status) : (st.accepted).done = false := rfl
@[simp] theorem Status.accepted_err (st : Status) : (st.accepted).err = false := rfl
@[simp] theorem Status.accepted_overrun (st : Status) : (st.accepted).overrun = st.overrun := rfl
@[simp] theorem Status.accepted_errCode (st : Status) : (st.accepted).errCode = 0 := rfl
@[simp] theorem Status.accepted_errWin (st : Status) : (st.accepted).errWin = false := rfl

@[simp] theorem Status.completed_busy (st : Status) : (st.completed).busy = false := rfl
@[simp] theorem Status.completed_done (st : Status) : (st.completed).done = true := rfl
@[simp] theorem Status.completed_err (st : Status) : (st.completed).err = st.err := rfl
@[simp] theorem Status.completed_overrun (st : Status) : (st.completed).overrun = st.overrun := rfl
@[simp] theorem Status.completed_errCode (st : Status) : (st.completed).errCode = st.errCode := rfl
@[simp] theorem Status.completed_errWin (st : Status) : (st.completed).errWin = st.errWin := rfl

@[simp] theorem Status.failed_busy (st : Status) (c : BitVec 4) (w : Bool) : (st.failed c w).busy = false := rfl
@[simp] theorem Status.failed_done (st : Status) (c : BitVec 4) (w : Bool) : (st.failed c w).done = true := rfl
@[simp] theorem Status.failed_err (st : Status) (c : BitVec 4) (w : Bool) : (st.failed c w).err = true := rfl
@[simp] theorem Status.failed_overrun (st : Status) (c : BitVec 4) (w : Bool) : (st.failed c w).overrun = st.overrun := rfl
@[simp] theorem Status.failed_errCode (st : Status) (c : BitVec 4) (w : Bool) : (st.failed c w).errCode = c := rfl
@[simp] theorem Status.failed_errWin (st : Status) (c : BitVec 4) (w : Bool) : (st.failed c w).errWin = w := rfl

@[simp] theorem Status.overran_busy (st : Status) : (st.overran).busy = st.busy := rfl
@[simp] theorem Status.overran_done (st : Status) : (st.overran).done = st.done := rfl
@[simp] theorem Status.overran_err (st : Status) : (st.overran).err = st.err := rfl
@[simp] theorem Status.overran_overrun (st : Status) : (st.overran).overrun = true := rfl
@[simp] theorem Status.overran_errCode (st : Status) : (st.overran).errCode = st.errCode := rfl
@[simp] theorem Status.overran_errWin (st : Status) : (st.overran).errWin = st.errWin := rfl

@[simp] theorem Status.hostWrite_busy (st : Status) (w : Word) : (st.hostWrite w).busy = st.busy := rfl
@[simp] theorem Status.hostWrite_done (st : Status) (w : Word) : (st.hostWrite w).done = (st.done && !w.getLsbD 1) := rfl
@[simp] theorem Status.hostWrite_err (st : Status) (w : Word) : (st.hostWrite w).err = (st.err && !w.getLsbD 2) := rfl
@[simp] theorem Status.hostWrite_overrun (st : Status) (w : Word) : (st.hostWrite w).overrun = (st.overrun && !w.getLsbD 3) := rfl
@[simp] theorem Status.hostWrite_errCode (st : Status) (w : Word) : (st.hostWrite w).errCode = (if w.getLsbD 2 then 0 else st.errCode) := rfl
@[simp] theorem Status.hostWrite_errWin (st : Status) (w : Word) : (st.hostWrite w).errWin = (st.errWin && !w.getLsbD 2) := rfl

/-- The operands a running command uses are its snapshot. -/
theorem operands_of_busy (s : State) (w : Word) (snap : Operands) (r : Option Memory) (h : s.engine = .busy w snap r) :
    s.operands = snap := by simp [State.operands, h]

theorem operands_of_idle (s : State) (h : s.engine = .idle) : s.operands = s.ops := by simp [State.operands, h]

theorem raced_of_busy (s : State) (w : Word) (snap : Operands) (r : Option Memory) (h : s.engine = .busy w snap r) :
    s.raced = r.isSome := by simp [State.raced, h]

@[simp] theorem operands_with_memErrs (s : State) (q : List Bool) : ({ s with memErrs := q } : State).operands = s.operands := rfl
@[simp] theorem byteAt_with_memErrs (s : State) (q : List Bool) : ({ s with memErrs := q } : State).byteAt = s.byteAt := rfl
@[simp] theorem resultsFree_with_memErrs (s : State) (q : List Bool) : ({ s with memErrs := q } : State).resultsFree = s.resultsFree := rfl
@[simp] theorem raced_with_memErrs (s : State) (q : List Bool) : ({ s with memErrs := q } : State).raced = s.raced := rfl
@[simp] theorem operands_accept (w : Word) (s : State) : (accept w s).operands = s.ops := rfl
@[simp] theorem raced_accept (w : Word) (s : State) : (accept w s).raced = false := rfl
@[simp] theorem operands_with_turns (s : State) (ts : List Turn) : ({ s with turns := ts } : State).operands = s.operands := rfl
@[simp] theorem byteAt_with_turns (s : State) (ts : List Turn) : ({ s with turns := ts } : State).byteAt = s.byteAt := rfl
@[simp] theorem resultsFree_with_turns (s : State) (ts : List Turn) : ({ s with turns := ts } : State).resultsFree = s.resultsFree := rfl
@[simp] theorem raced_with_turns (s : State) (ts : List Turn) : ({ s with turns := ts } : State).raced = s.raced := rfl

end Sys2Proof.Machine
end

