-- ==== Sys2Proof/Laws/Ops.lean ====
section
/-! SUPPORT. What each shared operation can do, said once: if it answers, then one of these cases holds. -/

namespace Sys2Proof.Machine

/-- The memory port answers without error: one answer is used for each access. -/
theorem portAnswers_ok (faults : Bool) (as : List Access) (q : List Bool) (h : faults = false ∨ true ∉ q) :
    portAnswers faults as q = (false, q.drop as.length) := by
  induction as generalizing q with
  | nil => cases q <;> rfl
  | cons a as ih =>
    cases q with
    | nil => rfl
    | cons e q =>
      have he : (e && faults) = false := by
        rcases h with h | h
        · simp [h]
        · have : e = false := by cases e <;> simp_all
          simp [this]
      have hq : faults = false ∨ true ∉ q := h.imp_right fun h hm => h (List.mem_cons_of_mem _ hm)
      simp [portAnswers, he, ih q hq]

/-- The first `mem_err = 1` ends the accesses; the answers after it stay. -/
theorem portAnswers_error (as : List Access) (q : List Bool) (k : Nat) (hk : k < as.length) (h : q[k]? = some true)
    (hj : ∀ j < k, q[j]? = some false) : portAnswers true as q = (true, q.drop (k + 1)) := by
  induction as generalizing q k with
  | nil => simp at hk
  | cons a as ih =>
    cases q with
    | nil => simp at h
    | cons e q =>
      cases k with
      | zero => simp at h; subst h; rfl
      | succ k =>
        have he : e = false := by simpa using hj 0 (Nat.succ_pos k)
        subst he
        have := ih q k (by simpa using hk) (by simpa using h) fun j hlt => by simpa using hj (j + 1) (by omega)
        simpa [portAnswers] using this

/-- Only a memory that can fault answers with an error. -/
theorem memFaults_of_portAnswers {faults : Bool} {as : List Access} {q : List Bool} (h : (portAnswers faults as q).1 = true) :
    faults = true := by
  cases faults
  · rw [portAnswers_ok false as q (.inl rfl)] at h; cases h
  · rfl

/-- Whatever the answers, the queue only loses a prefix. -/
theorem portAnswers_drop (faults : Bool) (as : List Access) (q : List Bool) : ∃ k, (portAnswers faults as q).2 = q.drop k := by
  induction as generalizing q with
  | nil => exact ⟨0, by cases q <;> rfl⟩
  | cons a as ih =>
    cases q with
    | nil => exact ⟨0, rfl⟩
    | cons e q =>
      by_cases he : (e && faults) = true
      · exact ⟨1, by simp [portAnswers, he]⟩
      · obtain ⟨k, hk⟩ := ih q
        exact ⟨k + 1, by simpa [portAnswers, he] using hk⟩

/-- A command that meets R173 and R174 has no free result. -/
theorem resultsFree_of_settled (s : State) (h : s.Settled) : s.resultsFree = false := by
  rw [State.resultsFree, h.1, (windowsShare_eq_false _ _).2 h.2]; rfl

theorem inputMem_of_not_raced (s : State) (h : s.raced = false) : s.inputMem = s.mem := by
  unfold State.inputMem
  unfold State.raced at h
  split
  · rfl
  · next hb => rw [hb] at h; rw [Option.isSome_eq_false_iff, Option.isNone_iff_eq_none] at h; rw [h]; rfl

theorem inputView_of_not_raced (s : State) (h : s.raced = false) : s.inputView = s.byteAt := by
  funext a; rw [State.inputView, inputMem_of_not_raced s h]; rfl

/-- A byte of such a command's footprint is free exactly when the footprint holds it twice. -/
theorem byteFree_of_heldOnce (s : State) (len a : Nat) (h : s.resultsFree = false) (ho : s.HeldOnce len a) : s.byteFree len a = false := by
  rw [State.byteFree, h, (heldTwice_eq_false _ _ _ _).2 ho]; rfl

/-- A disturbed byte that is not free is old, final, or (where zeros can stand) zero. -/
theorem disturbedByte_cases (s : State) (z : Bool) (len a : Nat) (new : Byte) (h : s.byteFree len a = false) :
    s.disturbedByte z len a new = s.byteAt a ∨ s.disturbedByte z len a new = new ∨ (z = true ∧ s.disturbedByte z len a new = 0) := by
  unfold State.disturbedByte
  simp only [h, Bool.false_eq_true, if_false]
  split
  · exact .inl rfl
  · exact .inr (.inl rfl)
  · cases z
    · exact .inl rfl
    · exact .inr (.inr ⟨rfl, rfl⟩)

/-- A byte that two addresses reach is held once as the one exactly when as the other. -/
theorem HeldOnce_congr (s : State) (len : Nat) {a b : Nat} (h : cellOf s.mirrors a = cellOf s.mirrors b) :
    s.HeldOnce len a ↔ s.HeldOnce len b := by unfold State.HeldOnce; rw [h]

/-- What a byte of memory that the footprint holds at most once is after a cut-off command without free results. -/
theorem byteAt_disturbFootprint (z : Bool) (f : List Byte) (s : State) (a : Nat) (h : s.resultsFree = false)
    (ho : s.HeldOnce f.length a) :
    (disturbFootprint z f s).byteAt a = s.byteAt a ∨
      ∃ k v, f[k]? = some v ∧ cellOf s.mirrors (s.operands.dstAddr.toNat + k) = cellOf s.mirrors a ∧
        ((disturbFootprint z f s).byteAt a = v ∨ (z = true ∧ (disturbFootprint z f s).byteAt a = 0)) := by
  unfold State.byteAt
  rw [disturbFootprint_mem, disturbFootprint_mirrors]
  rcases Memory.read_writeVia s.mem s.mirrors s.operands.dstAddr.toNat
    (eachByte (s.disturbedByte z f.length) s.operands.dstAddr.toNat f) (cellOf s.mirrors a) with ⟨k, w, hw, hc, hr⟩ | ⟨_, hr⟩
  · rw [eachByte_getElem?] at hw
    obtain ⟨v, hv, hwv⟩ := Option.map_eq_some_iff.mp hw
    have hb := byteFree_of_heldOnce s f.length _ h ((HeldOnce_congr s f.length hc).2 ho)
    rw [hr, ← hwv]
    rcases disturbedByte_cases s z f.length (s.operands.dstAddr.toNat + k) v hb with e | e | ⟨e1, e2⟩
    · exact .inl (by rw [e, State.byteAt, hc])
    · exact .inr ⟨k, v, hv, hc, .inl e⟩
    · exact .inr ⟨k, v, hv, hc, .inr ⟨e1, e2⟩⟩
  · exact .inl hr

/-- A byte that no address of the footprint reaches is unchanged when the command is cut off. -/
theorem byteAt_disturbFootprint_outside (z : Bool) (f : List Byte) (s : State) (a : Nat)
    (h : ∀ k < f.length, cellOf s.mirrors (s.operands.dstAddr.toNat + k) ≠ cellOf s.mirrors a) :
    (disturbFootprint z f s).byteAt a = s.byteAt a := by
  unfold State.byteAt
  rw [disturbFootprint_mem, disturbFootprint_mirrors]
  rcases Memory.read_writeVia s.mem s.mirrors s.operands.dstAddr.toNat
    (eachByte (s.disturbedByte z f.length) s.operands.dstAddr.toNat f) (cellOf s.mirrors a) with ⟨k, w, hw, hc, _⟩ | ⟨_, hr⟩
  · have := (List.getElem?_eq_some_iff.mp hw).1
    rw [eachByte_length] at this
    exact absurd hc (h k this)
  · exact hr

/-- Where the footprint holds no byte twice, a command without free results delivers its final bytes as they are, and takes no free value. -/
theorem deliveredBytes_of_heldOnce (s : State) (f : List Byte) (h : s.resultsFree = false) (ho : ∀ a, s.HeldOnce f.length a) :
    s.deliveredBytes f = f ∧ s.footprintFree f.length = false := by
  constructor
  · exact eachByte_id _ _ _ fun k _ b => if_neg (by rw [byteFree_of_heldOnce s f.length _ h (ho _)]; simp)
  · rw [State.footprintFree, List.any_eq_false]
    exact fun k _ => by rw [byteFree_of_heldOnce s f.length _ h (ho _)]; simp

/-- What a successful command without free results leaves in memory. -/
theorem delivers_deliveredBytes (s : State) (f : List Byte) (h : s.resultsFree = false) :
    s.Delivers f (s.mem.writeVia s.mirrors s.operands.dstAddr.toNat (s.deliveredBytes f))
      (if s.footprintFree f.length then s.free + 1 else s.free) := by
  have hlen : (s.deliveredBytes f).length = f.length := eachByte_length _ _ _
  refine ⟨fun a ha => ?_, fun k v hv ho => ?_, fun ho => ?_⟩
  · rcases Memory.read_writeVia s.mem s.mirrors s.operands.dstAddr.toNat (s.deliveredBytes f) (cellOf s.mirrors a)
      with ⟨k, w, hw, hc, _⟩ | ⟨_, hr⟩
    · exact absurd hc (ha k (hlen ▸ (List.getElem?_eq_some_iff.mp hw).1))
    · exact hr
  · have hk : k < f.length := (List.getElem?_eq_some_iff.mp hv).1
    rcases Memory.read_writeVia s.mem s.mirrors s.operands.dstAddr.toNat (s.deliveredBytes f)
      (cellOf s.mirrors (s.operands.dstAddr.toNat + k)) with ⟨j, w, hw, hc, hr⟩ | ⟨hn, _⟩
    · have hj : j < f.length := hlen ▸ (List.getElem?_eq_some_iff.mp hw).1
      have e : j = k := ho j k hj hk hc rfl
      subst e
      rw [State.deliveredBytes, eachByte_getElem?, hv, Option.map_some, byteFree_of_heldOnce s f.length _ h ho] at hw
      rw [hr]; exact (Option.some.inj hw).symm
    · exact absurd rfl (hn k (hlen ▸ hk))
  · obtain ⟨e1, e2⟩ := deliveredBytes_of_heldOnce s f h ho
    rw [e1, e2]; exact ⟨rfl, rfl⟩

/-- A stream command's stage checks pass exactly when its windows are legal and large enough. -/
theorem streamCheck_none (o : Operands) (inNeed outNeed : Nat) :
    streamCheck o inNeed outNeed = none ↔
      (o.srcAddr.toNat + o.srcLen.toNat ≤ 2 ^ 32 ∧ o.dstAddr.toNat + o.dstCap.toNat ≤ 2 ^ 32 ∧
        overlap o.srcAddr.toNat o.srcLen.toNat o.dstAddr.toNat o.dstCap.toNat = false) ∧
      inNeed ≤ o.srcLen.toNat ∧ outNeed ≤ o.dstCap.toNat := by
  unfold streamCheck inSpace
  generalize (2 : Nat) ^ 32 = top
  by_cases h1 : o.srcAddr.toNat + o.srcLen.toNat ≤ top
  · by_cases h2 : o.dstAddr.toNat + o.dstCap.toNat ≤ top
    · cases h3 : overlap o.srcAddr.toNat o.srcLen.toNat o.dstAddr.toNat o.dstCap.toNat
      · by_cases h4 : o.srcLen.toNat < inNeed
        · simp [h1, h2, h4]
        · by_cases h5 : o.dstCap.toNat < outNeed
          · simp [h1, h2, h4, h5]
          · simp [h1, h2, h4, h5, not_lt.mp h4, not_lt.mp h5]
      · simp [h1, h2]
    · simp [h1, h2]
  · simp [h1]

/-- A stage check fails with an error that names a window past the address space, the overlap, or a window smaller than its size. -/
theorem streamCheck_some {o : Operands} {inNeed outNeed : Nat} {e : CmdError} (h : streamCheck o inNeed outNeed = some e) :
    (∃ win, e = .addrRange win) ∨ e = .bufferOverlap ∨
      (e = .bufferTooSmall .input inNeed ∧ o.srcLen.toNat < inNeed) ∨
      (e = .bufferTooSmall .output outNeed ∧ o.dstCap.toNat < outNeed) := by
  unfold streamCheck at h
  repeat' split at h
  all_goals cases h
  · exact .inl ⟨_, rfl⟩
  · exact .inl ⟨_, rfl⟩
  · exact .inr (.inl rfl)
  · next hl => exact .inr (.inr (.inl ⟨rfl, hl⟩))
  · next hl => exact .inr (.inr (.inr ⟨rfl, hl⟩))

/-- The main pass: a bus error cuts it off, or it succeeds, with free results where R173 or R174 says so. -/
theorem runTransfer_cases (z : Bool) (tr : List Access) (p : StreamPlan) (s : State) :
    let s' := { s with memErrs := (portAnswers s.memFaults tr s.memErrs).2 }
    (s.memFaults = true ∧ runTransfer z tr p s = raiseError .busError (disturbFootprint z p.final s')) ∨
      (s.resultsFree = true ∧ runTransfer z tr p s = transferFree p s') ∨
      (s.resultsFree = false ∧ runTransfer z tr p s = transferDone p s') := by
  unfold runTransfer
  by_cases h1 : (portAnswers s.memFaults tr s.memErrs).1 = true
  · exact .inl ⟨memFaults_of_portAnswers h1, if_pos h1⟩
  · simp only [if_neg h1]
    cases s.resultsFree
    · exact .inr (.inr ⟨rfl, rfl⟩)
    · exact .inr (.inl ⟨rfl, rfl⟩)

/-- An encode: the first failing check, or the main pass. -/
theorem streamEncode_cases (delta fs : Bool) (s : State) :
    (∃ e, writeCheck s.operands = some e ∧ streamEncode delta fs s = raiseError e s) ∨
      (writeCheck s.operands = none ∧ ∃ tr, streamEncode delta fs s =
        runTransfer (s.accelerated fs) tr (encoderPlan delta s) s) := by
  rcases hc : writeCheck s.operands with _ | e
  · refine .inr ⟨rfl, encoderTrace (s.accelerated fs) delta s.operands.prev s.operands.srcAddr.toNat s.operands.dstAddr.toNat
      (encoderValues s), ?_⟩
    simp only [streamEncode, hc]
  · exact .inl ⟨e, rfl, by simp [streamEncode, hc]⟩

@[simp] theorem decoderFits_eq_true (s : State) : decoderFits s = true ↔ decoderNeed s ≤ s.operands.srcLen.toNat := by
  simp [decoderFits]

/-- A decode delivers `COUNT` values, whatever its input. -/
theorem decoderValues_length (delta : Bool) (s : State) : (decoderValues delta s).length = s.operands.count.toNat := by
  unfold decoderValues
  rw [streamValues_length]
  show (decodeChunks _ _ _).length = _
  rw [decodeChunks_length]
  simp only [List.length_take, viewBytes_length, decoderNeed, Operands.g, Operands.n, ctrlCount]
  omega

/-- The footprint of a decode is `4N` bytes long, also where it cannot go on. -/
theorem cutOffFinal_length (delta : Bool) (s : State) : (cutOffFinal delta s).length = 4 * s.operands.count.toNat := by
  unfold cutOffFinal
  split
  · show (bytesOfWords (decoderValues delta s)).length = _
    rw [bytesOfWords_length, decoderValues_length]
  · exact viewBytes_length _ _ _

/-- A decode: the first failing check; a bus error in the pre-pass; the pre-pass's size check; or the main pass. -/
theorem streamDecode_cases (delta fs : Bool) (s : State) :
    (∃ e, readCheck s.operands = some e ∧ streamDecode delta fs s = raiseError e s) ∨
      (readCheck s.operands = none ∧ ∃ k,
        let s' := { s with memErrs := s.memErrs.drop k }
        (s.memFaults = true ∧ streamDecode delta fs s = raiseError .busError (disturbFootprint false (cutOffFinal delta s) s')) ∨
        (s.operands.srcLen.toNat < decoderNeed s ∧ streamDecode delta fs s =
          raiseError (.bufferTooSmall .input (decoderNeed s)) s') ∨
        (decoderNeed s ≤ s.operands.srcLen.toNat ∧ ∃ tr, streamDecode delta fs s =
          runTransfer false tr (decoderPlan delta s) s')) := by
  rcases hc : readCheck s.operands with _ | e
  · obtain ⟨k, hk⟩ := portAnswers_drop s.memFaults (prepassTrace s.operands.srcAddr.toNat s.operands.g) s.memErrs
    refine .inr ⟨rfl, k, ?_⟩
    simp only [streamDecode, hc, hk]
    by_cases hb : (portAnswers s.memFaults (prepassTrace s.operands.srcAddr.toNat s.operands.g) s.memErrs).1 = true
    · exact .inl ⟨memFaults_of_portAnswers hb, if_pos hb⟩
    · rw [if_neg hb]
      by_cases hs : decoderFits s = true
      · exact .inr (.inr ⟨(decoderFits_eq_true s).1 hs, _, if_pos hs⟩)
      · exact .inr (.inl ⟨not_le.mp fun h => hs ((decoderFits_eq_true s).2 h), if_neg hs⟩)
  · exact .inl ⟨e, rfl, by simp [streamDecode, hc]⟩

/-- A group encode: too small a packed window, or success. -/
theorem groupEncode_cases (w8 delta : Bool) (s : State) :
    let p := groupPack w8 delta s.operands.prev s.operands.vals
    (s.operands.packLen.toNat < p.bytes.length ∧
        groupEncode w8 delta s = raiseError (.bufferTooSmall .output p.bytes.length) s) ∨
      (p.bytes.length ≤ s.operands.packLen.toNat ∧ groupEncode w8 delta s = finish { s with
        ops := { s.ops with pack := packOf p.bytes, ctrl := p.ctrl, prev := if delta then p.last else s.ops.prev }
        resultLen := BitVec.ofNat 32 p.bytes.length }) := by
  unfold groupEncode
  simp only
  split
  · next h => exact .inl ⟨h, rfl⟩
  · next h => exact .inr ⟨by omega, rfl⟩

/-- A group decode: too small a packed window, or success. -/
theorem groupDecode_cases (w8 delta : Bool) (s : State) :
    let o := s.operands
    let t := groupTotal w8 o.ctrl
    let u := groupUnpack w8 delta o.prev o.ctrl ((packBytes o.pack).take t)
    (o.packLen.toNat < t ∧ groupDecode w8 delta s = raiseError (.bufferTooSmall .input t) s) ∨
      (t ≤ o.packLen.toNat ∧ groupDecode w8 delta s = finish { s with
        ops := { s.ops with
          vals := if w8 then u.vals else { s.ops.vals with lo := u.vals.lo }
          prev := if delta then u.last else s.ops.prev }
        resultLen := BitVec.ofNat 32 t }) := by
  unfold groupDecode
  simp only
  split
  · next h => exact .inl ⟨h, rfl⟩
  · next h => exact .inr ⟨by omega, rfl⟩

/-- A step at the engine's turn. -/
theorem step_engine (s s' : State) (h : s.nextTurn = (.engine, s')) : step s = engineTurn exec s' := by
  simp [step, takeTurn, h]

/-- A step at the host's turn. -/
theorem step_host (s s' : State) (op : HostOp) (h : s.nextTurn = (.host op, s')) : step s = .next (hostOp op s') := by
  simp [step, takeTurn, h]

/-- Taking a turn off the list leaves the rest of the state. -/
theorem nextTurn_state (s : State) : ∃ ts, s.nextTurn.2 = { s with turns := ts } := by
  unfold State.nextTurn
  split
  · exact ⟨s.turns, rfl⟩
  · next ts _ => exact ⟨ts, rfl⟩

end Sys2Proof.Machine
end

