-- ==== Sys2Proof/Laws/PerInstr.lean ====
section
/-! SUPPORT. A family of statements made per command: what its encoding holds, bit by bit. -/

namespace Sys2Proof.Laws.EncodedBits

/-- 30_encoding.md R69: the reserved bits of a command's word are zero, bit 8 is `FORCE_SCALAR`, bits [5:0] are the opcode. -/
def Statement (i : Instr) : Prop :=
  (encode i).extractLsb' 9 23 = 0 ∧ (encode i).extractLsb' 6 2 = 0 ∧ (encode i).getLsbD 8 = i.forceScalar ∧
    (encode i).extractLsb' 0 6 = i.opcode

theorem lenLookup (fs : Bool) : Statement (.lenLookup fs) := by cases fs <;> exact ⟨rfl, rfl, rfl, rfl⟩
theorem lenLookupWord (fs : Bool) : Statement (.lenLookupWord fs) := by cases fs <;> exact ⟨rfl, rfl, rfl, rfl⟩
theorem shufEncRead (fs : Bool) : Statement (.shufEncRead fs) := by cases fs <;> exact ⟨rfl, rfl, rfl, rfl⟩
theorem shufDecRead (fs : Bool) : Statement (.shufDecRead fs) := by cases fs <;> exact ⟨rfl, rfl, rfl, rfl⟩
theorem ctrlByte (fs : Bool) : Statement (.ctrlByte fs) := by cases fs <;> exact ⟨rfl, rfl, rfl, rfl⟩
theorem ctrlWord (fs : Bool) : Statement (.ctrlWord fs) := by cases fs <;> exact ⟨rfl, rfl, rfl, rfl⟩
theorem encode4 (fs : Bool) : Statement (.encode4 fs) := by cases fs <;> exact ⟨rfl, rfl, rfl, rfl⟩
theorem encode8 (fs : Bool) : Statement (.encode8 fs) := by cases fs <;> exact ⟨rfl, rfl, rfl, rfl⟩
theorem encode4Delta (fs : Bool) : Statement (.encode4Delta fs) := by cases fs <;> exact ⟨rfl, rfl, rfl, rfl⟩
theorem encode8Delta (fs : Bool) : Statement (.encode8Delta fs) := by cases fs <;> exact ⟨rfl, rfl, rfl, rfl⟩
theorem decode4 (fs : Bool) : Statement (.decode4 fs) := by cases fs <;> exact ⟨rfl, rfl, rfl, rfl⟩
theorem decode8 (fs : Bool) : Statement (.decode8 fs) := by cases fs <;> exact ⟨rfl, rfl, rfl, rfl⟩
theorem decode4Delta (fs : Bool) : Statement (.decode4Delta fs) := by cases fs <;> exact ⟨rfl, rfl, rfl, rfl⟩
theorem decode8Delta (fs : Bool) : Statement (.decode8Delta fs) := by cases fs <;> exact ⟨rfl, rfl, rfl, rfl⟩
theorem writeAll (fs : Bool) : Statement (.writeAll fs) := by cases fs <;> exact ⟨rfl, rfl, rfl, rfl⟩
theorem writeAllDelta (fs : Bool) : Statement (.writeAllDelta fs) := by cases fs <;> exact ⟨rfl, rfl, rfl, rfl⟩
theorem readAll (fs : Bool) : Statement (.readAll fs) := by cases fs <;> exact ⟨rfl, rfl, rfl, rfl⟩
theorem readAllDelta (fs : Bool) : Statement (.readAllDelta fs) := by cases fs <;> exact ⟨rfl, rfl, rfl, rfl⟩

end Sys2Proof.Laws.EncodedBits
end

