-- ==== Sys2Proof/Tests/Slice0.lean ====
section
/-! SUPPORT. Tests: words and values of 95_test_vectors.md, and for each statement with hypotheses a state that meets them. -/

namespace Sys2Proof.Tests

open Sys2Proof.Machine

/-! ### Well-formedness (30_encoding.md R71) -/

def fields (hi : BitVec 23) (lo : BitVec 2) (op : BitVec 6) : CommandFields := ⟨hi, true, lo, op⟩

theorem test_wf_accepts_each_check : (fields 0 0 0x09).wf = true ∧ (fields 0 0 0x16).wf = true ∧ (fields 0 0 0x01).wf = true := by decide
theorem test_wf_refuses_reserved_high : (fields 1 0 0x09).wf = false ∧ (fields 0x400000 0 0x01).wf = false := by decide
theorem test_wf_refuses_reserved_low : (fields 0 1 0x08).wf = false ∧ (fields 0 2 0x08).wf = false := by decide
theorem test_wf_refuses_illegal_opcodes :
    ∀ op ∈ ([0x00, 0x07, 0x11, 0x13, 0x15, 0x17, 0x3F] : List (BitVec 6)), (fields 0 0 op).wf = false := by decide
/-- L2.2. -/
theorem test_illegal_words : ∀ w ∈ ([0x0, 0x7, 0x11, 0x13, 0x15, 0x17, 0x3F, 0x48, 0x209, 0x80000001] : List Word),
    ∃ why, decode w = .illegal why := by
  intro w h
  simp only [List.mem_cons, List.not_mem_nil, or_false] at h
  rcases h with rfl | rfl | rfl | rfl | rfl | rfl | rfl | rfl | rfl | rfl <;> exact ⟨_, rfl⟩

/-! ### Decoding: words written out by the encoding string of R69, `FORCE_SCALAR` 0 and 1 -/

theorem test_decode_lenLookup :
    decode 0b00000000000000000000000000000001 = .command (.lenLookup false) ∧
    decode 0b00000000000000000000000100000001 = .command (.lenLookup true) := by decide
theorem test_decode_lenLookupWord :
    decode 0b00000000000000000000000000000010 = .command (.lenLookupWord false) ∧
    decode 0b00000000000000000000000100000010 = .command (.lenLookupWord true) := by decide
theorem test_decode_shufEncRead :
    decode 0b00000000000000000000000000000011 = .command (.shufEncRead false) ∧
    decode 0b00000000000000000000000100000011 = .command (.shufEncRead true) := by decide
theorem test_decode_shufDecRead :
    decode 0b00000000000000000000000000000100 = .command (.shufDecRead false) ∧
    decode 0b00000000000000000000000100000100 = .command (.shufDecRead true) := by decide
theorem test_decode_ctrlByte :
    decode 0b00000000000000000000000000000101 = .command (.ctrlByte false) ∧
    decode 0b00000000000000000000000100000101 = .command (.ctrlByte true) := by decide
theorem test_decode_ctrlWord :
    decode 0b00000000000000000000000000000110 = .command (.ctrlWord false) ∧
    decode 0b00000000000000000000000100000110 = .command (.ctrlWord true) := by decide
theorem test_decode_encode4 :
    decode 0b00000000000000000000000000001000 = .command (.encode4 false) ∧
    decode 0b00000000000000000000000100001000 = .command (.encode4 true) := by decide
theorem test_decode_encode8 :
    decode 0b00000000000000000000000000001001 = .command (.encode8 false) ∧
    decode 0b00000000000000000000000100001001 = .command (.encode8 true) := by decide
theorem test_decode_encode4Delta :
    decode 0b00000000000000000000000000001010 = .command (.encode4Delta false) ∧
    decode 0b00000000000000000000000100001010 = .command (.encode4Delta true) := by decide
theorem test_decode_encode8Delta :
    decode 0b00000000000000000000000000001011 = .command (.encode8Delta false) ∧
    decode 0b00000000000000000000000100001011 = .command (.encode8Delta true) := by decide
theorem test_decode_decode4 :
    decode 0b00000000000000000000000000001100 = .command (.decode4 false) ∧
    decode 0b00000000000000000000000100001100 = .command (.decode4 true) := by decide
theorem test_decode_decode8 :
    decode 0b00000000000000000000000000001101 = .command (.decode8 false) ∧
    decode 0b00000000000000000000000100001101 = .command (.decode8 true) := by decide
theorem test_decode_decode4Delta :
    decode 0b00000000000000000000000000001110 = .command (.decode4Delta false) ∧
    decode 0b00000000000000000000000100001110 = .command (.decode4Delta true) := by decide
theorem test_decode_decode8Delta :
    decode 0b00000000000000000000000000001111 = .command (.decode8Delta false) ∧
    decode 0b00000000000000000000000100001111 = .command (.decode8Delta true) := by decide
theorem test_decode_writeAll :
    decode 0b00000000000000000000000000010000 = .command (.writeAll false) ∧
    decode 0b00000000000000000000000100010000 = .command (.writeAll true) := by decide
theorem test_decode_writeAllDelta :
    decode 0b00000000000000000000000000010010 = .command (.writeAllDelta false) ∧
    decode 0b00000000000000000000000100010010 = .command (.writeAllDelta true) := by decide
theorem test_decode_readAll :
    decode 0b00000000000000000000000000010100 = .command (.readAll false) ∧
    decode 0b00000000000000000000000100010100 = .command (.readAll true) := by decide
theorem test_decode_readAllDelta :
    decode 0b00000000000000000000000000010110 = .command (.readAllDelta false) ∧
    decode 0b00000000000000000000000100010110 = .command (.readAllDelta true) := by decide
theorem test_table_words : decodeTableWord 32 0x109 = some (.encode8 true) ∧ decodeTableWord 32 0x12 = some (.writeAllDelta false) ∧
    decodeTableWord 32 0x07 = none := by decide

/-! ### States -/

/-- An idle CORE with the accelerated datapath, markers in the result CSRs, and the given operand CSRs and memory. -/
def idle (o : Operands) (m : Memory := []) : State :=
  { accelPresent := true, modeAccel := true, cmd := 0, status := Status.reset, doneEn := false, ops := o, resultLen := 0x77,
    lens := 0x01010101, lensHi := 0x02020202, engine := .idle, mem := m, mirrors := [], csrRdata := 0, hostRdata := 0, memFaults := false,
    memErrs := [], turns := [], free := 0 }

/-- The state a command's only step from `idle` leaves. -/
def after (w : Nat) (o : Operands) (m : Memory := []) : State :=
  match step ((idle o m).withFetchWord 32 w) with
  | .next t => t
  | _ => idle o m

/-- The state the engine's turn leaves. -/
def engineStep (s : State) : State :=
  match step s with
  | .next t => t
  | _ => s

def ops : Operands := Operands.reset

/-- Operands of a group command. -/
def group (ctrl : BitVec 16) (packLen : BitVec 6) (prev : Word) (v : Bank) (pack : List Byte := []) : Operands :=
  { ops with ctrl := ctrl, packLen := packLen, prev := prev, vals := v, pack := packOf pack }

def bank (a b c d e f g h : Word) : Bank := ⟨⟨a, b, c, d⟩, ⟨e, f, g, h⟩⟩

/-- Operands of a stream command. -/
def win (n srcAddr srcLen dstAddr dstCap : Word) (prev : Word := 0) : Operands :=
  { ops with count := n, srcAddr := srcAddr, srcLen := srcLen, dstAddr := dstAddr, dstCap := dstCap, prev := prev }

def bytesAt (s : State) (a n : Nat) : List Byte := s.bytesAt a n

/-! ### The table and control-byte commands (L2.3, L2.4) -/

theorem test_lenLookup : (after 0x01 { ops with ctrl := 0xFF43 }).lens = 0x02010104 ∧
    (after 0x01 { ops with ctrl := 0xFF43 }).resultLen = 8 ∧ (after 0x01 { ops with ctrl := 0xFF43 }).lensHi = 0x02020202 := by decide
theorem test_lenLookup_1B : (after 0x101 { ops with ctrl := 0x1B }).lens = 0x01020304 ∧
    (after 0x101 { ops with ctrl := 0x1B }).resultLen = 10 := by decide
theorem test_lenLookupWord : (after 0x02 { ops with ctrl := 0x1BE4 }).lens = 0x04030201 ∧
    (after 0x02 { ops with ctrl := 0x1BE4 }).lensHi = 0x01020304 ∧ (after 0x02 { ops with ctrl := 0x1BE4 }).resultLen = 20 := by decide
theorem test_lenLookupWord_4301 : (after 0x02 { ops with ctrl := 0x4301 }).lens = 0x01010102 ∧
    (after 0x02 { ops with ctrl := 0x4301 }).lensHi = 0x02010104 ∧ (after 0x02 { ops with ctrl := 0x4301 }).resultLen = 13 := by decide
theorem test_shufEncRead : (after 0x03 { ops with ctrl := 0x1B }).ops.pack =
    bank 0x03020100 0x08060504 0xFFFF0C09 0xFFFFFFFF 0 0 0 0 := by decide
theorem test_shufEncRead_43 : (after 0x03 { ops with ctrl := 0x43 }).ops.pack =
    bank 0x03020100 0x0D0C0804 0xFFFFFFFF 0xFFFFFFFF 0 0 0 0 ∧ (after 0x03 { ops with ctrl := 0x43 }).resultLen = 8 := by decide
theorem test_shufDecRead : (after 0x04 { ops with ctrl := 0x1B }).ops.pack =
    bank 0x03020100 0xFF060504 0xFFFF0807 0xFFFFFF09 0 0 0 0 := by decide
theorem test_shufDecRead_43 : (after 0x04 { ops with ctrl := 0x43 }).ops.pack =
    bank 0x03020100 0xFFFFFF04 0xFFFFFF05 0xFFFF0706 0 0 0 0 ∧ (after 0x04 { ops with ctrl := 0x43 }).resultLen = 8 := by decide

def classes : Bank := bank 0xFF 0x100 0x10000 0x1000000 0x40000000 10 12 1024
/-- L1.1. -/
def scenario : Bank := bank 1024 3 2 1 0x40000000 10 12 1024
def scenarioBytes : List Byte := [0x00, 0x04, 0x03, 0x02, 0x01, 0x00, 0x00, 0x00, 0x40, 0x0A, 0x0C, 0x00, 0x04]

theorem test_ctrlByte : (after 0x05 (group 0xFFFF 32 0 classes)).ops.ctrl = 0x00E4 ∧
    (after 0x05 (group 0xFFFF 32 0 classes)).resultLen = 10 := by decide
theorem test_ctrlByte_49 : (after 0x05 (group 0 32 0 (bank 0xFFFF 0xFFFFFF 0 0x100 0 0 0 0))).ops.ctrl = 0x49 := by decide
theorem test_ctrlWord : (after 0x06 (group 0 32 0 scenario)).ops.ctrl = 0x4301 ∧
    (after 0x06 (group 0 32 0 scenario)).resultLen = 13 := by decide
/-- L1.4. -/
theorem test_lengthClass : ([0, 1, 0xFF, 0x100, 0xFFFF, 0x10000, 0xFFFFFF, 0x1000000, 0xFFFFFFFF] : List Word).map lc =
    [1, 1, 1, 2, 2, 3, 3, 4, 4] := by decide
/-- L2.4, the kernel's lanes: `q`, `r` and `s`. -/
theorem test_kernel_lanes : (kernelLane 0x00000100, kernelSignedMin (kernelLane 0x00010100), kernelStep4 0x00FF0000, kernelStep4 0x40000000) =
    (0x00FF, 0x0101, 0x8000, 0xFFFF) := by decide

/-! ### The group commands (L2.5) -/

theorem test_encode4 : (after 0x08 (group 0xFFFF 32 0 classes)).ops.pack = bank 0x000100FF 0x00000100 0x00000100 0 0 0 0 0 ∧
    (after 0x08 (group 0xFFFF 32 0 classes)).ops.ctrl = 0x00E4 := by decide
theorem test_encode8 : (after 0x09 (group 0 32 0 scenario)).ops.pack = bank 0x02030400 0x00000001 0x000C0A40 0x00000004 0 0 0 0 ∧
    (after 0x09 (group 0 32 0 scenario)).ops.ctrl = 0x4301 ∧ (after 0x09 (group 0 32 0 scenario)).resultLen = 13 := by decide
def ones : Bank := bank 0xFFFFFFFF 0xFFFFFFFF 0xFFFFFFFF 0xFFFFFFFF 0xFFFFFFFF 0xFFFFFFFF 0xFFFFFFFF 0xFFFFFFFF
theorem test_encode8_too_small : (after 0x09 (group 0x5555 31 0 ones)).status.toWord = 0x1406 ∧
    (after 0x09 (group 0x5555 31 0 ones)).resultLen = 32 ∧ (after 0x09 (group 0x5555 31 0 ones)).ops = group 0x5555 31 0 ones := by decide
theorem test_encode4Delta :
    (after 0x0A (group 0 32 7 (bank 5 3 10 10 0 0 0 0))).ops.pack = bank 0xFFFFFFFE 0xFFFFFFFE 0x00000007 0 0 0 0 0 ∧
    (after 0x0A (group 0 32 7 (bank 5 3 10 10 0 0 0 0))).ops.ctrl = 0x0F ∧
    (after 0x0A (group 0 32 7 (bank 5 3 10 10 0 0 0 0))).ops.prev = 10 := by decide
def deltaVals : Bank := bank 10 20 30 40 50 300 300 70000
theorem test_encode8Delta : (after 0x0B (group 0 32 0 deltaVals)).ops.pack = bank 0x0A0A0A0A 0x4400FA0A 0x00000110 0 0 0 0 0 ∧
    (after 0x0B (group 0 32 0 deltaVals)).ops.ctrl = 0x8000 ∧ (after 0x0B (group 0 32 0 deltaVals)).ops.prev = 70000 := by decide
theorem test_decode4 : (after 0x0C (group 0xFF00 4 0 ones [0x11, 0x22, 0x33, 0x44])).ops.vals =
    ⟨⟨0x11, 0x22, 0x33, 0x44⟩, ones.hi⟩ := by decide
theorem test_decode4_too_small : (after 0x0C (group 0xFF 15 0 classes)).status.toWord = 0x0406 ∧
    (after 0x0C (group 0xFF 15 0 classes)).resultLen = 16 ∧ (after 0x0C (group 0xFF 15 0 classes)).ops.vals = classes := by decide
theorem test_decode8 : (after 0x0D (group 0x4301 13 0 Bank.zero scenarioBytes)).ops.vals = scenario ∧
    (after 0x0D (group 0x4301 13 0 Bank.zero scenarioBytes)).resultLen = 13 := by decide
def deltaBytes4 : List Byte := [0xFE, 0xFF, 0xFF, 0xFF, 0xFE, 0xFF, 0xFF, 0xFF, 0x07, 0x00]
theorem test_decode4Delta : (after 0x0E (group 0x0F 32 7 ones deltaBytes4)).ops.vals = ⟨⟨5, 3, 10, 10⟩, ones.hi⟩ ∧
    (after 0x0E (group 0x0F 32 7 ones deltaBytes4)).ops.prev = 10 := by decide
def deltaBytes8 : List Byte := [0x0A, 0x0A, 0x0A, 0x0A, 0x0A, 0xFA, 0x00, 0x44, 0x10, 0x01]
theorem test_decode8Delta : (after 0x0F (group 0x8000 10 0 ones deltaBytes8)).ops.vals = deltaVals ∧
    (after 0x0F (group 0x8000 10 0 ones deltaBytes8)).ops.prev = 70000 := by decide

/-! ### The stream commands (L1.3, L2.6, L2.7; the windows of P2) -/

def at1000 : Memory := Memory.writeBytes [] 0x1000 [0x2C, 0x01, 0, 0]
/-- L1.3. -/
theorem test_writeAll : bytesAt (after 0x10 (win 1 0x1000 4 0x2000 5) at1000) 0x2000 5 = [0x01, 0x2C, 0x01, 0, 0] ∧
    (after 0x10 (win 1 0x1000 4 0x2000 5) at1000).resultLen = 3 := by decide
theorem test_readAll :
    bytesAt (after 0x14 (win 1 0x2000 5 0x3000 4) (Memory.writeBytes [] 0x2000 [0xC1, 0x2C, 0x01, 0xAA, 0xAA])) 0x3000 5 =
      [0x2C, 0x01, 0, 0, 0] ∧
    (after 0x14 (win 1 0x2000 5 0x3000 4) (Memory.writeBytes [] 0x2000 [0xC1, 0x2C, 0x01, 0xAA, 0xAA])).resultLen = 3 := by decide
def deltaIn : Memory := Memory.writeBytes [] 0x1000 (bytesOfWords [5, 3, 10, 10, 11])
def deltaStream : List Byte := [0x0F, 0x00, 0xFE, 0xFF, 0xFF, 0xFF, 0xFE, 0xFF, 0xFF, 0xFF, 0x07, 0x00, 0x01]
theorem test_writeAllDelta : bytesAt (after 0x12 (win 5 0x1000 20 0x2000 22 7) deltaIn) 0x2000 13 = deltaStream ∧
    (after 0x12 (win 5 0x1000 20 0x2000 22 7) deltaIn).ops.prev = 11 ∧
    (after 0x12 (win 5 0x1000 20 0x2000 22 7) deltaIn).resultLen = 13 := by decide
def deltaMem : Memory := Memory.writeBytes [] 0x2000 deltaStream
theorem test_readAllDelta :
    bytesAt (after 0x16 (win 5 0x2000 13 0x3000 20 7) deltaMem) 0x3000 20 = bytesOfWords [5, 3, 10, 10, 11] ∧
    (after 0x16 (win 5 0x2000 13 0x3000 20 7) deltaMem).ops.prev = 11 := by decide
/-- L2.7: the pre-pass finds the input short; the stage-1 output check comes before it. -/
theorem test_readAllDelta_short :
    ((after 0x16 (win 5 0x2000 12 0x3000 20 7) deltaMem).status.toWord, (after 0x16 (win 5 0x2000 12 0x3000 20 7) deltaMem).resultLen) = (0x0406, 13) ∧
    ((after 0x16 (win 5 0x2000 12 0x3000 19 7) deltaMem).status.toWord, (after 0x16 (win 5 0x2000 12 0x3000 19 7) deltaMem).resultLen) = (0x1406, 20) := by
  decide
/-- L2.7: `STATUS` and `RESULT_LEN` of `WRITE_ALL` with N = 4 for each change of a window. -/
def outcome (o : Operands) : Word × Word := ((after 0x10 o).status.toWord, (after 0x10 o).resultLen)
theorem test_stream_errors :
    outcome (win 4 0x1000 15 0x2000 17) = (0x0406, 16) ∧ outcome (win 4 0x1000 16 0x2000 16) = (0x1406, 17) ∧
    outcome (win 4 0xFFFFFFF8 16 0x2000 17) = (0x0206, 0x77) ∧ outcome (win 4 0x1000 16 0xFFFFFFF0 17) = (0x1206, 0x77) ∧
    outcome (win 4 0xFFFFFFF8 16 0xFFFFFFF0 17) = (0x0206, 0x77) ∧ outcome (win 4 0x1000 16 0x100F 3) = (0x0306, 0x77) ∧
    outcome (win 0x40000000 0x1000 16 0x2000 17) = (0x0406, 0xFFFFFFFF) ∧
    outcome (win 4 0xFFFFFFF0 16 0x2000 17) = (0x2, 5) ∧
    outcome (win 4 0x1000 16 0x1010 17) = (0x2, 5) ∧ outcome (win 0 0x1000 0 0x1000 0) = (0x2, 0) := by decide
/-- L2.6, tier schedules. -/
theorem test_tiers : tierSchedule true 43 = List.replicate 10 .full ++ [.partialGroup 3] ∧
    tierSchedule true 44 = .bulk :: List.replicate 3 .full ∧ tierSchedule true 100 = [.bulk, .bulk] ++ List.replicate 9 .full ∧
    tierSchedule false 28 = .bulk :: List.replicate 3 .full ∧ tierSchedule false 27 = List.replicate 6 .full ++ [.partialGroup 3] ∧
    tierSchedule false 100 = List.replicate 5 .bulk ++ List.replicate 5 .full := by decide

/-! ### The host's side (L2.1) and illegal words (L2.2) -/

theorem test_packLen : ([20, 0x3F, 100, 0x45, 0] : List Word).map (fun w => csrRead 0x038 (csrWrite 0x038 w (idle ops))) =
    [20, 32, 32, 5, 0] := by decide
theorem test_status_write :
    ((⟨false, true, true, false, 4, true⟩ : Status).toWord, (Status.hostWrite ⟨false, true, true, false, 4, true⟩ 2).toWord,
      (Status.hostWrite ⟨false, false, true, false, 4, true⟩ 4).toWord, (Status.hostWrite ⟨false, true, false, false, 0, false⟩ 0xFFFFFFF9).toWord) =
    (0x1406, 0x1404, 0, 2) := by decide
theorem test_illegal_command : (after 0x48 ops).status.toWord = 0x0106 ∧ (after 0x48 ops).cmd = 0x48 ∧ (after 0x48 ops).resultLen = 0x77 ∧
    (after 0x80000001 ops).status.toWord = 0x0106 := by decide
theorem test_csr_reads : csrRead 0x000 (idle ops) = 0x53564231 ∧ csrRead 0x03D (idle ops) = 0x01010101 ∧ csrRead 0x044 (idle ops) = 0 ∧
    csrRead 0x100 (idle ops) = 0 := by decide

/-! ### Races (R173) and mirrors (R174) -/

/-- A host write into the output window frees results, and does not change what the pre-pass reports. -/
theorem test_race_reports_nothing :
    ((engineStep (hostMemWrite 0x3000 9 (accept 0x16 (idle (win 5 0x2000 13 0x3000 20 7) deltaMem)))).status.toWord,
      (engineStep (hostMemWrite 0x3000 9 (accept 0x16 (idle (win 5 0x2000 12 0x3000 20 7) deltaMem)))).status.toWord,
      (engineStep (hostMemWrite 0x2000 0 (accept 0x16 (idle (win 5 0x2000 12 0x3000 20 7) deltaMem)))).resultLen) = (0x2, 0x0406, 13) := by
  decide
/-- A platform where 0x3000 and 0x1000 are one byte. -/
def mirrored (o : Operands) : State := { idle o with mirrors := [(0x3000, 0x1000)] }
theorem test_mirror_is_one_byte : (hostMemWrite 0x3000 7 (mirrored ops)).byteAt 0x1000 = 7 ∧
    (hostMemWrite 0x1000 7 (mirrored ops)).byteAt 0x3000 = 7 ∧ (hostMemWrite 0x1000 7 (mirrored ops)).byteAt 0x3001 = 0 := by decide
theorem test_windows_share : (win 1 0x1000 4 0x2FFE 5).windowsShare [(0x3000, 0x1000)] = true ∧
    (win 1 0x1000 4 0x3001 5).windowsShare [(0x3000, 0x1000)] = false ∧
    (engineStep (accept 0x10 (mirrored (win 1 0x1000 4 0x2FFE 5)))).status.toWord = 0x2 := by decide
/-- An output window that holds a byte twice (0x2000 and 0x2001) frees that byte alone: `RESULT_LEN` is as R79 says. -/
def twice (o : Operands) : State := engineStep (accept 0x10 { idle o at1000 with mirrors := [(0x2001, 0x2000)] })
theorem test_output_byte_held_twice : (win 1 0x1000 4 0x2000 5).windowsShare [(0x2001, 0x2000)] = false ∧
    (twice (win 1 0x1000 4 0x2000 5)).resultLen = 3 ∧ (twice (win 0 0x1000 0 0x2000 5)).resultLen = 0 ∧
    (accept 0x10 { idle (win 1 0x1000 4 0x2000 5) at1000 with mirrors := [(0x2001, 0x2000)] }).byteFree 3 0x2002 = false ∧
    (accept 0x10 { idle (win 1 0x1000 4 0x2000 5) at1000 with mirrors := [(0x2001, 0x2000)] }).byteFree 3 0x2001 = true := by decide
/-- From the state after reset itself: the engine's accesses are answered, whatever the instance. -/
theorem test_from_reset : (engineStep (accept 0x10 { State.reset with ops := win 1 0x1000 4 0x2000 5, mem := at1000 })).bytesAt 0x2000 5 =
    [0x01, 0x2C, 0x01, 0, 0] := by decide

/-! ### States and operands that meet the hypotheses of the statements -/

/-- A CORE busy with the word `w`. -/
def busy (w : Word) (o : Operands) (m : Memory := []) : State := accept w (idle o m)

theorem witness_DecodeEncodeAgree : (Instr.encode8 true).wf = true ∧ 0x109 = encode (.encode8 true) := by decide

theorem witness_IllegalWordsComplete :
    ((busy 0x48 ops).nextTurn = (.engine, busy 0x48 ops) ∧ (busy 0x48 ops).engine = .busy 0x48 ops none ∧
      decode 0x48 = .illegal .reservedLow) ∧
    ((Instr.decode8Delta true).opcode = (Instr.decode8Delta false).opcode ∧ (Instr.decode8Delta true).opcode.toNat < 0x10) := by
  exact ⟨⟨rfl, rfl, rfl⟩, by decide⟩

theorem witness_StepRunsAcceptedCommand :
    ((busy 0x109 ops).nextTurn = (.engine, busy 0x109 ops) ∧ (busy 0x109 ops).engine = .busy 0x109 ops none ∧
      decode 0x109 = .command (.encode8 true) ∧ (Instr.encode8 true).wf = true) ∧
    ((idle ops).turns = [] ∧ (idle ops).nextTurn = (.engine, idle ops) ∧ (idle ops).engine = .idle) ∧
    (let s : State := { idle ops with turns := [.host (.csr (.write 0x018 5))] }
     s.turns = .host (.csr (.write 0x018 5)) :: [] ∧ s.nextTurn = (.host (.csr (.write 0x018 5)), idle ops)) ∧
    decode 0x16 = .command (.readAllDelta false) :=
  ⟨⟨rfl, rfl, rfl, rfl⟩, ⟨rfl, rfl, rfl⟩, ⟨rfl, rfl⟩, rfl⟩

/-- An idle CORE whose host is about to write the word `w` to `CMD`. -/
def commanded (w : Word) : State := { idle ops with turns := [.host (.csr (.write 0x00C w))] }

theorem witness_AcceptStartsCommand :
    (commanded 0x09).engine = .idle ∧ (commanded 0x09).turns = .host (.csr (.write 0x00C 0x09)) :: [] := ⟨rfl, rfl⟩

/-- The offsets of the statements on host writes, at the boundaries of their ranges. -/
def word (off : BitVec 12) : Nat := off.toNat / 4 * 4

theorem witness_BusyDropsWrites :
    (busy 0x10 ops).engine = .busy 0x10 ops none ∧
    word 0x00C = 0x00C ∧ (0x018 ≤ word 0x018 ∧ word 0x02F ≤ 0x02C) ∧ word 0x037 = 0x034 ∧ word 0x038 = 0x038 ∧
    (0x060 ≤ word 0x060 ∧ word 0x09F ≤ 0x09C) ∧ word 0x013 = 0x010 ∧ word 0x017 = 0x014 := by decide

theorem witness_CsrAccessProtocol :
    (0x044 ≤ word 0x044 ∧ word 0x05F ≤ 0x05C) ∧ (0x0A0 ≤ word 0x0A0 ∧ 0x0A0 ≤ word 0xFFF) ∧ word 0x00B ≤ 0x008 ∧ word 0x033 = 0x030 ∧
    word 0x03C = 0x03C ∧ word 0x043 = 0x040 ∧
    (word 0x003 = 0x000 ∧ word 0x004 = 0x004 ∧ word 0x008 = 0x008 ∧ word 0x00F = 0x00C ∧ word 0x010 = 0x010 ∧ word 0x017 = 0x014 ∧
      word 0x018 = 0x018 ∧ word 0x01F = 0x01C ∧ word 0x020 = 0x020 ∧ word 0x027 = 0x024 ∧ word 0x028 = 0x028 ∧ word 0x02F = 0x02C ∧
      word 0x034 = 0x034 ∧ word 0x03B = 0x038) ∧
    (word 0x060 = 0x060 + 4 * (0 : Fin 8).val ∧ word 0x07F = 0x060 + 4 * (7 : Fin 8).val ∧
      word 0x080 = 0x080 + 4 * (0 : Fin 8).val ∧ word 0x09F = 0x080 + 4 * (7 : Fin 8).val) := by decide

theorem witness_CsrWriteThenRead :
    (idle ops).engine = .idle ∧ word 0x00F = 0x00C ∧ (0x018 ≤ word 0x018 ∧ word 0x02C ≤ 0x02C) ∧ (0x060 ≤ word 0x060 ∧ word 0x09F ≤ 0x09C) ∧
    word 0x014 = 0x014 ∧ word 0x034 = 0x034 := by decide

theorem witness_CsrWriteFrame :
    (idle ops).engine = .idle ∧ (0x018 : BitVec 12).toNat / 4 ≠ 0x010 / 4 ∧ (0x010 : BitVec 12).toNat / 4 ≠ (0x018 : BitVec 12).toNat / 4 ∧
    (0x018 : BitVec 12).toNat / 4 ≠ 0x00C / 4 ∧ (0x014 : BitVec 12).toNat / 4 ≠ (0x018 : BitVec 12).toNat / 4 ∧
    (0x014 : BitVec 12).toNat / 4 ≠ 0x010 / 4 := by decide

theorem idle_wf : (idle ops).Wf :=
  ⟨rfl, ⟨by decide, by decide, by decide, by decide⟩, rfl, rfl, by decide, by decide, by decide⟩

theorem busy_wf : (busy 0x09 (group 0 32 0 scenario)).Wf :=
  ⟨rfl, ⟨by decide, by decide, by decide, by decide⟩, ⟨rfl, rfl, rfl, fun _ h => by cases h⟩, rfl, by decide, by decide, by decide⟩

theorem witness_PackLenLegal :
    (idle ops).engine = .idle ∧ (idle ops).Wf ∧ step (idle ops) = .next (idle ops) ∧
    exec (.shufDecRead false) (busy 0x04 ops) = .next (shufRead .dec (busy 0x04 ops)) :=
  ⟨rfl, idle_wf, rfl, rfl⟩

theorem witness_BusyCsrsKeepTheirValues :
    (busy 0x10 ops).engine = .busy 0x10 ops none ∧ (∀ a : Option CsrAccess, HostOp.csr (.write 0x018 9) ≠ .rst a) ∧
    (0x018 : BitVec 12).toNat / 4 ≠ 0x010 / 4 ∧ (0x018 : BitVec 12).toNat / 4 ≠ 0x014 / 4 ∧ (busy 0x10 ops).status.busy = true :=
  ⟨rfl, fun _ => HostOp.noConfusion, by decide, by decide, rfl⟩

theorem witness_InterruptOutput :
    (2 : Word).getLsbD 1 = true ∧ ({ idle ops with status := (idle ops).status.completed, doneEn := true } : State).irq = true := by decide

theorem witness_ResetValues : (some (.read 0x010) : Option CsrAccess) = some (.read 0x010) := rfl

/-- A command just accepted on a platform without mirrors meets R173 and R174. -/
theorem busy_settled (w : Word) (o : Operands) (m : Memory) : (busy w o m).Settled := ⟨rfl, fun _ _ _ _ h => h⟩

/-- So does one on a platform with a mirror of memory outside its windows. -/
theorem mirrored_settled :
    ({ busy 0x10 (win 1 0x1000 4 0x2000 5) at1000 with mirrors := [(0x3000, 0x2005), (0x3001, 0x1003)] } : State).Settled :=
  ⟨rfl, (windowsShare_eq_false _ _).1 (by decide)⟩

/-- Without mirrors a footprint holds every byte at most once. -/
theorem busy_heldOnce (w : Word) (o : Operands) (m : Memory) (len a : Nat) : (busy w o m).HeldOnce len a :=
  fun _ _ _ _ hi hj => Nat.add_left_cancel (hi.trans hj.symm)

/-- On the mirrors of `twice` the byte at 0x2002 is held once, and the one at 0x2000 is not. -/
theorem witness_HeldOnce :
    let s : State := { busy 0x10 (win 1 0x1000 4 0x2000 5) at1000 with mirrors := [(0x2001, 0x2000)] }
    s.Settled ∧ s.HeldOnce 3 0x2002 ∧ ¬ s.HeldOnce 3 0x2000 ∧ (encodeStream [300])[2]? = some 0x01 :=
  ⟨⟨rfl, (windowsShare_eq_false _ _).1 (by decide)⟩, (heldTwice_eq_false _ _ _ _).1 (by decide),
   fun h => by have := h 0 1 (by decide) (by decide) (by decide) (by decide); omega, by decide⟩

theorem witness_ResetAbortsCommand :
    ((busy 0x09 ops).Settled ∧ (busy 0x09 ops).footprint = none) ∧
    ((busy 0x10 (win 1 0x1000 4 0x2000 5) at1000).Settled ∧
      (busy 0x10 (win 1 0x1000 4 0x2000 5) at1000).footprint = some ⟨[0x01, 0x2C, 0x01], true, true⟩) ∧
    (idle ops).engine = .idle ∧
    (busy 0x10 (win 1 0x1000 4 0x2000 5) at1000).engine = .busy 0x10 (win 1 0x1000 4 0x2000 5) none ∧
    ((win 1 0x1000 4 0x2000 5).WindowsOk ∧ 4 * 1 ≤ 4 ∧ (1 + 3) / 4 + 4 * 1 ≤ 5 ∧ ¬ (1 + 3) / 4 + 4 * 1 ≤ 4) ∧
    decode 0x48 = .illegal .reservedLow ∧ decode 0x10 = .command (.writeAll false) ∧ decode 0x12 = .command (.writeAllDelta false) ∧
    decode 0x14 = .command (.readAll false) ∧ decode 0x16 = .command (.readAllDelta false) ∧ decode 0x09 = .command (.encode8 false) ∧
    2 + dataLen ((busy 0x16 (win 5 0x2000 13 0x3000 20 7) deltaMem).bytesAt 0x2000 2) 5 ≤ 13 :=
  ⟨⟨busy_settled _ _ _, by decide⟩, ⟨busy_settled _ _ _, by decide⟩, by unfold Operands.WindowsOk; decide⟩

/-- The footprint in the other states of the statement: a raced encode (its input is that of its accept, not the host's late write), and a
decode whose input window is one byte too short, of which the engine writes nothing. -/
theorem witness_ResetAbortsRacedOrShort :
    ((hostMemWrite 0x1001 7 (busy 0x10 (win 1 0x1000 4 0x2000 5) at1000)).engine =
        .busy 0x10 (win 1 0x1000 4 0x2000 5) (some at1000) ∧
      (hostMemWrite 0x1001 7 (busy 0x10 (win 1 0x1000 4 0x2000 5) at1000)).footprint = some ⟨[0x01, 0x2C, 0x01], true, true⟩) ∧
    (12 < 2 + dataLen ((busy 0x16 (win 5 0x2000 12 0x3000 20 7) deltaMem).bytesAt 0x2000 2) 5 ∧ 2 ≤ 12 ∧
      ((busy 0x16 (win 5 0x2000 12 0x3000 20 7) deltaMem).footprint.map fun f => (f.final.length, f.zeros, f.written)) =
        some (20, false, false)) := by decide

theorem witness_group_encodes :
    totalLength (controlByte scenario.lo) ≤ (busy 0x08 (group 0 5 0 scenario)).operands.packLen.toNat ∧
    (busy 0x08 (group 0 4 0 scenario)).operands.packLen.toNat < totalLength (controlByte scenario.lo) ∧
    totalLength (controlByte scenario.lo) + totalLength (controlByte scenario.hi) ≤ (busy 0x09 (group 0 13 0 scenario)).operands.packLen.toNat ∧
    (busy 0x09 (group 0 12 0 scenario)).operands.packLen.toNat < totalLength (controlByte scenario.lo) + totalLength (controlByte scenario.hi) := by
  decide

theorem witness_group_delta_encodes :
    totalLength (controlByte ⟨10 - 0, 20 - 10, 30 - 20, 40 - 30⟩) ≤ (busy 0x0A (group 0 4 0 deltaVals)).operands.packLen.toNat ∧
    (busy 0x0A (group 0 3 0 deltaVals)).operands.packLen.toNat < totalLength (controlByte ⟨10 - 0, 20 - 10, 30 - 20, 40 - 30⟩) ∧
    totalLength (controlByte (deltaBank 0 deltaVals).lo) + totalLength (controlByte (deltaBank 0 deltaVals).hi) ≤
      (busy 0x0B (group 0 10 0 deltaVals)).operands.packLen.toNat ∧
    (busy 0x0B (group 0 9 0 deltaVals)).operands.packLen.toNat <
      totalLength (controlByte (deltaBank 0 deltaVals).lo) + totalLength (controlByte (deltaBank 0 deltaVals).hi) := by
  decide

theorem witness_group_decodes :
    totalLength 0xFF ≤ (busy 0x0C (group 0xFF 16 0 classes)).operands.packLen.toNat ∧
    (busy 0x0C (group 0xFF 15 0 classes)).operands.packLen.toNat < totalLength 0xFF ∧
    totalLength 0x01 + totalLength 0x43 ≤ (busy 0x0D (group 0x4301 13 0 classes)).operands.packLen.toNat ∧
    (busy 0x0D (group 0x4301 12 0 classes)).operands.packLen.toNat < totalLength 0x01 + totalLength 0x43 := by decide

/-- The hypotheses of the results of the encodes, at the smallest windows. -/
theorem witness_WriteAll :
    let s := busy 0x10 (win 1 0x1000 4 0x2000 5) at1000
    s.Settled ∧ s.MemAnswers ∧ s.operands.WindowsOk ∧ 4 * s.operands.count.toNat ≤ s.operands.srcLen.toNat ∧
      (s.operands.count.toNat + 3) / 4 + 4 * s.operands.count.toNat ≤ s.operands.dstCap.toNat :=
  ⟨busy_settled _ _ _, .inl rfl, by unfold Operands.WindowsOk; decide, by decide, by decide⟩

/-- The same of the decodes, at the shortest input window. -/
theorem witness_ReadAll :
    let s := busy 0x16 (win 5 0x2000 13 0x3000 20 7) deltaMem
    s.Settled ∧ s.MemAnswers ∧ s.operands.WindowsOk ∧
      2 + dataLen (s.bytesAt 0x2000 2) 5 ≤ s.operands.srcLen.toNat ∧ 4 * 5 ≤ s.operands.dstCap.toNat :=
  ⟨busy_settled _ _ _, .inl rfl, by unfold Operands.WindowsOk; decide, by decide, by decide⟩

theorem witness_StreamChecksInOrder :
    ¬ (0xFFFFFFF8 + 16 ≤ 2 ^ 32) ∧ (0xFFFFFFF0 + 16 ≤ 2 ^ 32 ∧ ¬ (0xFFFFFFF0 + 17 ≤ 2 ^ 32)) ∧
    ¬ (win 4 0x1000 16 0x100F 3).WindowsOk ∧ ((win 4 0x1000 15 0x100F 17).WindowsOk ∧ 15 < 4 * 4) ∧
    ((win 4 0x1000 16 0x1010 16).WindowsOk ∧ 4 * 4 ≤ 16 ∧ 16 < (4 + 3) / 4 + 4 * 4) := by
  unfold Operands.WindowsOk; decide

theorem witness_PrepassRejectsShortInput :
    let s := busy 0x16 (win 5 0x2000 12 0x3000 20 7) deltaMem
    s.Settled ∧ s.MemAnswers ∧ s.operands.WindowsOk ∧ 2 ≤ s.operands.srcLen.toNat ∧ 4 * 5 ≤ s.operands.dstCap.toNat ∧
      s.operands.srcLen.toNat < 2 + dataLen (s.bytesAt 0x2000 2) 5 :=
  ⟨busy_settled _ _ _, .inl rfl, by unfold Operands.WindowsOk; decide, by decide, by decide, by decide⟩

/-- The CORE on a memory that answers the access number `k` of the command with `mem_err = 1`, and none before. -/
def faulty (s : State) (k : Nat) : State := { s with memFaults := true, memErrs := List.replicate k false ++ [true] }

/-- An encode at its second access; a decode of 5 values at its last pre-pass access and at the first of its main pass. -/
theorem witness_BusErrorEndsStreamCommand :
    (let s := faulty (busy 0x10 (win 1 0x1000 4 0x2000 5) at1000) 1
     s.Settled ∧ s.memFaults = true ∧ s.operands.WindowsOk ∧ s.memErrs[1]? = some true ∧ (∀ j < 1, s.memErrs[j]? = some false) ∧
     4 * 1 ≤ s.operands.srcLen.toNat ∧ (1 + 3) / 4 + 4 * 1 ≤ s.operands.dstCap.toNat ∧
     1 < (encoderTrace true false 0 0x1000 0x2000 (wordsOf (s.bytesAt 0x1000 4))).length) ∧
    (let s := faulty (busy 0x16 (win 5 0x2000 13 0x3000 20 7) deltaMem) 2
     s.Settled ∧ s.operands.WindowsOk ∧ s.memErrs[2]? = some true ∧ (∀ j < 2, s.memErrs[j]? = some false) ∧
     (5 + 3) / 4 ≤ s.operands.srcLen.toNat ∧ 4 * 5 ≤ s.operands.dstCap.toNat ∧ 1 < (5 + 3) / 4 ∧
     2 + dataLen (s.bytesAt 0x2000 2) 5 ≤ s.operands.srcLen.toNat ∧
     2 < 2 + (decoderTrace true true 7 s.byteAt 0x2000 0x3000 5).length) :=
  ⟨⟨⟨rfl, fun _ _ _ _ h => h⟩, rfl, by unfold Operands.WindowsOk; decide⟩,
   ⟨rfl, fun _ _ _ _ h => h⟩, by unfold Operands.WindowsOk; decide⟩

/-- The pre-pass of a decode whose input window is too short, cut off at its last access. -/
theorem witness_BusErrorEndsShortDecode :
    (let s := faulty (busy 0x16 (win 5 0x2000 12 0x3000 20 7) deltaMem) 1
     s.Settled ∧ s.operands.WindowsOk ∧ 1 < (5 + 3) / 4 ∧ ¬ (2 + dataLen (s.bytesAt 0x2000 2) 5 ≤ s.operands.srcLen.toNat) ∧
     s.memErrs[1]? = some true ∧ (engineStep s).status.toWord = 0x0506 ∧ s.HeldOnce 20 0x3000) :=
  ⟨⟨rfl, fun _ _ _ _ h => h⟩, by unfold Operands.WindowsOk; decide, by decide, by decide, rfl, by decide,
   fun _ _ _ _ hi hj => Nat.add_left_cancel (hi.trans hj.symm)⟩

/-- Both ways in which a command completes: without an error, and with each kind of error on its own ground. -/
theorem witness_CommandsArePrecise :
    groupEncode true false (busy 0x09 (group 0 12 0 scenario)) =
      raiseError (.bufferTooSmall .output 13) (busy 0x09 (group 0 12 0 scenario)) ∧
    (groupEncode true false (busy 0x09 (group 0 13 0 scenario))).status.toWord = 0x0002 ∧
    (Instr.encode8 true).opcode.toNat < 0x10 ∧ ¬ (Instr.writeAll true).opcode.toNat < 0x10 := by decide

theorem witness_EveryStepCompletes : (busy 0x09 ops).isBusy = true ∧ (busy 0x09 ops).nextTurn.1 = .engine := ⟨rfl, rfl⟩

theorem witness_MemoryOutsideFootprint :
    exec (.writeAll false) (busy 0x10 (win 1 0x1000 4 0x2000 5) at1000) =
      .next (streamEncode false false (busy 0x10 (win 1 0x1000 4 0x2000 5) at1000)) ∧
    (Instr.decode8Delta false).opcode.toNat < 0x10 ∧ (Instr.writeAll false).opcode = 0x10 ∧
    (∀ k < 5, cellOf [] (0x2000 + k) ≠ cellOf [] 0x2005) ∧ (Instr.readAllDelta true).opcode = 0x16 ∧
    (∀ k < 4, cellOf [(0x5000, 0x3004)] (0x3000 + k) ≠ cellOf [(0x5000, 0x3004)] 0x5000) := ⟨rfl, by decide⟩

theorem witness_ModeChangesNoResult :
    (Instr.writeAll false).opcode = (Instr.writeAll true).opcode ∧
    ({ busy 0x10 (win 1 0x1000 4 0x2000 5) at1000 with memFaults := true, memErrs := [false, false] } : State).MemAnswers :=
  ⟨rfl, .inr (by decide)⟩

theorem witness_HostReadDuringCommand :
    (let s := busy 0x10 (win 1 0x1000 4 0x2000 5) at1000
     s.Settled ∧ s.footprint = some ⟨[0x01, 0x2C, 0x01], true, true⟩ ∧ s.HeldOnce 3 0x2002 ∧
       ∀ k < 3, cellOf s.mirrors (0x2000 + k) ≠ cellOf s.mirrors 0x2003) ∧
    (hostMemRead 0x3000 (busy 0x16 (win 5 0x2000 12 0x3000 20 7) (deltaMem.write 0x3000 9))).hostRdata = 9 :=
  ⟨⟨busy_settled _ _ _, by decide, busy_heldOnce _ _ _ _ _, by decide⟩, by decide⟩

theorem witness_HostWriteRacesCommand :
    (idle ops).engine = .idle ∧
    (busy 0x10 (win 1 0x1000 4 0x2000 5) at1000).engine = .busy 0x10 (win 1 0x1000 4 0x2000 5) none ∧
    (hostMemWrite 0x2004 1 (busy 0x10 (win 1 0x1000 4 0x2000 5) at1000)).engine = .busy 0x10 (win 1 0x1000 4 0x2000 5) (some at1000) ∧
    (∃ i, decode 0x10 = .command i ∧ 0x10 ≤ i.opcode.toNat) ∧ ¬ ∃ i, decode 0x09 = .command i ∧ 0x10 ≤ i.opcode.toNat :=
  ⟨rfl, rfl, by decide, ⟨_, rfl, by decide⟩, fun ⟨i, h, h2⟩ => by cases h; revert h2; decide⟩

theorem witness_LengthClassLaw : (0x100 : Word) ≠ 0 ∧ 1 ≤ 2 ∧ (0x100 : Word).toNat < 256 ^ 2 := by decide

theorem witness_CodecFunctionsAsWritten :
    3 < 4 ∧ 1 < fieldLen 0x43 3 ∧ totalLength 0x43 ≤ 8 ∧ ([0xFF, 1] : List Byte).length ≤ 4 := by decide

theorem witness_TableConsistency :
    (scenarioBytes ++ [0, 0, 0]).length = 16 ∧ 3 < 4 ∧ (0x07 : Byte) ∈ (shuffleRom .enc 0xFF).filter (· ≠ 0xFF) := by decide

theorem witness_VectorUnpackEqualsScalar : (scenarioBytes ++ [1, 2, 3]).length = 16 := rfl

theorem witness_TierScheduleCovers :
    tierSchedule true 44 = [] ++ .bulk :: List.replicate 3 .full ∧
    tierSchedule false 27 = List.replicate 6 .full ++ .partialGroup 3 :: [] ∧
    tierSchedule true 44 = [.bulk] ++ .full :: List.replicate 2 .full := by decide

theorem witness_EncoderAccesses :
    .read 0x1000 4 ∈ encoderTrace true false 0 0x1000 0x2000 [300] ∧
    .write 0x2001 [0x2C, 0x01] ∈ encoderTrace true false 0 0x1000 0x2000 [300] := by decide

theorem witness_DecoderAccesses :
    .read 0x2000 1 ∈ prepassTrace 0x2000 ((1 + 3) / 4) ∧ 0x2000 < 0x2000 + (1 + 3) / 4 ∧
    .read 0x2001 2 ∈ decoderTrace true false 0 (fun a => [0xC1, 0x2C, 0x01].getD (a - 0x2000) 0) 0x2000 0x3000 1 ∧
    .write 0x3000 [0x2C, 0x01, 0, 0] ∈ decoderTrace true false 0 (fun a => [0xC1, 0x2C, 0x01].getD (a - 0x2000) 0) 0x2000 0x3000 1 := by decide

theorem witness_StepKeepsWf :
    (busy 0x09 (group 0 32 0 scenario)).Wf ∧
    step (busy 0x09 (group 0 32 0 scenario)) = .next (groupEncode true false (busy 0x09 (group 0 32 0 scenario))) := ⟨busy_wf, rfl⟩

end Sys2Proof.Tests
end

section
/-! Proofs about the CSR block, host writes and one turn of the machine (10_state.md R15, R24, R31, R42, R43). -/

namespace Sys2Proof.Machine

/-! ### Whose turn it is -/

theorem nextTurn_of_turns {s : State} {t : Turn} {ts : List Turn} (h : s.turns = t :: ts) :
    s.nextTurn = (t, { s with turns := ts }) := by
  simp [State.nextTurn, h]

@[simp] theorem nextTurn_ops (s : State) : s.nextTurn.2.ops = s.ops := by
  obtain ⟨ts, h⟩ := nextTurn_state s
  rw [h]

theorem isBusy_of_idle {s : State} (h : s.engine = .idle) : s.isBusy = false := by
  simp [State.isBusy, h]

theorem isBusy_of_busy {s : State} {cmd : Word} {snap : Operands} {r : Option Memory} (h : s.engine = .busy cmd snap r) :
    s.isBusy = true := by
  simp [State.isBusy, h]

/-! ### The CSR map and host writes -/

theorem csrRead_of_csrAt {off : BitVec 12} {r : CsrName} (h : csrAt off = some r) (s : State) : csrRead off s = csrValue r s := by
  simp [csrRead, h]

theorem csrWrite_of_csrAt {off : BitVec 12} {r : CsrName} (h : csrAt off = some r) (w : Word) (s : State) :
    csrWrite off w s = csrWriteNamed r w s := by
  simp [csrWrite, h]

theorem csrWrite_of_no_csr {off : BitVec 12} (h : csrAt off = none) (w : Word) (s : State) : csrWrite off w s = s := by
  simp [csrWrite, h]

theorem csrWriteNamed_readOnly {r : CsrName} (h : writeKind r = .readOnly) (w : Word) (s : State) : csrWriteNamed r w s = s := by
  simp [csrWriteNamed, h]

theorem csrWriteNamed_always {r : CsrName} (h : writeKind r = .always) (w : Word) (s : State) :
    csrWriteNamed r w s = csrStore r w s := by
  simp [csrWriteNamed, h]

theorem csrWriteNamed_dropped {r : CsrName} (h : writeKind r = .whileIdle) (w : Word) {s : State} (hb : s.isBusy = true) :
    csrWriteNamed r w s = { s with status := s.status.overran } := by
  simp [csrWriteNamed, h, hb]

theorem csrWriteNamed_taken {r : CsrName} (h : writeKind r = .whileIdle) (w : Word) {s : State} (hb : s.isBusy = false) :
    csrWriteNamed r w s = csrStore r w s := by
  simp [csrWriteNamed, h, hb]

/-- The offset column of R16, in words: the inverse of `csrAt`. -/
def csrIndex : CsrName → Nat
  | .id => 0x000 / 4
  | .caps => 0x004 / 4
  | .mode => 0x008 / 4
  | .cmd => 0x00C / 4
  | .status => 0x010 / 4
  | .irqEn => 0x014 / 4
  | .count => 0x018 / 4
  | .prev => 0x01C / 4
  | .srcAddr => 0x020 / 4
  | .srcLen => 0x024 / 4
  | .dstAddr => 0x028 / 4
  | .dstCap => 0x02C / 4
  | .resultLen => 0x030 / 4
  | .ctrlIo => 0x034 / 4
  | .packLen => 0x038 / 4
  | .lens => 0x03C / 4
  | .lensHi => 0x040 / 4
  | .val k => 0x060 / 4 + k.val
  | .pack k => 0x080 / 4 + k.val

/-- R15, R16: every offset of a CSR's word names that CSR. -/
theorem csrAt_of_index {off : BitVec 12} {r : CsrName} (h : off.toNat / 4 = csrIndex r) : csrAt off = some r := by
  cases r with simp only [csrIndex] at h
  | val k | pack k => fin_cases k <;> simp [csrAt, h]
  | _ => simp [csrAt, h]

/-- The access column of R16 and R43 by offset: at `CMD` and at the operand CSRs stands a CSR whose write a BUSY engine drops. -/
theorem exists_whileIdle_of_index {j : Nat}
    (h : j * 4 = 0x00C ∨ (0x018 ≤ j * 4 ∧ j * 4 ≤ 0x02C) ∨ j * 4 = 0x034 ∨ j * 4 = 0x038 ∨ (0x060 ≤ j * 4 ∧ j * 4 ≤ 0x09C)) :
    ∃ r, j = csrIndex r ∧ writeKind r = .whileIdle := by
  obtain h | ⟨hlo, hhi⟩ | h | h | ⟨hlo, hhi⟩ := h
  · exact ⟨.cmd, by simp only [csrIndex]; omega, rfl⟩
  · have h6 : 6 ≤ j := by omega
    have h11 : j ≤ 11 := by omega
    interval_cases j
    exacts [⟨.count, rfl, rfl⟩, ⟨.prev, rfl, rfl⟩, ⟨.srcAddr, rfl, rfl⟩, ⟨.srcLen, rfl, rfl⟩, ⟨.dstAddr, rfl, rfl⟩,
      ⟨.dstCap, rfl, rfl⟩]
  · exact ⟨.ctrlIo, by simp only [csrIndex]; omega, rfl⟩
  · exact ⟨.packLen, by simp only [csrIndex]; omega, rfl⟩
  · by_cases hv : j < 32
    · exact ⟨.val ⟨j - 24, by omega⟩, by simp only [csrIndex]; omega, rfl⟩
    · exact ⟨.pack ⟨j - 32, by omega⟩, by simp only [csrIndex]; omega, rfl⟩

/-- R24: a write to `STATUS` is never dropped. -/
theorem csrWrite_status {off : BitVec 12} (h : csrAt off = some .status) (w : Word) (s : State) :
    csrWrite off w s = acknowledge w s := by
  rw [csrWrite_of_csrAt h, csrWriteNamed_always rfl]; rfl

/-- R25: a write to `IRQ_EN` is never dropped. -/
theorem csrWrite_irqEn {off : BitVec 12} (h : csrAt off = some .irqEn) (w : Word) (s : State) :
    csrWrite off w s = { s with doneEn := w.getLsbD 0 } := by
  rw [csrWrite_of_csrAt h, csrWriteNamed_always rfl]; rfl

/-- R42: a write to `CMD` of an idle CORE is an accept. -/
theorem csrWrite_cmd_of_idle {off : BitVec 12} (h : csrAt off = some .cmd) (w : Word) {s : State} (hi : s.engine = .idle) :
    csrWrite off w s = accept w s := by
  rw [csrWrite_of_csrAt h, csrWriteNamed_taken rfl w (isBusy_of_idle hi)]; rfl

/-- What taking a host write can do: accept, acknowledgement, the interrupt enable, or an operand. -/
theorem csrStore_cases (r : CsrName) (w : Word) (s : State) :
    csrStore r w s = accept w s ∨ csrStore r w s = acknowledge w s ∨ csrStore r w s = { s with doneEn := w.getLsbD 0 } ∨
      csrStore r w s = { s with ops := operandWrite r w s.ops } := by
  unfold csrStore
  split
  · exact .inl rfl
  · exact .inr (.inl rfl)
  · exact .inr (.inr (.inl rfl))
  · exact .inr (.inr (.inr rfl))

/-- What a host write at any offset can do: nothing, set `OVERRUN`, or be taken by the CSR there. -/
theorem csrWrite_cases (off : BitVec 12) (w : Word) (s : State) :
    csrWrite off w s = s ∨ (s.isBusy = true ∧ csrWrite off w s = { s with status := s.status.overran }) ∨
      ∃ r, csrAt off = some r ∧ (writeKind r = .always ∨ s.isBusy = false) ∧ csrWrite off w s = csrStore r w s := by
  cases hr : csrAt off with
  | none => exact .inl (csrWrite_of_no_csr hr w s)
  | some r =>
    rw [csrWrite_of_csrAt hr]
    cases hk : writeKind r with
    | readOnly => exact .inl (csrWriteNamed_readOnly hk w s)
    | always => exact .inr (.inr ⟨r, rfl, .inl hk, csrWriteNamed_always hk w s⟩)
    | whileIdle =>
      cases hb : s.isBusy with
      | true => exact .inr (.inl ⟨rfl, csrWriteNamed_dropped hk w hb⟩)
      | false => exact .inr (.inr ⟨r, rfl, .inr rfl, csrWriteNamed_taken hk w hb⟩)

/-- R24 field by field: where its bit of the written word is 1 a flag is cleared, elsewhere it is kept. -/
theorem Status.hostWrite_eq (st : Status) (w : Word) :
    st.hostWrite w = {
      busy := st.busy
      done := if w.getLsbD 1 then false else st.done
      err := if w.getLsbD 2 then false else st.err
      overrun := if w.getLsbD 3 then false else st.overrun
      errCode := if w.getLsbD 2 then 0 else st.errCode
      errWin := if w.getLsbD 2 then false else st.errWin } := by
  have clears (b x : Bool) : (x && !b) = if b then false else x := by cases b <;> simp
  simp only [Status.hostWrite, clears]

/-! ### `PACK_LEN` (R31) -/

theorem csrRead_packLen (s : State) : csrRead 0x038 s = s.ops.packLen.setWidth 32 :=
  csrRead_of_csrAt (r := .packLen) rfl s

theorem csrRead_packLen_toNat (s : State) : (csrRead 0x038 s).toNat = s.ops.packLen.toNat := by
  rw [csrRead_packLen]
  exact BitVec.toNat_setWidth_of_le (by decide)

theorem packLenOf_toNat (w : Word) : (packLenOf w).toNat = min (w.toNat % 64) 32 := by
  have field : (w.extractLsb' 0 6).toNat = w.toNat % 64 := by simp [BitVec.extractLsb'_toNat]
  unfold packLenOf
  rw [field]
  split
  · next h =>
    have large : 32 < w.toNat % 64 := h
    simp only [Config.packBytes, BitVec.toNat_ofNat]
    omega
  · next h =>
    have small : ¬ 32 < w.toNat % 64 := h
    rw [field]
    omega

theorem packLenOf_le (w : Word) : (packLenOf w).toNat ≤ 32 := by
  rw [packLenOf_toNat]; exact Nat.min_le_right _ _

theorem operandWrite_packLen_le (r : CsrName) (w : Word) (o : Operands) (h : o.packLen.toNat ≤ 32) :
    (operandWrite r w o).packLen.toNat ≤ 32 := by
  cases r
  case packLen => exact packLenOf_le w
  all_goals exact h

theorem csrWrite_packLen_le (off : BitVec 12) (w : Word) (s : State) (h : s.ops.packLen.toNat ≤ 32) :
    (csrWrite off w s).ops.packLen.toNat ≤ 32 := by
  obtain e | ⟨-, e⟩ | ⟨r, -, -, e⟩ := csrWrite_cases off w s
  · rwa [e]
  · rwa [e]
  · rw [e]
    obtain e | e | e | e := csrStore_cases r w s
    · rwa [e]
    · rwa [e]
    · rwa [e]
    · rw [e]; exact operandWrite_packLen_le r w s.ops h

@[simp] theorem hostMemRead_ops (addr : Word) (s : State) : (hostMemRead addr s).ops = s.ops := by
  unfold hostMemRead
  split <;> rfl

@[simp] theorem hostReset_ops (s : State) : (hostReset s).ops = Operands.reset := by
  unfold hostReset
  split <;> rfl

@[simp] theorem accessInReset_ops (a : Option CsrAccess) (s : State) : (accessInReset a s).ops = s.ops := by
  unfold accessInReset
  split <;> rfl

/-- The host writes `PACK_LEN` through the CSR port and through reset only, and neither leaves more than 32. -/
theorem hostOp_packLen_le (op : HostOp) (s : State) (h : s.ops.packLen.toNat ≤ 32) : (hostOp op s).ops.packLen.toNat ≤ 32 := by
  cases op with
  | idle => exact h
  | csr a =>
    cases a with
    | read off => exact h
    | write off w => exact csrWrite_packLen_le off w s h
  | memRead addr => simpa [hostOp] using h
  | memWrite addr b => exact h
  | rst a => simp [hostOp, Operands.reset]

/-! ### No command writes `PACK_LEN` -/

@[simp] theorem shufRead_packLen (bank : ShufBank) (s : State) : (shufRead bank s).ops.packLen = s.ops.packLen := rfl

@[simp] theorem ctrlResult_packLen (w : BitVec 16) (total : Nat) (s : State) :
    (ctrlResult w total s).ops.packLen = s.ops.packLen := rfl

@[simp] theorem groupEncode_packLen (w8 delta : Bool) (s : State) : (groupEncode w8 delta s).ops.packLen = s.ops.packLen := by
  obtain ⟨-, e⟩ | ⟨-, e⟩ := groupEncode_cases w8 delta s <;> simp [e]

@[simp] theorem groupDecode_packLen (w8 delta : Bool) (s : State) : (groupDecode w8 delta s).ops.packLen = s.ops.packLen := by
  obtain ⟨-, e⟩ | ⟨-, e⟩ := groupDecode_cases w8 delta s <;> simp [e]

@[simp] theorem transferDone_packLen (p : StreamPlan) (s : State) : (transferDone p s).ops.packLen = s.ops.packLen := rfl

@[simp] theorem transferFree_packLen (p : StreamPlan) (s : State) : (transferFree p s).ops.packLen = s.ops.packLen := rfl

@[simp] theorem runTransfer_packLen (z : Bool) (tr : List Access) (p : StreamPlan) (s : State) :
    (runTransfer z tr p s).ops.packLen = s.ops.packLen := by
  obtain ⟨-, e⟩ | ⟨-, e⟩ | ⟨-, e⟩ := runTransfer_cases z tr p s <;> simp [e]

@[simp] theorem streamEncode_packLen (delta fs : Bool) (s : State) : (streamEncode delta fs s).ops.packLen = s.ops.packLen := by
  obtain ⟨_, -, e⟩ | ⟨-, _, e⟩ := streamEncode_cases delta fs s <;> simp [e]

@[simp] theorem streamDecode_packLen (delta fs : Bool) (s : State) : (streamDecode delta fs s).ops.packLen = s.ops.packLen := by
  obtain ⟨_, -, e⟩ | ⟨-, _, ⟨-, e⟩ | ⟨-, e⟩ | ⟨-, _, e⟩⟩ := streamDecode_cases delta fs s <;> simp [e]

/-- R31: `PACK_LEN` is an operand of commands and a result of none. -/
theorem exec_packLen {i : Instr} {s t : State} (h : exec i s = .next t) : t.ops.packLen = s.ops.packLen := by
  cases i <;> cases h
  case lenLookup | lenLookupWord => rfl
  case shufEncRead | shufDecRead => exact shufRead_packLen _ s
  case ctrlByte | ctrlWord => exact ctrlResult_packLen _ _ s
  case encode4 | encode8 | encode4Delta | encode8Delta => exact groupEncode_packLen _ _ s
  case decode4 | decode8 | decode4Delta | decode8Delta => exact groupDecode_packLen _ _ s
  case writeAll fs | writeAllDelta fs => exact streamEncode_packLen _ fs s
  case readAll fs | readAllDelta fs => exact streamDecode_packLen _ fs s

theorem engineTurn_packLen {s t : State} (h : engineTurn exec s = .next t) : t.ops.packLen = s.ops.packLen := by
  unfold engineTurn at h
  split at h
  · cases h; rfl
  · split at h
    · exact exec_packLen h
    · cases h; rfl

/-- R31 as a step invariant: every turn keeps `PACK_LEN` at most 32. -/
theorem step_packLen_le {s t : State} (hs : s.ops.packLen.toNat ≤ 32) (h : step s = .next t) : t.ops.packLen.toNat ≤ 32 := by
  rcases ht : s.nextTurn with ⟨turn, s'⟩
  have hs' : s'.ops.packLen.toNat ≤ 32 := by
    have e := nextTurn_ops s
    rw [ht] at e
    rwa [e]
  cases turn with
  | engine =>
    rw [step_engine s s' ht] at h
    rwa [engineTurn_packLen h]
  | host op =>
    rw [step_host s s' op ht] at h
    cases h
    exact hostOp_packLen_le op s' hs'

/-! ### The obligations -/

/-- Settles O6: a BUSY engine drops the write of every `whileIdle` CSR, and the other two CSRs take theirs in every engine state. -/
theorem busyDropsWrites : Obligations.BusyDropsWrites := by
  intro s cmd snap r off w hb
  refine ⟨fun ho => ?_, fun ho => ?_, fun ho => ?_⟩
  · obtain ⟨r, hr, hk⟩ := exists_whileIdle_of_index ho
    rw [csrWrite_of_csrAt (csrAt_of_index hr), csrWriteNamed_dropped hk w (isBusy_of_busy hb)]
    rfl
  · exact csrWrite_status (csrAt_of_index (by simp only [csrIndex]; omega)) w s
  · exact csrWrite_irqEn (csrAt_of_index (by simp only [csrIndex]; omega)) w s

/-- Settles O11: the stored value from `packLenOf`, the bound as a step invariant, the frame over all commands. -/
theorem packLenLegal : Obligations.PackLenLegal := by
  refine ⟨fun s w hi => ?_, fun s => ?_, fun s t hs h => ?_, rfl, fun i s t h => exec_packLen h⟩
  · have stored : (csrWrite 0x038 w s).ops.packLen = packLenOf w := by
      rw [csrWrite_of_csrAt (r := .packLen) rfl, csrWriteNamed_taken rfl w (isBusy_of_idle hi)]; rfl
    apply BitVec.eq_of_toNat_eq
    rw [csrRead_packLen_toNat, stored, packLenOf_toNat, BitVec.toNat_ofNat]
    omega
  · have raz : ∀ x : BitVec 6, x.setWidth 32 &&& 0xFFFFFFC0 = 0#32 := by decide
    rw [csrRead_packLen]
    exact raz _
  · rw [csrRead_packLen_toNat]
    exact step_packLen_le hs.pack_len_le h

/-- Settles O5: the host's turn is a write to `CMD` of an idle CORE, which is an accept. -/
theorem acceptStartsCommand : Obligations.AcceptStartsCommand := by
  intro s w ts hi ht
  rw [step_host s _ _ (nextTurn_of_turns ht)]
  exact congrArg Host.Outcome.next (csrWrite_cmd_of_idle (off := 0x00C) rfl w (s := { s with turns := ts }) hi)

/-- Settles O7: a write to `STATUS` is the acknowledgement, whose flags are those of `Status.hostWrite_eq`. -/
theorem statusWriteClears : Obligations.StatusWriteClears := by
  intro s w
  rw [csrWrite_status rfl, acknowledge, Status.hostWrite_eq]

end Sys2Proof.Machine
end

section
/-! Proofs about the command word and the length of a stream (30_encoding.md R69 to R71, R77). -/

namespace Sys2Proof.Machine

/-! ### Illegal words (R71) -/

/-- The opcode map of R70 has a hole exactly at the opcodes that R71 lists. -/
theorem opcodeMap_eq_illegal_iff (op : BitVec 6) (fs : Bool) (why : IllegalWord) :
    opcodeMap op fs = .illegal why ↔ illegalOpcode op = true ∧ why = .unmappedOpcode := by
  revert op fs
  cases why <;> decide

/-- R71: the illegal words are those whose fields are not well formed. -/
theorem exists_decode_eq_illegal_iff (w : Word) : (∃ why, decode w = .illegal why) ↔ (fieldsOfWord w).wf = false := by
  by_cases hhigh : (fieldsOfWord w).reservedHigh = 0#23
  · by_cases hlow : (fieldsOfWord w).reservedLow = 0#2
    · simp [decode, CommandFields.wf, hhigh, hlow, opcodeMap_eq_illegal_iff]
    · simp [decode, CommandFields.wf, hhigh, hlow]
  · simp [decode, CommandFields.wf, hhigh]

theorem illegalOpcode_iff (op : BitVec 6) :
    illegalOpcode op = true ↔ op.toNat ∈ [0x00, 0x07, 0x11, 0x13, 0x15] ∨ 0x17 ≤ op.toNat := by
  revert op
  decide

theorem CommandFields.wf_eq_false_iff (f : CommandFields) :
    f.wf = false ↔ f.reservedHigh ≠ 0 ∨ f.reservedLow ≠ 0 ∨
      f.opcode.toNat ∈ [0x00, 0x07, 0x11, 0x13, 0x15] ∨ 0x17 ≤ f.opcode.toNat := by
  rw [← illegalOpcode_iff]
  simp [CommandFields.wf, imp_iff_not_or, or_assoc]

/-- R69: bit [8] of a word is its `FORCE_SCALAR` field and stands in no other field. -/
theorem fieldsOfWord_flip_forceScalar (w : Word) :
    fieldsOfWord (w ^^^ 0x100) = { fieldsOfWord w with forceScalar := !(fieldsOfWord w).forceScalar } := by
  simp [fieldsOfWord, BitVec.extractLsb'_xor]

/-- R71: `FORCE_SCALAR` is legal, clear or set, wherever the other is. -/
theorem fieldsOfWord_flip_wf (w : Word) : (fieldsOfWord (w ^^^ 0x100)).wf = (fieldsOfWord w).wf := by
  rw [fieldsOfWord_flip_forceScalar]
  rfl

@[simp] theorem nextTurn_engine (s : State) : s.nextTurn.2.engine = s.engine := by
  obtain ⟨ts, h⟩ := nextTurn_state s
  rw [h]

/-- R71 at the engine's turn: an accepted illegal word ends in `ILLEGAL_CMD`. -/
theorem engineTurn_of_illegal (run : Instr → State → Host.Outcome State Fault Refusal) {s : State} {w : Word} {snap : Operands}
    {r : Option Memory} {why : IllegalWord} (hb : s.engine = .busy w snap r) (hd : decode w = .illegal why) :
    engineTurn run s = .next (raiseError .illegalCmd s) := by
  simp [engineTurn, hb, hd]

/-! ### `FORCE_SCALAR` below opcode 0x10 (R71) -/

/-- R70: the map gives a command back from its opcode and its `FORCE_SCALAR`. -/
theorem opcodeMap_opcode (i : Instr) : opcodeMap i.opcode i.forceScalar = .command i := by
  cases i <;> rfl

/-- R71: outside the stream family the command at an opcode does the same for either `FORCE_SCALAR`. -/
theorem exec_of_opcodeMap_opcode {i j : Instr} {fs : Bool} (hi : i.opcode.toNat < 0x10) (hj : opcodeMap i.opcode fs = .command j)
    (s : State) : exec i s = exec j s := by
  cases i
  case writeAll | writeAllDelta | readAll | readAllDelta => simp [Instr.opcode] at hi
  all_goals cases hj; rfl

/-! ### The length of a stream (R77) -/

theorem chunks_flatten (w : List Word) : (chunks w).flatten = w := by
  fun_induction chunks w with
  | case5 a b c d rest ih => simp [ih]
  | _ => rfl

/-- R76: a stream has `G` groups. -/
theorem chunks_length (w : List Word) : (chunks w).length = ctrlCount w.length := by
  fun_induction chunks w with
  | case5 a b c d rest ih => simp only [List.length_cons, ih, ctrlCount]; omega
  | _ => simp [ctrlCount]

theorem length_of_mem_chunks {w g : List Word} (hg : g ∈ chunks w) : 1 ≤ g.length ∧ g.length ≤ 4 := by
  fun_induction chunks w with
  | case1 => cases hg
  | case2 | case3 | case4 => cases List.mem_singleton.mp hg; simp
  | case5 a b c d rest ih =>
    obtain rfl | hg := List.mem_cons.mp hg
    · simp
    · exact ih hg

theorem lc_zero : lc 0#32 = 1 := rfl

/-- R133: an unused lane has value 0 and so adds one byte to its group's total. -/
theorem totalLength_chunkCtrl {g : List Word} (hg : g.length ≤ 4) :
    totalLength (chunkCtrl g) = (g.map lc).sum + (4 - g.length) := by
  rw [chunkCtrl, encodeGroup, totalLength_controlByte]
  match g with
  | [] | [_] | [_, _] | [_, _, _] | [_, _, _, _] => simp +arith [lanesOf, lc_zero]
  | _ :: _ :: _ :: _ :: _ :: _ => simp only [List.length_cons] at hg; omega

/-- R133: a group's data are its real values' bytes. -/
theorem chunkData_length {g : List Word} (hg : g.length ≤ 4) : (chunkData g).length = (g.map lc).sum := by
  have hbytes : (encodeGroup (lanesOf g)).2.length = totalLength (chunkCtrl g) := groupBytes_length _
  rw [chunkData, List.length_take, hbytes, totalLength_chunkCtrl hg]
  omega

/-- R77: `G` control bytes, then the bytes of every value. -/
theorem encodeStream_length (w : List Word) : (encodeStream w).length = ctrlCount w.length + (w.map lc).sum := by
  have hdata : ((chunks w).flatMap chunkData).length = (w.map lc).sum := by
    calc ((chunks w).flatMap chunkData).length
        = ((chunks w).map fun g => (chunkData g).length).sum := List.length_flatMap
      _ = ((chunks w).map fun g => (g.map lc).sum).sum :=
          congrArg List.sum (List.map_congr_left fun g hg => chunkData_length (length_of_mem_chunks hg).2)
      _ = ((chunks w).flatten.map lc).sum := by simp [List.map_flatten, List.sum_flatten, Function.comp_def]
      _ = (w.map lc).sum := by rw [chunks_flatten]
  rw [encodeStream, List.length_append, List.length_map, chunks_length, hdata]

/-- R77: a value has 1 to 4 bytes. -/
theorem sum_map_lc_bounds (w : List Word) : w.length ≤ (w.map lc).sum ∧ (w.map lc).sum ≤ 4 * w.length := by
  induction w with
  | nil => simp
  | cons v vs ih =>
    obtain ⟨hlo, hhi⟩ := lc_bounds v
    simp only [List.map_cons, List.sum_cons, List.length_cons]
    omega

/-! ### The obligations -/

/-- Settles O2: legality is the well-formedness of the fields, which `FORCE_SCALAR` is no part of; an illegal word's turn is
`raiseError`; and below 0x10 the commands at an opcode mean the same. -/
theorem illegalWordsComplete : Obligations.IllegalWordsComplete := by
  refine ⟨fun w => ?_, fun s s' w snap r why ht hb hd => ?_, fun w => ?_, fun i j s ho hi => ?_⟩
  · rw [exists_decode_eq_illegal_iff, CommandFields.wf_eq_false_iff]
    rfl
  · have hb' : s'.engine = .busy w snap r := by
      have he := nextTurn_engine s
      rw [ht] at he
      exact he.trans hb
    rw [step_engine s s' ht, engineTurn_of_illegal exec hb' hd]
    rfl
  · rw [exists_decode_eq_illegal_iff, exists_decode_eq_illegal_iff, fieldsOfWord_flip_wf]
  · exact exec_of_opcodeMap_opcode hi (ho ▸ opcodeMap_opcode j) s

/-- Settles O52: the length is that of the groups' control bytes and data, and every length class is 1 to 4. -/
theorem streamLength : Obligations.StreamLength := by
  intro w
  obtain ⟨hlo, hhi⟩ := sum_map_lc_bounds w
  rw [encodeStream_length, ctrlCount]
  exact ⟨rfl, Nat.add_le_add_left hlo _, Nat.add_le_add_left hhi _⟩

end Sys2Proof.Machine
end

section
/-! Proofs about byte order, register banks and the table ROMs (30_encoding.md R78; 40_tables.md R81 to R96). -/

namespace Sys2Proof.Machine

/-! ### Byte order (R11) -/

theorem byteOf_toNat (v : Word) (k : Nat) : (byteOf v k).toNat = v.toNat / 256 ^ k % 256 := by
  rw [byteOf, BitVec.extractLsb'_toNat, Nat.shiftRight_eq_div_pow, Nat.pow_mul]

theorem lebytes_getElem? (v : Word) {n k : Nat} (h : k < n) : (lebytes v n)[k]? = some (byteOf v k) := by
  simp [lebytes, h]

theorem leNat_lt (bs : List Byte) : leNat bs < 256 ^ bs.length := by
  induction bs with
  | nil => simp [leNat]
  | cons b bs ih =>
    have hb := b.isLt
    rw [leNat, List.length_cons, Nat.pow_succ]
    omega

/-- The bytes of `le(s)` are those of `s`, then zeros. -/
theorem leNat_div_mod (bs : List Byte) (k : Nat) : leNat bs / 256 ^ k % 256 = (bs.getD k 0).toNat := by
  induction bs generalizing k with
  | nil => simp [leNat]
  | cons b bs ih =>
    have hb := b.isLt
    cases k with
    | zero => simp only [leNat, List.getD_cons_zero]; omega
    | succ k =>
      have tail : leNat (b :: bs) / 256 = leNat bs := by rw [leNat]; omega
      rw [Nat.pow_succ', ← Nat.div_div_eq_div_mul, tail, ih, List.getD_cons_succ]

theorem le_toNat {bs : List Byte} (h : bs.length ≤ 4) : (le bs).toNat = leNat bs := by
  rw [le, BitVec.toNat_ofNat]
  exact Nat.mod_eq_of_lt ((leNat_lt bs).trans_le (Nat.pow_le_pow_right (by decide) h))

theorem byteOf_le {bs : List Byte} (h : bs.length ≤ 4) (k : Nat) : byteOf (le bs) k = bs.getD k 0 :=
  BitVec.eq_of_toNat_eq (by rw [byteOf_toNat, le_toNat h, leNat_div_mod])

/-! ### Register banks (R78) -/

theorem bytesOfWords_getElem? (ws : List Word) (j : Nat) {k : Nat} (h : k < 4) :
    (bytesOfWords ws)[4 * j + k]? = ws[j]?.map (byteOf · k) := by
  induction ws generalizing j with
  | nil => rfl
  | cons w ws ih =>
    have cons : bytesOfWords (w :: ws) = lebytes w 4 ++ bytesOfWords ws := rfl
    cases j with
    | zero =>
      rw [cons, List.getElem?_append_left (by rw [lebytes_length]; omega), Nat.mul_zero, Nat.zero_add, lebytes_getElem? w h]
      rfl
    | succ j =>
      rw [cons, List.getElem?_append_right (by rw [lebytes_length]; omega), lebytes_length, List.getElem?_cons_succ, ← ih]
      congr 1
      omega

theorem Bank.toList_getElem? (b : Bank) (j : Fin 8) : b.toList[j.val]? = some (bankGet b j) := by
  fin_cases j <;> rfl

theorem packBytes_getElem? (b : Bank) (j : Fin 8) {k : Nat} (h : k < 4) :
    (packBytes b)[4 * j.val + k]? = some (byteOf (bankGet b j) k) := by
  rw [packBytes, bytesOfWords_getElem? _ _ h, Bank.toList_getElem?]; rfl

theorem bankGet_packOf (bytes : List Byte) (j : Fin 8) :
    bankGet (packOf bytes) j = le ((List.range 4).map fun b => bytes.getD (4 * j.val + b) 0) := by
  fin_cases j <;> rfl

/-- The packed window that holds `bytes` reads back as `bytes`, zero above them. -/
theorem packBytes_packOf_getElem? (bytes : List Byte) {k : Nat} (h : k < 32) :
    (packBytes (packOf bytes))[k]? = some (bytes.getD k 0) := by
  have hk : k % 4 < 4 := by omega
  have reg := packBytes_getElem? (packOf bytes) ⟨k / 4, by omega⟩ hk
  rw [bankGet_packOf, byteOf_le (by simp), Nat.div_add_mod] at reg
  rw [reg, List.getD_eq_getElem?_getD (i := k % 4)]
  simp [hk, Nat.div_add_mod]

/-- R15, R16: register `j` of the bank at `base` has the offset `base + 4j`. -/
theorem bankOffset_div_four {base : Nat} (hbase : base < 0x100) (haligned : base % 4 = 0) (j : Fin 8) :
    (BitVec.ofNat 12 (base + 4 * j.val)).toNat / 4 = base / 4 + j.val := by
  rw [BitVec.toNat_ofNat]
  omega

/-- R33: a host read of `VAL_j`. -/
theorem csrRead_val (s : State) (j : Fin 8) : csrRead (BitVec.ofNat 12 (0x060 + 4 * j.val)) s = bankGet s.ops.vals j :=
  csrRead_of_csrAt (csrAt_of_index (r := .val j) (bankOffset_div_four (by decide) (by decide) j)) s

/-- R34: a host read of `PACK_j`. -/
theorem csrRead_pack (s : State) (j : Fin 8) : csrRead (BitVec.ofNat 12 (0x080 + 4 * j.val)) s = bankGet s.ops.pack j :=
  csrRead_of_csrAt (csrAt_of_index (r := .pack j) (bankOffset_div_four (by decide) (by decide) j)) s

/-! ### Lengths and offsets (R81, R82, R84) -/

theorem fieldLen_eq (c : Byte) (i : Nat) : fieldLen c i = c.toNat / 4 ^ i % 4 + 1 := by
  rw [fieldLen, BitVec.extractLsb'_toNat, Nat.shiftRight_eq_div_pow, Nat.pow_mul]

theorem fieldOffset_eq_sum (c : Byte) (i : Nat) : fieldOffset c i = ((List.range i).map (fieldLen c)).sum := by
  induction i with
  | zero => rfl
  | succ i ih => rw [fieldOffset, ih, List.sum_range_succ]

/-- The bytes of the value `i` end inside the group's packed bytes. -/
theorem fieldOffset_add_lt {c : Byte} {i b : Nat} (hi : i < 4) (hb : b < fieldLen c i) : fieldOffset c i + b < totalLength c := by
  obtain ⟨o0, o1, o2, o3, -⟩ := fieldOffset_eq c
  have total := totalLength_eq c
  interval_cases i <;> omega

theorem controlByte_toNat (q : Quad) :
    (controlByte q).toNat = (lc q.q0 - 1) + 4 * (lc q.q1 - 1) + 16 * (lc q.q2 - 1) + 64 * (lc q.q3 - 1) := by
  have h0 := lc_bounds q.q0
  have h1 := lc_bounds q.q1
  have h2 := lc_bounds q.q2
  have h3 := lc_bounds q.q3
  rw [controlByte, BitVec.toNat_ofNat]
  omega

/-! ### The shuffle rows (R86 to R88) -/

theorem laneAt_fieldOffset_add {c : Byte} {i b : Nat} (hi : i < 4) (hb : b < fieldLen c i) :
    laneAt c (fieldOffset c i + b) = i := by
  obtain ⟨o0, o1, o2, o3, -⟩ := fieldOffset_eq c
  unfold laneAt
  interval_cases i <;> split_ifs <;> omega

theorem encShuf_fieldOffset_add {c : Byte} {i b : Nat} (hi : i < 4) (hb : b < fieldLen c i) :
    encShuf c (fieldOffset c i + b) = BitVec.ofNat 8 (4 * i + b) := by
  rw [encShuf, if_pos (fieldOffset_add_lt hi hb), laneAt_fieldOffset_add hi hb, Nat.add_sub_cancel_left]

theorem encShuf_of_totalLength_le {c : Byte} {k : Nat} (h : totalLength c ≤ k) : encShuf c k = sentinel :=
  if_neg (Nat.not_lt.mpr h)

theorem decShuf_lane (c : Byte) (i : Nat) {b : Nat} (hb : b < 4) :
    decShuf c (4 * i + b) = if b < fieldLen c i then BitVec.ofNat 8 (fieldOffset c i + b) else sentinel := by
  have lane : (4 * i + b) / 4 = i := by omega
  have byte : (4 * i + b) % 4 = b := by omega
  rw [decShuf, lane, byte]

/-- Every packed byte belongs to a value (R87). -/
theorem exists_lane_of_lt_totalLength {c : Byte} {k : Nat} (h : k < totalLength c) :
    ∃ i b, i < 4 ∧ b < fieldLen c i ∧ k = fieldOffset c i + b := by
  obtain ⟨o0, o1, o2, o3, -⟩ := fieldOffset_eq c
  have total := totalLength_eq c
  by_cases h1 : k < fieldOffset c 1
  · exact ⟨0, k - fieldOffset c 0, by omega, by omega, by omega⟩
  by_cases h2 : k < fieldOffset c 2
  · exact ⟨1, k - fieldOffset c 1, by omega, by omega, by omega⟩
  by_cases h3 : k < fieldOffset c 3
  · exact ⟨2, k - fieldOffset c 2, by omega, by omega, by omega⟩
  · exact ⟨3, k - fieldOffset c 3, by omega, by omega, by omega⟩

theorem shuffleRom_enc_getElem? (c : Byte) {k : Nat} (h : k < 16) : (shuffleRom .enc c)[k]? = some (encShuf c k) := by
  simp [shuffleRom, h]

theorem shuffleRom_dec_getElem? (c : Byte) {k : Nat} (h : k < 16) : (shuffleRom .dec c)[k]? = some (decShuf c k) := by
  simp [shuffleRom, h]

/-- One entry of a shuffle (R86): byte `e[3:0]` of the source, or zero for an entry with bit 7 set. -/
def shuffleEntry (src : List Byte) (e : Byte) : Byte := if e.getLsbD 7 then 0 else src.getD (e.extractLsb' 0 4).toNat 0

theorem shuffle_getElem? (src mask : List Byte) (k : Nat) : (shuffle src mask)[k]? = mask[k]?.map (shuffleEntry src) :=
  List.getElem?_map

theorem shuffleEntry_ofNat (src : List Byte) {n : Nat} (h : n < 16) : shuffleEntry src (BitVec.ofNat 8 n) = src.getD n 0 := by
  have selects : ∀ m < 16, (BitVec.ofNat 8 m).getLsbD 7 = false ∧ ((BitVec.ofNat 8 m).extractLsb' 0 4).toNat = m := by decide
  obtain ⟨bit7, low⟩ := selects n h
  rw [shuffleEntry, bit7, low]; rfl

theorem shuffleEntry_sentinel (src : List Byte) : shuffleEntry src sentinel = 0 := rfl

/-- R117 byte by byte: the compressed register holds byte `b` of lane `i` at the lane's offset. -/
theorem shuffle_enc_getD (x : List Byte) {c : Byte} {i b : Nat} (hi : i < 4) (hb : b < fieldLen c i) :
    (shuffle x (shuffleRom .enc c)).getD (fieldOffset c i + b) 0 = x.getD (4 * i + b) 0 := by
  have small := (totalLength_bounds c).2
  have inside := fieldOffset_add_lt hi hb
  have len := (fieldLen_bounds c i).2
  rw [List.getD_eq_getElem?_getD, shuffle_getElem?, shuffleRom_enc_getElem? c (by omega), encShuf_fieldOffset_add hi hb,
    Option.map_some, shuffleEntry_ofNat x (by omega), Option.getD_some]

/-- R118 byte by byte: the expanded register holds in lane `i` the bytes at the lane's offset, then zeros. -/
theorem shuffle_dec_getElem? (y : List Byte) (c : Byte) {i b : Nat} (hi : i < 4) (hb : b < 4) :
    (shuffle y (shuffleRom .dec c))[4 * i + b]? = some (if b < fieldLen c i then y.getD (fieldOffset c i + b) 0 else 0) := by
  rw [shuffle_getElem?, shuffleRom_dec_getElem? c (by omega), decShuf_lane c i hb, Option.map_some]
  split
  · next h =>
    have small := (totalLength_bounds c).2
    have inside := fieldOffset_add_lt hi h
    rw [shuffleEntry_ofNat y (by omega)]
  · rw [shuffleEntry_sentinel]

/-! ### The entries that are not sentinels (R89) -/

theorem ofNat_ne_sentinel {n : Nat} (h : n < 16) : BitVec.ofNat 8 n ≠ sentinel := by
  revert n
  decide

theorem encShuf_of_lt_totalLength {c : Byte} {k : Nat} (h : k < totalLength c) : ∃ n < 16, encShuf c k = BitVec.ofNat 8 n := by
  obtain ⟨i, b, hi, hb, rfl⟩ := exists_lane_of_lt_totalLength h
  have len := (fieldLen_bounds c i).2
  exact ⟨4 * i + b, by omega, encShuf_fieldOffset_add hi hb⟩

theorem encShuf_injOn {c : Byte} {k l : Nat} (hk : k < totalLength c) (hl : l < totalLength c) (h : encShuf c k = encShuf c l) :
    k = l := by
  obtain ⟨i, b, hi, hb, rfl⟩ := exists_lane_of_lt_totalLength hk
  obtain ⟨j, d, hj, hd, rfl⟩ := exists_lane_of_lt_totalLength hl
  have lenI := (fieldLen_bounds c i).2
  have lenJ := (fieldLen_bounds c j).2
  rw [encShuf_fieldOffset_add hi hb, encShuf_fieldOffset_add hj hd] at h
  have same := congrArg BitVec.toNat h
  simp only [BitVec.toNat_ofNat] at same
  obtain rfl : i = j := by omega
  omega

/-- A row whose first `m` entries are no sentinels and whose other entries are. -/
theorem filter_map_range_of_sentinel_tail {f : Nat → Byte} {m n : Nat} (hmn : m ≤ n) (hlt : ∀ k < m, f k ≠ sentinel)
    (hge : ∀ k, m ≤ k → k < n → f k = sentinel) :
    ((List.range n).map f).filter (· ≠ sentinel) = (List.range m).map f := by
  have row : List.range n = List.range m ++ (List.range (n - m)).map (m + ·) := by
    rw [← List.range_add, Nat.add_sub_cancel' hmn]
  have entries : ((List.range m).map f).filter (· ≠ sentinel) = (List.range m).map f := by
    rw [List.filter_eq_self]
    intro e he
    obtain ⟨k, hk, rfl⟩ := List.mem_map.mp he
    exact decide_eq_true (hlt k (List.mem_range.mp hk))
  have rest : (((List.range (n - m)).map (m + ·)).map f).filter (· ≠ sentinel) = [] := by
    rw [List.filter_eq_nil_iff]
    intro e he
    obtain ⟨k, hk, rfl⟩ := List.mem_map.mp he
    obtain ⟨d, hd, rfl⟩ := List.mem_map.mp hk
    have inRow := List.mem_range.mp hd
    simp [hge (m + d) (by omega) (by omega)]
  rw [row, List.map_append, List.filter_append, entries, rest, List.append_nil]

/-- The entries of an encode row that are not sentinels are its first `totalLength c`. -/
theorem filter_shuffleRom_enc (c : Byte) :
    (shuffleRom .enc c).filter (· ≠ sentinel) = (List.range (totalLength c)).map (encShuf c) := by
  refine filter_map_range_of_sentinel_tail (totalLength_bounds c).2 (fun k hk => ?_) fun k hk _ => encShuf_of_totalLength_le hk
  obtain ⟨n, hn, entry⟩ := encShuf_of_lt_totalLength hk
  rw [entry]
  exact ofNat_ne_sentinel hn

/-- The entries of one lane of a decode row that are not sentinels count up from the lane's offset. -/
theorem filter_decShuf_lane (c : Byte) {i : Nat} (hi : i < 4) :
    (((List.range 4).map fun b => decShuf c (4 * i + b)).filter (· ≠ sentinel)).map BitVec.toNat =
      (List.range (fieldLen c i)).map (fieldOffset c i + ·) := by
  have small := (totalLength_bounds c).2
  have len := (fieldLen_bounds c i).2
  have entry : ∀ b < fieldLen c i, decShuf c (4 * i + b) = BitVec.ofNat 8 (fieldOffset c i + b) := fun b hb => by
    rw [decShuf_lane c i (by omega), if_pos hb]
  have position : ∀ b < fieldLen c i, fieldOffset c i + b < 16 := fun b hb => (fieldOffset_add_lt hi hb).trans_le small
  rw [filter_map_range_of_sentinel_tail len, List.map_map]
  · refine List.map_congr_left fun b hb => ?_
    have hb := List.mem_range.mp hb
    have lt := position b hb
    rw [Function.comp_apply, entry b hb, BitVec.toNat_ofNat]
    omega
  · intro b hb
    rw [entry b hb]
    exact ofNat_ne_sentinel (position b hb)
  · intro b hb hb4
    rw [decShuf_lane c i hb4, if_neg (by omega)]

/-- The entries of the first `n` lanes of a decode row that are not sentinels count up from 0. -/
theorem filter_decShuf_lanes (c : Byte) {n : Nat} (hn : n ≤ 4) :
    (((List.range (4 * n)).map (decShuf c)).filter (· ≠ sentinel)).map BitVec.toNat = List.range (fieldOffset c n) := by
  induction n with
  | zero => rfl
  | succ n ih =>
    rw [Nat.mul_succ, List.range_add, List.map_append, List.filter_append, List.map_append, ih (by omega), List.map_map,
      fieldOffset, List.range_add, ← filter_decShuf_lane c (by omega)]
    rfl

/-! ### Lengths as the CSRs hold them (R93, R94) -/

/-- The bytes of `LENS` do not overlap, so joining them is adding them. -/
theorem or_shiftLeft_eq_add {lo hi : Word} {k : Nat} (h : lo.toNat < 2 ^ k) : lo ||| hi <<< k = lo + hi <<< k := by
  refine (BitVec.add_eq_or_of_and_eq_zero _ _ ?_).symm
  ext i hlt
  by_cases hik : i < k
  · simp [hik]
  · have low : lo.getLsbD i = false := Nat.testBit_lt_two_pow (h.trans_le (Nat.pow_le_pow_right (by decide) (by omega)))
    simp [← BitVec.getLsbD_eq_getElem, low]

theorem ofNat_or_shiftLeft {n k : Nat} (h : n < 2 ^ k) (m : Nat) :
    BitVec.ofNat 32 n ||| BitVec.ofNat 32 m <<< k = BitVec.ofNat 32 (n + m * 2 ^ k) := by
  have shifted : BitVec.ofNat 32 m <<< k = BitVec.ofNat 32 (m * 2 ^ k) := BitVec.eq_of_toNat_eq (by simp [Nat.shiftLeft_eq])
  rw [or_shiftLeft_eq_add ((Nat.mod_le _ _).trans_lt h), shifted, BitVec.ofNat_add]

theorem lensWord_eq_or (c : Byte) :
    lensWord c = BitVec.ofNat 32 (fieldLen c 0) ||| BitVec.ofNat 32 (fieldLen c 1) <<< 8 |||
      BitVec.ofNat 32 (fieldLen c 2) <<< 16 ||| BitVec.ofNat 32 (fieldLen c 3) <<< 24 := by
  obtain ⟨-, h0⟩ := fieldLen_bounds c 0
  obtain ⟨-, h1⟩ := fieldLen_bounds c 1
  obtain ⟨-, h2⟩ := fieldLen_bounds c 2
  rw [ofNat_or_shiftLeft (by omega), ofNat_or_shiftLeft (by omega), ofNat_or_shiftLeft (by omega), lensWord]

theorem ofNat_totalLength (c : Byte) :
    BitVec.ofNat 32 (totalLength c) = BitVec.ofNat 32 (fieldLen c 0) + BitVec.ofNat 32 (fieldLen c 1) +
      BitVec.ofNat 32 (fieldLen c 2) + BitVec.ofNat 32 (fieldLen c 3) := by
  simp only [totalLength_eq, BitVec.ofNat_add]

/-- A length from the bits of its field (R81). -/
theorem ofNat_fieldLen (c : Byte) (i : Nat) : BitVec.ofNat 32 (fieldLen c i) = (c.extractLsb' (2 * i) 2).setWidth 32 + 1 := by
  rw [fieldLen, BitVec.ofNat_add, BitVec.ofNat_toNat]; rfl

/-- R74: field `i` of the low control byte is field `i` of the control word. -/
theorem ofNat_fieldLen_ctrlLo (w : BitVec 16) {i : Nat} (h : i < 4) :
    BitVec.ofNat 32 (fieldLen (ctrlLo w) i) = (w.extractLsb' (2 * i) 2).setWidth 32 + 1 := by
  have field : (ctrlLo w).extractLsb' (2 * i) 2 = w.extractLsb' (2 * i) 2 := by
    ext j hj
    have inByte : 2 * i + j < 8 := by omega
    simp [ctrlLo, inByte]
  rw [ofNat_fieldLen, field]

/-- R74: field `i` of the high control byte is field `4 + i` of the control word. -/
theorem ofNat_fieldLen_ctrlHi (w : BitVec 16) {i : Nat} (h : i < 4) :
    BitVec.ofNat 32 (fieldLen (ctrlHi w) i) = (w.extractLsb' (2 * (4 + i)) 2).setWidth 32 + 1 := by
  have field : (ctrlHi w).extractLsb' (2 * i) 2 = w.extractLsb' (2 * (4 + i)) 2 := by
    ext j hj
    have inByte : 2 * i + j < 8 := by omega
    simp [ctrlHi, inByte, Nat.mul_add, Nat.add_assoc]
  rw [ofNat_fieldLen, field]

/-! ### The table commands, performed -/

/-- The packed window that holds a row of 16 entries (R95, R96). -/
theorem packBytes_packOf_row (entry : Nat → Byte) {k : Nat} (h : k < 32) :
    (packBytes (packOf ((List.range 16).map entry)))[k]? = some (if k < 16 then entry k else 0) := by
  rw [packBytes_packOf_getElem? _ h, List.getD_eq_getElem?_getD, List.getElem?_map]
  split
  · next inRow => rw [List.getElem?_range inRow]; rfl
  · next above => rw [List.getElem?_eq_none (by rw [List.length_range]; omega)]; rfl

theorem exec_lenLookup (fs : Bool) (s : State) :
    let c := ctrlLo s.operands.ctrl
    exec (.lenLookup fs) s = .next (finish { s with lens := lensWord c, resultLen := BitVec.ofNat 32 (totalLength c) }) := rfl

theorem exec_lenLookupWord (fs : Bool) (s : State) :
    let w := s.operands.ctrl
    exec (.lenLookupWord fs) s = .next (finish { s with
      lens := lensWord (ctrlLo w), lensHi := lensWord (ctrlHi w), resultLen := BitVec.ofNat 32 (totalLengthWord w) }) := rfl

theorem exec_shufEncRead (fs : Bool) (s : State) : exec (.shufEncRead fs) s = .next (shufRead .enc s) := rfl

theorem exec_shufDecRead (fs : Bool) (s : State) : exec (.shufDecRead fs) s = .next (shufRead .dec s) := rfl

/-! ### The obligations -/

/-- Settles O16: the length of a field is that of the ROM row, and the bytes of `LENS` do not overlap. -/
theorem lenLookupResult : Obligations.LenLookupResult := by
  refine ⟨by decide, by decide, fun fs s => ?_⟩
  intro c len
  have field (i : Nat) : BitVec.ofNat 32 (fieldLen c i) = len i := ofNat_fieldLen c i
  have lens : lensWord c = len 0 ||| len 1 <<< 8 ||| len 2 <<< 16 ||| len 3 <<< 24 := by simp only [lensWord_eq_or, field]
  have total : BitVec.ofNat 32 (totalLength c) = len 0 + len 1 + len 2 + len 3 := by simp only [ofNat_totalLength, field]
  rw [← lens, ← total]
  exact exec_lenLookup fs s

/-- Settles O17: each control byte of the word has its own ROM row. -/
theorem lenLookupWordResult : Obligations.LenLookupWordResult := by
  refine ⟨by decide, by decide, fun fs s => ?_⟩
  intro w len
  have lo {i : Nat} (h : i < 4) : BitVec.ofNat 32 (fieldLen (ctrlLo w) i) = len i := ofNat_fieldLen_ctrlLo w h
  have hi {i : Nat} (h : i < 4) : BitVec.ofNat 32 (fieldLen (ctrlHi w) i) = len (4 + i) := ofNat_fieldLen_ctrlHi w h
  have lens : lensWord (ctrlLo w) = len 0 ||| len 1 <<< 8 ||| len 2 <<< 16 ||| len 3 <<< 24 := by
    rw [lensWord_eq_or, lo (by decide), lo (by decide), lo (by decide), lo (by decide)]
  have lensHi : lensWord (ctrlHi w) = len 4 ||| len 5 <<< 8 ||| len 6 <<< 16 ||| len 7 <<< 24 := by
    rw [lensWord_eq_or, hi (by decide), hi (by decide), hi (by decide), hi (by decide)]
  have total : BitVec.ofNat 32 (totalLengthWord w) = len 0 + len 1 + len 2 + len 3 + len 4 + len 5 + len 6 + len 7 := by
    rw [totalLengthWord, BitVec.ofNat_add, ofNat_totalLength, ofNat_totalLength, lo (by decide), lo (by decide), lo (by decide),
      lo (by decide), hi (by decide), hi (by decide), hi (by decide), hi (by decide)]
    simp only [BitVec.add_assoc]
  rw [← lens, ← lensHi, ← total]
  exact exec_lenLookupWord fs s

/-- Settles O18: the window packed from a row of the encode ROM reads back as that row. -/
theorem shufEncReadResult : Obligations.ShufEncReadResult := by
  refine ⟨by decide, by decide, fun fs s => ?_⟩
  intro c
  exact ⟨packOf (shuffleRom .enc c), fun k hk => packBytes_packOf_row (encShuf c) hk, exec_shufEncRead fs s⟩

/-- Settles O19: as O18, with a row of the decode ROM. -/
theorem shufDecReadResult : Obligations.ShufDecReadResult := by
  refine ⟨by decide, by decide, fun fs s => ?_⟩
  intro c
  exact ⟨packOf (shuffleRom .dec c), fun k hk => packBytes_packOf_row (decShuf c) hk, exec_shufDecRead fs s⟩

/-- Settles O45: each clause is the lemma about its function; a bank is reached byte by byte through its words, and a CSR through
the index of its offset. -/
theorem codecFunctionsAsWritten : Obligations.CodecFunctionsAsWritten := by
  refine ⟨fun c i _ => fieldLen_eq c i, fun c => ?total, fieldOffset_eq_sum, controlByte_toNat,
    fun c i b hi hb => encShuf_fieldOffset_add hi hb, fun c k h => encShuf_of_totalLength_le h,
    fun c i b _ hb => decShuf_lane c i hb, fun v n k h => ?lebytes, fun bs k h _ => ?le, fun b j k h => ?bank,
    fun s j => ⟨csrRead_val s j, csrRead_pack s j⟩⟩
  case total => exact ⟨fieldOffset_eq_sum c 4, totalLength_bounds c⟩
  case lebytes => rw [lebytes_getElem? v h, Option.map_some, byteOf_toNat]
  case le => rw [le_toNat h, leNat_div_mod]
  case bank => exact ⟨Bank.toList_getElem? b j, by rw [packBytes_getElem? b j h, Option.map_some, byteOf_toNat]⟩

/-- Settles O46: the packed bytes of a lane stand at the lane's offset in both rows, so the decode row brings back what the encode
row took there. -/
theorem tableConsistency : Obligations.TableConsistency := by
  intro c
  have enc := filter_shuffleRom_enc c
  refine ⟨(totalLength_eq c).symm, filter_decShuf_lanes c (Nat.le_refl 4), ?count, ?distinct, ?small,
    fun x _ i hi b hb => ?shuffles⟩
  case count => exact (congrArg List.length enc).trans (by simp)
  case distinct =>
    refine enc ▸ List.nodup_range.map_on fun k hk l hl => ?_
    exact encShuf_injOn (List.mem_range.mp hk) (List.mem_range.mp hl)
  case small =>
    intro e he
    obtain ⟨k, hk, rfl⟩ := List.mem_map.mp (enc ▸ he)
    obtain ⟨n, hn, entry⟩ := encShuf_of_lt_totalLength (List.mem_range.mp hk)
    rw [entry, BitVec.toNat_ofNat]
    omega
  case shuffles =>
    rw [shuffle_dec_getElem? _ c hi hb]
    split
    · next h => rw [shuffle_enc_getD x hi h]
    · rfl

end Sys2Proof.Machine
end

section
/-! Proofs about the length class, the control-byte kernel and the control-byte commands (41_control_byte.md R97 to R109). -/

namespace Sys2Proof.Machine

/-! ### The length class (R97) -/

/-- R97: the length class is the least number of bytes that holds the value. -/
theorem lc_le_iff (v : Word) (n : Nat) : lc v ≤ n ↔ 1 ≤ n ∧ v.toNat < 256 ^ n := by
  obtain ⟨atLeast, atMost⟩ := lc_bounds v
  by_cases large : 4 ≤ n
  · have fits : v.toNat < 256 ^ n := v.isLt.trans_le (Nat.pow_le_pow_right (n := 256) (by decide) large)
    exact iff_of_true (by omega) ⟨by omega, fits⟩
  · unfold lc
    interval_cases n <;> split_ifs <;> omega

theorem lzcnt_zero : lzcnt 0 = 32 := rfl

theorem lzcnt_of_ne_zero {v : Word} (h : v ≠ 0) : lzcnt v = 31 - Nat.log2 v.toNat := if_neg h

theorem toNat_ne_zero_of_ne_zero {v : Word} (h : v ≠ 0) : v.toNat ≠ 0 := BitVec.toNat_ne_iff_ne.mpr h

/-- The top set bit of a 32-bit value is one of bits 0 to 31. -/
theorem log2_toNat_le {v : Word} (h : v ≠ 0) : Nat.log2 v.toNat ≤ 31 :=
  Nat.lt_succ_iff.mp ((Nat.log2_lt (toNat_ne_zero_of_ne_zero h)).mpr v.isLt)

theorem lzcnt_eq_iff (v : Word) : lzcnt v = 32 ↔ v = 0 := by
  refine ⟨fun h => ?_, fun h => h ▸ lzcnt_zero⟩
  by_contra hv
  rw [lzcnt_of_ne_zero hv] at h
  omega

/-- The leading zeros of a value that is not 0 are the bits above its top set bit. -/
theorem lzcnt_bounds {v : Word} (h : v ≠ 0) : 2 ^ (31 - lzcnt v) ≤ v.toNat ∧ v.toNat < 2 ^ (32 - lzcnt v) := by
  have top := log2_toNat_le h
  have low : 31 - lzcnt v = Nat.log2 v.toNat := by rw [lzcnt_of_ne_zero h]; omega
  have high : 32 - lzcnt v = Nat.log2 v.toNat + 1 := by rw [lzcnt_of_ne_zero h]; omega
  rw [low, high]
  exact ⟨Nat.log2_self_le (toNat_ne_zero_of_ne_zero h), Nat.lt_log2_self⟩

/-- The first form of R97 obeys the law of the second, `lc_le_iff`. -/
theorem lcByLeadingZeros_le_iff (v : Word) (n : Nat) : lcByLeadingZeros v ≤ n ↔ 1 ≤ n ∧ v.toNat < 256 ^ n := by
  by_cases hv : v = 0
  · have one : lcByLeadingZeros 0 = 1 := rfl
    rw [hv, one]
    exact ⟨fun h => ⟨h, Nat.pow_pos (by decide)⟩, And.left⟩
  · have top := log2_toNat_le hv
    have holds : v.toNat < 256 ^ n ↔ Nat.log2 v.toNat < 8 * n := by
      rw [Nat.log2_lt (toNat_ne_zero_of_ne_zero hv), Nat.pow_mul]
    rw [lcByLeadingZeros, holds, lzcnt_of_ne_zero hv]
    omega

theorem lc_eq_lcByLeadingZeros (v : Word) : lc v = lcByLeadingZeros v :=
  eq_of_forall_ge_iff fun n => (lc_le_iff v n).trans (lcByLeadingZeros_le_iff v n).symm

/-- The length class is one more than the number of the highest byte that is not 0. -/
theorem lc_eq_top_byte (v : Word) :
    lc v = if byteOf v 3 ≠ 0 then 4 else if byteOf v 2 ≠ 0 then 3 else if byteOf v 1 ≠ 0 then 2 else 1 := by
  have zero (k : Nat) : byteOf v k = 0 ↔ v.toNat / 256 ^ k % 256 = 0 := by
    rw [← byteOf_toNat, BitVec.toNat_eq]; rfl
  have word := v.isLt
  simp only [ne_eq, zero, lc]
  split_ifs <;> omega

/-! ### The kernel, step by step (R101 to R105) -/

/-- Step 1 marks each byte that is not 0. -/
theorem kernelMin_eq (b : Byte) : kernelMin b = if b = 0 then 0 else 1 := by
  revert b
  decide

/-- Step 2: a mark in a pair's high byte saturates, so the low byte counts only where the high one is 0. -/
theorem kernelNarrow_eq (v : Word) (h : Nat) :
    kernelNarrow v h = if byteOf v (2 * h + 1) ≠ 0 then 0xFF else if byteOf v (2 * h) ≠ 0 then 1 else 0 := by
  simp only [kernelNarrow, kernelMin_eq, ne_eq, ite_not]
  split_ifs <;> decide

/-- Steps 3 to 5 (R106): of a lane's bytes the highest that is not 0 decides the field. -/
theorem kernelField_eq (v : Word) :
    kernelField v = if byteOf v 3 ≠ 0 then 3 else if byteOf v 2 ≠ 0 then 2 else if byteOf v 1 ≠ 0 then 1 else 0 := by
  simp only [kernelField, kernelStep4, kernelLane, kernelNarrow_eq, Nat.mul_one, Nat.mul_zero, Nat.zero_add, Nat.reduceAdd]
  split_ifs <;> decide

/-- R107 for one value: the kernel's field of a value is its length class less one. -/
theorem kernelField_toNat (v : Word) : (kernelField v).toNat = lc v - 1 := by
  rw [kernelField_eq, lc_eq_top_byte]
  split_ifs <;> rfl

/-- The mask of step 5 as a number, field by field. -/
theorem toNat_append_fields : ∀ a b c d : BitVec 2,
    (d ++ c ++ b ++ a).toNat = a.toNat + 4 * b.toNat + 16 * c.toNat + 64 * d.toNat := by
  decide

theorem kernelControlByte_eq (q : Quad) : kernelControlByte q = controlByte q :=
  BitVec.eq_of_toNat_eq (by rw [kernelControlByte, toNat_append_fields, controlByte_toNat]; simp only [kernelField_toNat])

/-! ### The control-byte commands, performed -/

/-- R74: `lo | hi << 8`. -/
theorem ctrlJoin_eq_or (lo hi : Byte) : ctrlJoin lo hi = lo.setWidth 16 ||| hi.setWidth 16 <<< 8 := by
  rw [ctrlJoin, BitVec.append_def, BitVec.shiftLeftZeroExtend_eq, BitVec.setWidth'_eq, BitVec.or_comm]

theorem ctrlJoin_zero (c : Byte) : ctrlJoin c 0 = c.setWidth 16 := by
  rw [ctrlJoin_eq_or]
  simp

theorem totalLengthWord_controlWord (b : Bank) : totalLengthWord (controlWord b) = (b.toList.map lc).sum := by
  rw [totalLengthWord, controlWord, ctrlLo_ctrlJoin, ctrlHi_ctrlJoin, totalLength_controlByte, totalLength_controlByte]
  simp [Bank.toList, Quad.toList, Nat.add_assoc]

theorem exec_ctrlByte (fs : Bool) (s : State) :
    let c := controlByte s.operands.vals.lo
    exec (.ctrlByte fs) s = .next (ctrlResult (ctrlJoin c 0) (totalLength c) s) := rfl

theorem exec_ctrlWord (fs : Bool) (s : State) :
    let w := controlWord s.operands.vals
    exec (.ctrlWord fs) s = .next (ctrlResult w (totalLengthWord w) s) := rfl

/-! ### The obligations -/

/-- Settles O44: both forms of the length class obey one law, so they are equal. -/
theorem lengthClassLaw : Obligations.LengthClassLaw := by
  intro v
  obtain ⟨atLeast, atMost⟩ := lc_bounds v
  exact ⟨lc_eq_lcByLeadingZeros v, lzcnt_eq_iff v, lzcnt_bounds, atLeast, atMost, ((lc_le_iff v (lc v)).mp (Nat.le_refl _)).2,
    fun n hn hv => (lc_le_iff v n).mpr ⟨hn, hv⟩⟩

/-- Settles O47: the kernel's control byte is the scalar one in either group. -/
theorem kernelEqualsScalar : Obligations.KernelEqualsScalar := by
  intro b
  rw [kernelControlWord, kernelControlByte_eq, kernelControlByte_eq, controlWord]

/-- Settles O20: the total that the ROM gives for a control byte is the sum of its length classes. -/
theorem ctrlByteResult : Obligations.CtrlByteResult := by
  refine ⟨by decide, by decide, fun fs s => ?_⟩
  intro v
  rw [← ctrlJoin_zero, ← totalLength_controlByte]
  exact exec_ctrlByte fs s

/-- Settles O21: as O20, with the control bytes of both groups joined. -/
theorem ctrlWordResult : Obligations.CtrlWordResult := by
  refine ⟨by decide, by decide, fun fs s => ?_⟩
  intro v
  rw [← ctrlJoin_eq_or, ← totalLengthWord_controlWord]
  exact exec_ctrlWord fs s

end Sys2Proof.Machine
end

section
/-! Proofs about the group decode and the group commands (42_group.md R111 to R129). -/

namespace Sys2Proof.Machine

/-! ### The bytes of a word and of a piece of a sequence (R11) -/

/-- A word is its four bytes. -/
theorem eq_of_byteOf {v w : Word} (h : ∀ k < 4, byteOf v k = byteOf w k) : v = w := by
  have digit (k : Nat) (hk : k < 4) : v.toNat / 256 ^ k % 256 = w.toNat / 256 ^ k % 256 := by
    rw [← byteOf_toNat, ← byteOf_toNat, h k hk]
  have d0 := digit 0 (by decide)
  have d1 := digit 1 (by decide)
  have d2 := digit 2 (by decide)
  have d3 := digit 3 (by decide)
  have hv := v.isLt
  have hw := w.isLt
  exact BitVec.eq_of_toNat_eq (by omega)

theorem getD_take_drop (bytes : List Byte) (start n k : Nat) :
    ((bytes.drop start).take n).getD k 0 = if k < n then bytes.getD (start + k) 0 else 0 := by
  simp only [List.getD_eq_getElem?_getD, List.getElem?_take, List.getElem?_drop]
  split <;> rfl

theorem byteOf_le_take_drop (bytes : List Byte) (start : Nat) {n : Nat} (h : n ≤ 4) (k : Nat) :
    byteOf (le ((bytes.drop start).take n)) k = if k < n then bytes.getD (start + k) 0 else 0 := by
  rw [byteOf_le (by rw [List.length_take]; omega), getD_take_drop]

/-! ### The group decode (R111, R118) -/

theorem byteOf_fieldValue (c : Byte) (bytes : List Byte) (i k : Nat) :
    byteOf (fieldValue c bytes i) k = if k < fieldLen c i then bytes.getD (fieldOffset c i + k) 0 else 0 :=
  byteOf_le_take_drop bytes _ (fieldLen_bounds c i).2 k

theorem fieldValue_congr {c : Byte} {bytes bytes' : List Byte} (h : ∀ k < totalLength c, bytes.getD k 0 = bytes'.getD k 0)
    {i : Nat} (hi : i < 4) : fieldValue c bytes i = fieldValue c bytes' i := by
  refine eq_of_byteOf fun k _ => ?_
  rw [byteOf_fieldValue, byteOf_fieldValue]
  split
  · next inField => exact h _ (fieldOffset_add_lt hi inField)
  · rfl

/-- R111: a group decode reads the group's own bytes only. -/
theorem decodeGroup_congr {c : Byte} {bytes bytes' : List Byte} (h : ∀ k < totalLength c, bytes.getD k 0 = bytes'.getD k 0) :
    decodeGroup c bytes = decodeGroup c bytes' := by
  simp only [decodeGroup, fieldValue_congr h (show 0 < 4 by decide), fieldValue_congr h (show 1 < 4 by decide),
    fieldValue_congr h (show 2 < 4 by decide), fieldValue_congr h (show 3 < 4 by decide)]

theorem decodeGroup_take (c : Byte) (bytes : List Byte) {n : Nat} (h : totalLength c ≤ n) :
    decodeGroup c (bytes.take n) = decodeGroup c bytes :=
  decodeGroup_congr fun k hk => by
    rw [List.getD_eq_getElem?_getD, List.getElem?_take_of_lt (hk.trans_le h), List.getD_eq_getElem?_getD]

/-- R118 for one value: lane `i` of the expanded register is field `i` of the group. -/
theorem shuffle_dec_lane (c : Byte) (bytes : List Byte) {i : Nat} (hi : i < 4) :
    le (((shuffle bytes (shuffleRom .dec c)).drop (4 * i)).take 4) = fieldValue c bytes i := by
  refine eq_of_byteOf fun k hk => ?_
  rw [byteOf_le_take_drop _ _ (Nat.le_refl 4), if_pos hk, List.getD_eq_getElem?_getD, shuffle_dec_getElem? bytes c hi hk,
    Option.getD_some, byteOf_fieldValue]

theorem vectorUnpack_eq_decodeGroup (c : Byte) (bytes : List Byte) : vectorUnpack c bytes = decodeGroup c bytes := by
  simp only [vectorUnpack, quadOfBytes, decodeGroup, shuffle_dec_lane c bytes (show 0 < 4 by decide),
    shuffle_dec_lane c bytes (show 1 < 4 by decide), shuffle_dec_lane c bytes (show 2 < 4 by decide),
    shuffle_dec_lane c bytes (show 3 < 4 by decide)]

/-! ### The group encodes, performed (R114, R115) -/

/-- What the statements say of an encode command of `t` packed bytes that leaves `ctrl` and `prev`: the packed window holds the
bytes, zero above them, or they do not fit. -/
def PacksGroup (i : Instr) (s : State) (ctrl : BitVec 16) (bytes : List Byte) (prev : Word) (t : Nat) : Prop :=
  (t ≤ s.operands.packLen.toNat → ∃ p : Bank,
    (∀ k < 32, (packBytes p)[k]? = some (if k < t then bytes.getD k 0 else 0)) ∧
    exec i s = .next { s with
      ops := { s.ops with pack := p, ctrl := ctrl, prev := prev }
      resultLen := BitVec.ofNat 32 t
      status := { s.status with busy := false, done := true }
      engine := .idle }) ∧
  (s.operands.packLen.toNat < t → exec i s = .next (raiseError (.bufferTooSmall .output t) s))

/-- R78, R122: byte `k` of the packed window that holds `bytes`, said by their number. -/
theorem packBytes_packOf_of_length {bytes : List Byte} {t k : Nat} (len : bytes.length = t) (hk : k < 32) :
    (packBytes (packOf bytes))[k]? = some (if k < t then bytes.getD k 0 else 0) := by
  rw [packBytes_packOf_getElem? bytes hk]
  split
  · rfl
  · next above => rw [List.getD_eq_default _ _ (by omega)]

/-- A group encode packs what `group_pack_unit` answers. -/
theorem packsGroup_of_groupPack {i : Instr} {w8 delta : Bool} {s : State} {ctrl : BitVec 16} {bytes : List Byte} {last : Word} {t : Nat}
    (arm : exec i s = .next (groupEncode w8 delta s))
    (pack : groupPack w8 delta s.operands.prev s.operands.vals = { ctrl := ctrl, bytes := bytes, last := last })
    (len : bytes.length = t) : PacksGroup i s ctrl bytes (if delta then last else s.ops.prev) t := by
  simp only [groupEncode, pack, len] at arm
  refine ⟨fun fits => ⟨packOf bytes, fun k hk => packBytes_packOf_of_length len hk, ?_⟩, fun short => ?_⟩
  · rw [if_neg (Nat.not_lt.mpr fits)] at arm
    exact arm
  · rw [if_pos short] at arm
    exact arm

/-- R122, R124: an encode of four values. -/
theorem packsGroup_four {i : Instr} {delta : Bool} {s : State} (arm : exec i s = .next (groupEncode false delta s)) :
    let v := s.operands.vals.lo
    let x := if delta then deltaQuad s.operands.prev v else v
    PacksGroup i s ((controlByte x).setWidth 16) (groupBytes x) (if delta then v.q3 else s.ops.prev)
      (totalLength (controlByte x)) := by
  intro v x
  refine packsGroup_of_groupPack arm ?_ (groupBytes_length x)
  rw [groupPack_four, ← ctrlJoin_zero]

/-- R123, R125: an encode of eight values. -/
theorem packsGroup_eight {i : Instr} {delta : Bool} {s : State} (arm : exec i s = .next (groupEncode true delta s)) :
    let v := s.operands.vals
    let x := if delta then deltaBank s.operands.prev v else v
    PacksGroup i s ((controlByte x.lo).setWidth 16 ||| (controlByte x.hi).setWidth 16 <<< 8) (groupBytes x.lo ++ groupBytes x.hi)
      (if delta then v.hi.q3 else s.ops.prev) (totalLength (controlByte x.lo) + totalLength (controlByte x.hi)) := by
  intro v x
  refine packsGroup_of_groupPack arm ?_ (by rw [List.length_append, groupBytes_length, groupBytes_length])
  rw [groupPack_eight, ← ctrlJoin_eq_or]

/-! ### The group decodes, performed (R114, R116) -/

/-- What the statements say of a decode command of `t` bytes that leaves `vals` and `prev`: it delivers them, or `PACK_LEN` holds
fewer bytes. -/
def UnpacksGroup (i : Instr) (s : State) (vals : Bank) (prev : Word) (t : Nat) : Prop :=
  (t ≤ s.operands.packLen.toNat →
    exec i s = .next { s with
      ops := { s.ops with vals := vals, prev := prev }
      resultLen := BitVec.ofNat 32 t
      status := { s.status with busy := false, done := true }
      engine := .idle }) ∧
  (s.operands.packLen.toNat < t → exec i s = .next (raiseError (.bufferTooSmall .input t) s))

/-- A group decode delivers what `group_unpack_unit` answers. -/
theorem unpacksGroup_of_groupUnpack {i : Instr} {w8 delta : Bool} {s : State} {vals : Bank} {last : Word} {t : Nat}
    (arm : exec i s = .next (groupDecode w8 delta s)) (total : groupTotal w8 s.operands.ctrl = t)
    (unpack : groupUnpack w8 delta s.operands.prev s.operands.ctrl ((packBytes s.operands.pack).take t) =
      { vals := vals, last := last }) :
    UnpacksGroup i s (if w8 then vals else { s.ops.vals with lo := vals.lo }) (if delta then last else s.ops.prev) t := by
  simp only [groupDecode, total, unpack] at arm
  refine ⟨fun fits => ?_, fun short => ?_⟩
  · rw [if_neg (Nat.not_lt.mpr fits)] at arm
    exact arm
  · rw [if_pos short] at arm
    exact arm

/-- `group_unpack_unit` for each of its two selectors (R116). -/
theorem groupUnpack_four (delta : Bool) (prev : Word) (ctrl : BitVec 16) (bytes : List Byte) :
    groupUnpack false delta prev ctrl bytes =
      let x := decodeGroup (ctrlLo ctrl) bytes
      let v := if delta then prefixQuad prev x else x
      { vals := ⟨v, Quad.zero⟩, last := v.q3 } := by
  cases delta <;> rfl

theorem groupUnpack_eight (delta : Bool) (prev : Word) (ctrl : BitVec 16) (bytes : List Byte) :
    groupUnpack true delta prev ctrl bytes =
      let x : Bank := ⟨decodeGroup (ctrlLo ctrl) bytes, decodeGroup (ctrlHi ctrl) (bytes.drop (totalLength (ctrlLo ctrl)))⟩
      let v := if delta then prefixBank prev x else x
      { vals := v, last := v.hi.q3 } := rfl

/-- R126, R128: a decode of four values. -/
theorem unpacksGroup_four {i : Instr} {delta : Bool} {s : State} (arm : exec i s = .next (groupDecode false delta s)) :
    let c := ctrlLo s.operands.ctrl
    let t := totalLength c
    let x := decodeGroup c ((packBytes s.operands.pack).take t)
    let v := if delta then prefixQuad s.operands.prev x else x
    UnpacksGroup i s { s.ops.vals with lo := v } (if delta then v.q3 else s.ops.prev) t := by
  intro c t x v
  exact unpacksGroup_of_groupUnpack arm rfl (groupUnpack_four delta _ _ _)

/-- R127, R129: a decode of eight values. The block is given the bytes of both groups, of which the first group reads its own. -/
theorem unpacksGroup_eight {i : Instr} {delta : Bool} {s : State} (arm : exec i s = .next (groupDecode true delta s)) :
    let c0 := ctrlLo s.operands.ctrl
    let c1 := ctrlHi s.operands.ctrl
    let t0 := totalLength c0
    let t := t0 + totalLength c1
    let x : Bank := ⟨decodeGroup c0 ((packBytes s.operands.pack).take t0),
      decodeGroup c1 (((packBytes s.operands.pack).take t).drop t0)⟩
    let v := if delta then prefixBank s.operands.prev x else x
    UnpacksGroup i s v (if delta then v.hi.q3 else s.ops.prev) t := by
  intro c0 c1 t0 t x v
  have first : decodeGroup c0 ((packBytes s.operands.pack).take t0) = decodeGroup c0 ((packBytes s.operands.pack).take t) := by
    rw [decodeGroup_take c0 _ (Nat.le_refl t0), decodeGroup_take c0 _ (Nat.le_add_right t0 _)]
  have block := groupUnpack_eight delta s.operands.prev s.operands.ctrl ((packBytes s.operands.pack).take t)
  rw [← first] at block
  exact unpacksGroup_of_groupUnpack arm rfl block

/-! ### The arms of `exec` -/

theorem exec_encode4 (fs : Bool) (s : State) : exec (.encode4 fs) s = .next (groupEncode false false s) := rfl

theorem exec_encode8 (fs : Bool) (s : State) : exec (.encode8 fs) s = .next (groupEncode true false s) := rfl

theorem exec_encode4Delta (fs : Bool) (s : State) : exec (.encode4Delta fs) s = .next (groupEncode false true s) := rfl

theorem exec_encode8Delta (fs : Bool) (s : State) : exec (.encode8Delta fs) s = .next (groupEncode true true s) := rfl

theorem exec_decode4 (fs : Bool) (s : State) : exec (.decode4 fs) s = .next (groupDecode false false s) := rfl

theorem exec_decode8 (fs : Bool) (s : State) : exec (.decode8 fs) s = .next (groupDecode true false s) := rfl

theorem exec_decode4Delta (fs : Bool) (s : State) : exec (.decode4Delta fs) s = .next (groupDecode false true s) := rfl

theorem exec_decode8Delta (fs : Bool) (s : State) : exec (.decode8Delta fs) s = .next (groupDecode true true s) := rfl

/-! ### The obligations -/

/-- Settles O22: the encode of four values, which are the values themselves. -/
theorem encode4Result : Obligations.Encode4Result :=
  ⟨by decide, by decide, fun fs s => packsGroup_four (delta := false) (exec_encode4 fs s)⟩

/-- Settles O23: the encode of eight values, which are the values themselves. -/
theorem encode8Result : Obligations.Encode8Result :=
  ⟨by decide, by decide, fun fs s => packsGroup_eight (delta := false) (exec_encode8 fs s)⟩

/-- Settles O24: the encode of four values, over the deltas against `PREV`. -/
theorem encode4DeltaResult : Obligations.Encode4DeltaResult :=
  ⟨by decide, by decide, fun fs s => packsGroup_four (delta := true) (exec_encode4Delta fs s)⟩

/-- Settles O25: the encode of eight values, over the deltas; those of the second group run against the first group's last value. -/
theorem encode8DeltaResult : Obligations.Encode8DeltaResult :=
  ⟨by decide, by decide, fun fs s => packsGroup_eight (delta := true) (exec_encode8Delta fs s)⟩

/-- Settles O26: the decode of four values. -/
theorem decode4Result : Obligations.Decode4Result :=
  ⟨by decide, by decide, fun fs s => unpacksGroup_four (delta := false) (exec_decode4 fs s)⟩

/-- Settles O27: the decode of eight values. -/
theorem decode8Result : Obligations.Decode8Result :=
  ⟨by decide, by decide, fun fs s => unpacksGroup_eight (delta := false) (exec_decode8 fs s)⟩

/-- Settles O28: the decode of four values, with their running sums from `PREV`. -/
theorem decode4DeltaResult : Obligations.Decode4DeltaResult :=
  ⟨by decide, by decide, fun fs s => unpacksGroup_four (delta := true) (exec_decode4Delta fs s)⟩

/-- Settles O29: the decode of eight values; the running sums of the second group run from the first group's last sum. -/
theorem decode8DeltaResult : Obligations.Decode8DeltaResult :=
  ⟨by decide, by decide, fun fs s => unpacksGroup_eight (delta := true) (exec_decode8Delta fs s)⟩

/-- Settles O49: the expanded register and the group decode have the same bytes, and a group decode reads only the group's own. -/
theorem vectorUnpackEqualsScalar : Obligations.VectorUnpackEqualsScalar := by
  intro c bytes rest h16
  refine ⟨vectorUnpack_eq_decodeGroup c bytes, decodeGroup_congr fun k hk => ?_⟩
  have inBytes : k < (bytes.take (totalLength c)).length := by
    rw [List.length_take, h16]
    exact lt_min hk (hk.trans_le (totalLength_bounds c).2)
  rw [List.getD_append _ _ _ _ inBytes, List.getD_eq_getElem?_getD, List.getElem?_take_of_lt hk, List.getD_eq_getElem?_getD]

end Sys2Proof.Machine
end

section
/-! Proofs about the round trip of a stream (43_stream.md R133 to R135). -/

namespace Sys2Proof.Machine

/-! ### The bytes of a value and of a sequence of values (R75, R97) -/

/-- R97: the bytes of a value from its length class up are zero. -/
theorem byteOf_of_lc_le {v : Word} {k : Nat} (h : lc v ≤ k) : byteOf v k = 0 := by
  have fits : v.toNat < 256 ^ k := ((lc_le_iff v k).mp h).2
  exact BitVec.eq_of_toNat_eq (by rw [byteOf_toNat, Nat.div_eq_of_lt fits]; rfl)

/-- R75: the bytes a value is packed to hold the whole value. -/
theorem le_lebytes_lc (v : Word) : le (lebytes v (lc v)) = v := by
  refine eq_of_byteOf fun k _ => ?_
  rw [byteOf_le (by rw [lebytes_length]; exact (lc_bounds v).2), List.getD_eq_getElem?_getD]
  by_cases h : k < lc v
  · rw [lebytes_getElem? v h, Option.getD_some]
  · have above : (lebytes v (lc v))[k]? = none := List.getElem?_eq_none (by rw [lebytes_length]; omega)
    rw [above, byteOf_of_lc_le (Nat.le_of_not_lt h), Option.getD_none]

/-- The packed bytes of a sequence of values, each in as many bytes as its length class (R75): what `groupBytes_eq_valueBytes` and
`chunkData_eq_valueBytes` say a group's bytes and a stream's group data are. -/
def valueBytes (ws : List Word) : List Byte := ws.flatMap fun v => lebytes v (lc v)

theorem valueBytes_cons (v : Word) (ws : List Word) : valueBytes (v :: ws) = lebytes v (lc v) ++ valueBytes ws :=
  List.flatMap_cons

theorem valueBytes_append (us vs : List Word) : valueBytes (us ++ vs) = valueBytes us ++ valueBytes vs :=
  List.flatMap_append

theorem valueBytes_length (ws : List Word) : (valueBytes ws).length = (ws.map lc).sum := by
  simp [valueBytes, List.length_flatMap]

theorem groupBytes_eq_valueBytes (q : Quad) : groupBytes q = valueBytes q.toList := by
  simp [groupBytes, valueBytes, Quad.toList]

/-- R133: the lanes of a group are its values, then zeros. -/
theorem lanesOf_toList {g : List Word} (hg : g.length ≤ 4) : (lanesOf g).toList = g ++ List.replicate (4 - g.length) 0 := by
  match g with
  | [] | [_] | [_, _] | [_, _, _] | [_, _, _, _] => rfl
  | _ :: _ :: _ :: _ :: _ :: _ => simp only [List.length_cons] at hg; omega

/-- R133: the bytes that the unused lanes add stand last, and the stream leaves them out. -/
theorem chunkData_eq_valueBytes {g : List Word} (hg : g.length ≤ 4) : chunkData g = valueBytes g := by
  rw [chunkData, encodeGroup, groupBytes_eq_valueBytes, lanesOf_toList hg, valueBytes_append, totalLength_chunkCtrl hg,
    Nat.add_sub_cancel]
  exact List.take_left' (valueBytes_length g)

/-! ### The fields of packed values (R81, R84, R111) -/

/-- The control byte `c` declares the lengths of the values `ws` in its first fields. -/
def Declares (c : Byte) (ws : List Word) : Prop := ∀ (i : Nat) (h : i < ws.length), fieldLen c i = lc ws[i]

/-- R98: the control byte of a group declares the lengths of its real values, whatever its unused lanes. -/
theorem chunkCtrl_declares {g : List Word} (hg : g.length ≤ 4) : Declares (chunkCtrl g) g := by
  intro i hi
  obtain ⟨l0, l1, l2, l3⟩ := fieldLen_controlByte (lanesOf g)
  rw [← List.getD_eq_getElem g 0 hi]
  have : i < 4 := by omega
  interval_cases i
  · exact l0
  · exact l1
  · exact l2
  · exact l3

/-- R84: the fields below field `i` are the bytes of the values before value `i`. -/
theorem Declares.fieldOffset_eq {c : Byte} {ws : List Word} (hc : Declares c ws) {i : Nat} (hi : i ≤ ws.length) :
    fieldOffset c i = (valueBytes (ws.take i)).length := by
  induction i with
  | zero => rfl
  | succ i ih =>
    have inside : i < ws.length := hi
    rw [fieldOffset, ih (Nat.le_of_lt inside), hc i inside, List.take_succ_eq_append_getElem inside, valueBytes_append,
      List.length_append, valueBytes_cons, List.length_append, lebytes_length]
    rfl

/-- R111: field `i` of packed values is value `i`, whatever bytes follow them. -/
theorem Declares.fieldValue_eq {c : Byte} {ws : List Word} (hc : Declares c ws) (rest : List Byte) {i : Nat} (hi : i < ws.length) :
    fieldValue c (valueBytes ws ++ rest) i = ws[i] := by
  have bytes : valueBytes ws ++ rest =
      valueBytes (ws.take i) ++ (lebytes ws[i] (lc ws[i]) ++ (valueBytes (ws.drop (i + 1)) ++ rest)) := by
    rw [← List.append_assoc (lebytes _ _), ← valueBytes_cons, List.getElem_cons_drop, ← List.append_assoc, ← valueBytes_append,
      List.take_append_drop]
  rw [fieldValue, bytes, List.drop_left' (hc.fieldOffset_eq (Nat.le_of_lt hi)).symm, hc i hi, List.take_left' (lebytes_length _ _),
    le_lebytes_lc]

/-! ### A group of a stream, decoded (R134) -/

theorem decodeGroup_toList (c : Byte) (bytes : List Byte) : (decodeGroup c bytes).toList = (List.range 4).map (fieldValue c bytes) :=
  rfl

/-- R134: the real values of a group come back; the fields of its unused lanes, which read what follows, are not kept. -/
theorem decodeGroup_chunkData {g : List Word} (hg : g.length ≤ 4) (rest : List Byte) :
    (decodeGroup (chunkCtrl g) (chunkData g ++ rest)).toList.take g.length = g := by
  rw [decodeGroup_toList, chunkData_eq_valueBytes hg]
  refine List.ext_getElem (by simpa using hg) fun i _ hi => ?_
  simp [(chunkCtrl_declares hg).fieldValue_eq rest hi]

/-- R134: `len_g` is the number of a group's data bytes. -/
theorem chunkLen_chunkCtrl {g : List Word} (hg : g.length ≤ 4) : chunkLen (chunkCtrl g) g.length = (chunkData g).length := by
  rw [chunkLen, (chunkCtrl_declares hg).fieldOffset_eq (Nat.le_refl _), List.take_length, chunkData_eq_valueBytes hg]

/-! ### The groups of a stream, decoded (R134, R143) -/

/-- R134: a decode of `n` values whose first group is `g` delivers `g` and goes on behind its data. -/
theorem decodeChunks_chunk {g : List Word} {n : Nat} (hg : min 4 n = g.length) (ctrls data : List Byte) :
    decodeChunks (chunkCtrl g :: ctrls) n (chunkData g ++ data) = g ++ decodeChunks ctrls (n - 4) data := by
  have small : g.length ≤ 4 := hg ▸ Nat.min_le_left 4 n
  rw [decodeChunks, hg, decodeGroup_chunkData small, chunkLen_chunkCtrl small, List.drop_left]

theorem dataLen_chunk {g : List Word} {n : Nat} (hg : min 4 n = g.length) (ctrls : List Byte) :
    dataLen (chunkCtrl g :: ctrls) n = (chunkData g).length + dataLen ctrls (n - 4) := by
  rw [dataLen, hg, chunkLen_chunkCtrl (hg ▸ Nat.min_le_left 4 n)]

/-- R133: the groups of a sequence of values are its first four, or all it has, and those of the others. -/
theorem chunks_of_ne_nil {w : List Word} (h : w ≠ []) : chunks w = w.take 4 :: chunks (w.drop 4) := by
  match w with
  | [] => exact absurd rfl h
  | [_] | [_, _] | [_, _, _] | _ :: _ :: _ :: _ :: _ => rfl

/-- An induction over the groups of a sequence (R133). -/
theorem chunks_induction {P : List Word → Prop} (nil : P []) (group : ∀ w, w ≠ [] → P (w.drop 4) → P w) (w : List Word) : P w := by
  by_cases h : w = []
  · exact h ▸ nil
  · have shorter : (w.drop 4).length < w.length := by
      have := List.length_pos_iff.mpr h
      rw [List.length_drop]
      omega
    exact group w h (chunks_induction nil group (w.drop 4))
termination_by w.length

/-- R135 below the control bytes: the groups' data give the values back, whatever bytes follow. -/
theorem decodeChunks_chunks (w : List Word) (rest : List Byte) :
    decodeChunks ((chunks w).map chunkCtrl) w.length ((chunks w).flatMap chunkData ++ rest) = w := by
  induction w using chunks_induction with
  | nil => rfl
  | group w h ih =>
    rw [chunks_of_ne_nil h, List.map_cons, List.flatMap_cons, List.append_assoc, decodeChunks_chunk List.length_take.symm,
      ← List.length_drop, ih, List.take_append_drop]

/-- R143: the length that the control bytes declare is that of the data. -/
theorem dataLen_chunks (w : List Word) :
    dataLen ((chunks w).map chunkCtrl) w.length = ((chunks w).flatMap chunkData).length := by
  induction w using chunks_induction with
  | nil => rfl
  | group w h ih =>
    rw [chunks_of_ne_nil h, List.map_cons, List.flatMap_cons, dataLen_chunk List.length_take.symm, ← List.length_drop, ih,
      List.length_append]

/-! ### A stream, decoded (R134, R135) -/

/-- R135: a stream gives its values back and is consumed whole, whatever bytes follow it. -/
theorem decodeStream_encodeStream (w : List Word) (rest : List Byte) :
    decodeStream w.length (encodeStream w ++ rest) = (w, (encodeStream w).length) := by
  have ctrls : ((chunks w).map chunkCtrl).length = ctrlCount w.length := by rw [List.length_map, chunks_length]
  rw [decodeStream, encodeStream, List.append_assoc, List.take_left' ctrls, List.drop_left' ctrls, decodeChunks_chunks,
    dataLen_chunks, List.length_append, ctrls]

theorem deltas_length (prev : Word) (vs : List Word) : (deltas prev vs).length = vs.length := by
  induction vs generalizing prev with
  | nil => rfl
  | cons v vs ih => rw [deltas, List.length_cons, List.length_cons, ih]

/-- R112, R113: the running sums undo the deltas against the same `prev`. -/
theorem prefixes_deltas (prev : Word) (vs : List Word) : prefixes prev (deltas prev vs) = vs := by
  induction vs generalizing prev with
  | nil => rfl
  | cons v vs ih =>
    have value : prev + (v - prev) = v := by rw [BitVec.add_comm, BitVec.sub_add_cancel]
    rw [deltas, prefixes, value, ih]

/-- The stream of the deltas decodes to the deltas: `decodeStream_encodeStream` for a count of the values themselves. -/
theorem decodeStream_encodeStream_deltas (prev : Word) (vs : List Word) (rest : List Byte) :
    decodeStream vs.length (encodeStream (deltas prev vs) ++ rest) = (deltas prev vs, (encodeStream (deltas prev vs)).length) := by
  have decoded := decodeStream_encodeStream (deltas prev vs) rest
  rwa [deltas_length] at decoded

/-! ### The obligation -/

/-- Settles O53: group by group a stream gives its values back; the stream of the deltas gives the deltas, which the running sums
undo. -/
theorem streamRoundTrip : Obligations.StreamRoundTrip := by
  intro v prev rest
  have whole := decodeStream_encodeStream_deltas prev v []
  rw [List.append_nil] at whole
  exact ⟨decodeStream_encodeStream v rest, by rw [decodeStream_encodeStream_deltas, prefixes_deltas], by rw [whole]⟩

end Sys2Proof.Machine
end

section
/-! Proofs about the interrupt output (60_exceptions.md R160). -/

namespace Sys2Proof.Machine

/-! ### The output as the CSRs read -/

theorem getLsbD_one_append_ofBool {n : Nat} (x : BitVec n) (b c : Bool) :
    (x ++ BitVec.ofBool b ++ BitVec.ofBool c).getLsbD 1 = b := by
  rw [BitVec.getLsbD_append, BitVec.getLsbD_append]
  simp

/-- R23: `DONE` is bit 1 of the `STATUS` word. -/
@[simp] theorem Status.toWord_getLsbD_one (st : Status) : st.toWord.getLsbD 1 = st.done :=
  getLsbD_one_append_ofBool _ st.done st.busy

theorem csrRead_status (s : State) : csrRead 0x010 s = s.status.toWord := csrRead_of_csrAt (r := .status) rfl s

theorem csrRead_irqEn (s : State) : csrRead 0x014 s = (BitVec.ofBool s.doneEn).setWidth 32 :=
  csrRead_of_csrAt (r := .irqEn) rfl s

/-- R160 at the CSR block: the two bits that the host reads decide the output. -/
theorem irq_eq_csrRead (s : State) : s.irq = ((csrRead 0x010 s).getLsbD 1 && (csrRead 0x014 s).getLsbD 0) := by
  rw [csrRead_status, csrRead_irqEn, Status.toWord_getLsbD_one]
  simp [State.irq]

/-! ### Completion -/

@[simp] theorem finish_irq (s : State) : (finish s).irq = s.doneEn := Bool.true_and _

@[simp] theorem raiseError_irq (e : CmdError) (s : State) : (raiseError e s).irq = s.doneEn := Bool.true_and _

/-- A command started in `s` ends in `t` (R46, R154): some state with the command's results, none of which is `IRQ_EN`, is completed
without or with an error. -/
def State.CompletesTo (s t : State) : Prop := ∃ u : State, u.doneEn = s.doneEn ∧ (t = finish u ∨ ∃ e, t = raiseError e u)

theorem State.CompletesTo.finish {s u : State} (h : u.doneEn = s.doneEn) : s.CompletesTo (finish u) := ⟨u, h, .inl rfl⟩

theorem State.CompletesTo.raiseError {s u : State} (e : CmdError) (h : u.doneEn = s.doneEn) : s.CompletesTo (raiseError e u) :=
  ⟨u, h, .inr ⟨e, rfl⟩⟩

/-- A completion, with or without an error, sets `DONE`. -/
theorem State.CompletesTo.irq_eq {s t : State} (h : s.CompletesTo t) : t.irq = s.doneEn := by
  obtain ⟨u, hen, rfl | ⟨e, rfl⟩⟩ := h
  · rw [finish_irq, hen]
  · rw [raiseError_irq, hen]

/-- A state that differs from `s` in other fields than `IRQ_EN` starts the same command. -/
theorem State.CompletesTo.of_doneEn_eq {s s' t : State} (h : s'.CompletesTo t) (hen : s'.doneEn = s.doneEn) : s.CompletesTo t := by
  obtain ⟨u, hu, ht⟩ := h
  exact ⟨u, hu.trans hen, ht⟩

theorem groupEncode_completesTo (w8 delta : Bool) (s : State) : s.CompletesTo (groupEncode w8 delta s) := by
  obtain ⟨-, e⟩ | ⟨-, e⟩ := groupEncode_cases w8 delta s <;> rw [e]
  · exact .raiseError _ rfl
  · exact .finish rfl

theorem groupDecode_completesTo (w8 delta : Bool) (s : State) : s.CompletesTo (groupDecode w8 delta s) := by
  obtain ⟨-, e⟩ | ⟨-, e⟩ := groupDecode_cases w8 delta s <;> rw [e]
  · exact .raiseError _ rfl
  · exact .finish rfl

theorem runTransfer_completesTo (z : Bool) (tr : List Access) (p : StreamPlan) (s : State) : s.CompletesTo (runTransfer z tr p s) := by
  obtain ⟨-, e⟩ | ⟨-, e⟩ | ⟨-, e⟩ := runTransfer_cases z tr p s <;> rw [e]
  · exact .raiseError _ rfl
  · exact .finish rfl
  · exact .finish rfl

theorem streamEncode_completesTo (delta fs : Bool) (s : State) : s.CompletesTo (streamEncode delta fs s) := by
  obtain ⟨_, -, e⟩ | ⟨-, _, e⟩ := streamEncode_cases delta fs s <;> rw [e]
  · exact .raiseError _ rfl
  · exact runTransfer_completesTo _ _ _ s

theorem streamDecode_completesTo (delta fs : Bool) (s : State) : s.CompletesTo (streamDecode delta fs s) := by
  obtain ⟨_, -, e⟩ | ⟨-, _, ⟨-, e⟩ | ⟨-, e⟩ | ⟨-, _, e⟩⟩ := streamDecode_cases delta fs s <;> rw [e]
  · exact .raiseError _ rfl
  · exact .raiseError _ rfl
  · exact .raiseError _ rfl
  · exact (runTransfer_completesTo _ _ _ _).of_doneEn_eq rfl

/-- R45, R46, R154: every command that answers has completed, without or with an error. -/
theorem exec_completesTo {i : Instr} {s t : State} (h : exec i s = .next t) : s.CompletesTo t := by
  cases i <;> cases h
  case lenLookup | lenLookupWord | shufEncRead | shufDecRead | ctrlByte | ctrlWord => exact .finish rfl
  case encode4 | encode8 | encode4Delta | encode8Delta => exact groupEncode_completesTo _ _ s
  case decode4 | decode8 | decode4Delta | decode8Delta => exact groupDecode_completesTo _ _ s
  case writeAll fs | writeAllDelta fs => exact streamEncode_completesTo _ fs s
  case readAll fs | readAllDelta fs => exact streamDecode_completesTo _ fs s

/-! ### Accept, acknowledgement and reset -/

theorem irq_of_not_done {s : State} (h : s.status.done = false) : s.irq = false := by
  rw [State.irq, h, Bool.false_and]

theorem acknowledge_irq {w : Word} (h : w.getLsbD 1 = true) (s : State) : (acknowledge w s).irq = false :=
  irq_of_not_done (by simp [h])

@[simp] theorem hostReset_status (s : State) : (hostReset s).status = Status.reset := by
  unfold hostReset
  split <;> rfl

@[simp] theorem accessInReset_status (a : Option CsrAccess) (s : State) : (accessInReset a s).status = s.status := by
  unfold accessInReset
  split <;> rfl

theorem hostOp_rst_status (a : Option CsrAccess) (s : State) : (hostOp (.rst a) s).status = Status.reset := by
  rw [hostOp, accessInReset_status, hostReset_status]

/-! ### The obligation -/

/-- Settles O13: every completion sets `DONE` and keeps the enable; accept, acknowledgement and reset leave `DONE` 0. -/
theorem interruptOutput : Obligations.InterruptOutput := by
  refine ⟨irq_eq_csrRead, fun i s t h => (exec_completesTo h).irq_eq, fun w s => irq_of_not_done rfl, fun w s h => ?_,
    fun a s => irq_of_not_done ?_, irq_of_not_done rfl⟩
  · rw [csrWrite_status rfl]
    exact acknowledge_irq h s
  · rw [hostOp_rst_status]
    rfl

end Sys2Proof.Machine
end

section
/-! Proofs about the encoding of a command word and about single turns (30_encoding.md R69, R70; 10_state.md R45). -/

namespace Sys2Proof.Machine

/-! ### The fields of a word (R69) -/

theorem wordOfFields_fieldsOfWord (w : Word) : wordOfFields (fieldsOfWord w) = w := by
  ext i hi
  simp only [wordOfFields, fieldsOfWord, ← BitVec.getLsbD_eq_getElem, BitVec.getLsbD_append, BitVec.getLsbD_extractLsb',
    BitVec.getLsbD_ofBool]
  by_cases h6 : i < 6
  · simp [h6]
  by_cases h8 : i < 8
  · have low : i - 6 < 2 := by omega
    simp [h6, low, show 6 + (i - 6) = i by omega]
  by_cases h9 : i = 8
  · subst h9; simp
  · have high : i - 9 < 23 := by omega
    simp [h6, show ¬ i - 6 < 2 by omega, show ¬ i - 6 - 2 < 1 by omega, show i - 6 - 2 - 1 = i - 9 by omega, high,
      show 9 + (i - 9) = i by omega]

/-- R70: the map answers a command exactly at its opcode, with the `FORCE_SCALAR` it is given. -/
theorem opcodeMap_eq_command_iff (op : BitVec 6) (fs : Bool) (i : Instr) :
    opcodeMap op fs = .command i ↔ fs = i.forceScalar ∧ op = i.opcode := by
  refine ⟨fun h => ?_, ?_⟩
  · unfold opcodeMap at h
    split at h <;> cases h
    all_goals
      next opcode => exact ⟨rfl, BitVec.eq_of_toNat_eq opcode⟩
  · rintro ⟨rfl, rfl⟩
    exact opcodeMap_opcode i

/-- R69: a word spells a command exactly when its reserved fields are zero and the map answers it. -/
theorem decode_eq_command_iff (w : Word) (i : Instr) :
    decode w = .command i ↔ fieldsOfWord w = { reservedHigh := 0, forceScalar := i.forceScalar, reservedLow := 0, opcode := i.opcode } := by
  rcases hf : fieldsOfWord w with ⟨high, fs, low, op⟩
  by_cases hhigh : high = 0#23
  · by_cases hlow : low = 0#2
    · simp [decode, hf, hhigh, hlow, opcodeMap_eq_command_iff]
    · simp [decode, hf, hhigh, hlow]
  · simp [decode, hf, hhigh]

/-- The fields of a command's word are those its encoding string names. -/
theorem fieldsOfWord_encode (i : Instr) :
    fieldsOfWord (encode i) = { reservedHigh := 0, forceScalar := i.forceScalar, reservedLow := 0, opcode := i.opcode } := by
  cases i <;> rename_i fs <;> cases fs <;> rfl

/-! ### Turns -/

theorem nextTurn_of_no_turns {s : State} (h : s.turns = []) : s.nextTurn = (.engine, s) := by
  simp [State.nextTurn, h]

theorem engineTurn_of_idle (run : Instr → State → Host.Outcome State Fault Refusal) {s : State} (h : s.engine = .idle) :
    engineTurn run s = .next s := by
  simp [engineTurn, h]

theorem engineTurn_of_command (run : Instr → State → Host.Outcome State Fault Refusal) {s : State} {w : Word} {snap : Operands}
    {r : Option Memory} {i : Instr} (hb : s.engine = .busy w snap r) (hd : decode w = .command i) : engineTurn run s = run i s := by
  simp [engineTurn, hb, hd]

/-- Taking a turn leaves the engine. -/
theorem engine_of_nextTurn {s s' : State} {t : Turn} (h : s.nextTurn = (t, s')) : s'.engine = s.engine := by
  have := nextTurn_engine s
  rwa [h] at this

/-! ### The obligations -/

/-- Settles O1: a word is its fields, and decoding reads every field. -/
theorem decodeEncodeAgree : Obligations.DecodeEncodeAgree := by
  intro w i _
  rw [decode_eq_command_iff, ← fieldsOfWord_encode]
  refine ⟨fun h => ?_, fun h => h ▸ rfl⟩
  rw [← wordOfFields_fieldsOfWord w, h, wordOfFields_fieldsOfWord]

/-- Settles O3: each word, decoded by evaluation. -/
theorem sampleWordsDecode : Obligations.SampleWordsDecode := by
  refine ⟨?_, ?_, ?_, ?_, ?_, ?_, ?_⟩ <;> decide

/-- Settles O4: a step is the turn at the head of the list, and `withFetchWord` puts the engine's there. -/
theorem stepRunsAcceptedCommand : Obligations.StepRunsAcceptedCommand := by
  refine ⟨fun s t ts => ⟨nextTurn_of_turns, nextTurn_of_no_turns⟩, fun s s' w snap r i ht hb hd _ => ?_, fun s s' ht hi => ?_,
    fun s s' op ht => step_host s s' op ht, fun s off w => ⟨rfl, rfl⟩, fun s w i hd => ?_⟩
  · rw [step_engine s s' ht, engineTurn_of_command exec ((engine_of_nextTurn ht).trans hb) hd]
  · rw [step_engine s s' ht, engineTurn_of_idle exec ((engine_of_nextTurn ht).trans hi)]
  · have placed : s.withFetchWord 32 w.toNat = placeCommand w s := by
      rw [State.withFetchWord, Nat.mod_eq_of_lt w.isLt, BitVec.ofNat_toNat, BitVec.setWidth_eq]
    have turn : (placeCommand w s).nextTurn = (.engine, accept w s) := nextTurn_of_turns rfl
    rw [placed, step_engine _ _ turn, engineTurn_of_command exec (accept_engine w s) hd]

/-- Settles O36: the record of each error, evaluated. -/
theorem errorRecord : Obligations.ErrorRecord := by
  intro s
  exact ⟨rfl, rfl, rfl, rfl, fun _ => rfl, fun _ => rfl, rfl⟩

end Sys2Proof.Machine
end

section
/-! Proofs about what a state keeps at every step: the invariant of Safety.lean (10_state.md R20, R23, R31, R35, R41 to R46). -/

namespace Sys2Proof.Machine

/-! ### Everything of the invariant but the engine -/

/-- The part of `State.Wf` that does not speak of the engine: what a completion takes over, whatever it completes. -/
structure State.Sound (s : State) : Prop where
  mem_canonical : Memory.wf s.mem = true
  status_wf : s.status.Wf
  mode_is_caps : s.modeAccel = s.accelPresent
  pack_len_le : s.ops.packLen.toNat ≤ 32
  lens_reserved : s.lens &&& 0xF8F8F8F8 = 0
  lens_hi_reserved : s.lensHi &&& 0xF8F8F8F8 = 0

theorem State.Wf.sound {s : State} (h : s.Wf) : s.Sound where
  mem_canonical := h.mem_canonical
  status_wf := h.status_wf
  mode_is_caps := h.mode_is_caps
  pack_len_le := h.pack_len_le
  lens_reserved := h.lens_reserved
  lens_hi_reserved := h.lens_hi_reserved

theorem State.Sound.wf {s : State} (h : s.Sound) (engine : EngineWf s) : s.Wf where
  mem_canonical := h.mem_canonical
  status_wf := h.status_wf
  engine_wf := engine
  mode_is_caps := h.mode_is_caps
  pack_len_le := h.pack_len_le
  lens_reserved := h.lens_reserved
  lens_hi_reserved := h.lens_hi_reserved

theorem engineWf_of_idle {s : State} (he : s.engine = .idle) (hb : s.status.busy = false) : EngineWf s := by
  simpa [EngineWf, he] using hb

theorem engineWf_of_busy_iff {s : State} {cmd : Word} {snap : Operands} {race : Option Memory} (he : s.engine = .busy cmd snap race) :
    EngineWf s ↔ s.status.busy = true ∧ s.cmd = cmd ∧ snap = s.ops ∧ ∀ m, race = some m → Memory.wf m = true := by
  simp [EngineWf, he]

/-! ### The changes of `STATUS` (R23) -/

theorem Status.reset_wf : Status.reset.Wf := ⟨by decide, by decide, by decide, by decide⟩

theorem Status.accepted_wf (st : Status) : st.accepted.Wf := by
  constructor <;> simp

theorem Status.Wf.completed {st : Status} (h : st.Wf) : st.completed.Wf where
  busy_clears := fun hb => by cases hb
  no_error_no_code := h.no_error_no_code
  code_known := h.code_known
  window_named := h.window_named

/-- R151: every error has one of the five codes, and names a window only with the two that have one. -/
theorem Status.failed_wf (st : Status) (e : CmdError) : (st.failed e.code e.win).Wf where
  busy_clears := fun hb => by cases hb
  no_error_no_code := fun he => by cases he
  code_known := by cases e <;> simp [CmdError.code]
  window_named := by cases e <;> simp [CmdError.code, CmdError.win]

theorem Status.Wf.overran {st : Status} (h : st.Wf) : st.overran.Wf := { h with }

/-- R24: a write that clears `ERR` clears what hangs on it. -/
theorem Status.Wf.hostWrite {st : Status} (h : st.Wf) (w : Word) : (st.hostWrite w).Wf where
  busy_clears := fun hb => by
    obtain ⟨hd, he⟩ := h.busy_clears hb
    simp [hd, he]
  no_error_no_code := fun he => by
    cases hw : w.getLsbD 2 with
    | true => simp only [Status.hostWrite_errCode, Status.hostWrite_errWin, hw, if_true, Bool.not_true, Bool.and_false, and_self]
    | false =>
      obtain ⟨hc, hn⟩ := h.no_error_no_code (by simpa only [Status.hostWrite_err, hw, Bool.not_false, Bool.and_true] using he)
      simp [hc, hn]
  code_known := by
    rw [Status.hostWrite_errCode]
    split
    · decide
    · exact h.code_known
  window_named := fun hn => by
    rw [Status.hostWrite_errWin, Bool.and_eq_true, Bool.not_eq_true'] at hn
    simpa only [Status.hostWrite_errCode, hn.2, Bool.false_eq_true, if_false] using h.window_named hn.1

/-! ### Completion -/

theorem State.Sound.finish {s : State} (h : s.Sound) : (finish s).Wf :=
  State.Sound.wf { h with status_wf := h.status_wf.completed } (engineWf_of_idle rfl rfl)

theorem State.Sound.raiseError {s : State} (h : s.Sound) (e : CmdError) : (raiseError e s).Wf :=
  State.Sound.wf { h with status_wf := Status.failed_wf s.status e } (engineWf_of_idle rfl rfl)

theorem State.Sound.disturbFootprint {s : State} (h : s.Sound) (z : Bool) (f : List Byte) : (disturbFootprint z f s).Sound :=
  { h with mem_canonical := Memory.writeVia_wf _ _ _ _ h.mem_canonical }

/-! ### The commands -/

/-- R35, R93: a length is at most 4, so bits [7:3] of every byte of `LENS` are zero. -/
theorem lensWord_reserved (c : Byte) : lensWord c &&& 0xF8F8F8F8 = 0 := by
  revert c
  decide

theorem groupEncode_wf (w8 delta : Bool) {s : State} (h : s.Sound) : (groupEncode w8 delta s).Wf := by
  obtain ⟨-, e⟩ | ⟨-, e⟩ := groupEncode_cases w8 delta s <;> rw [e]
  · exact h.raiseError _
  · exact State.Sound.finish { h with }

theorem groupDecode_wf (w8 delta : Bool) {s : State} (h : s.Sound) : (groupDecode w8 delta s).Wf := by
  obtain ⟨-, e⟩ | ⟨-, e⟩ := groupDecode_cases w8 delta s <;> rw [e]
  · exact h.raiseError _
  · exact State.Sound.finish { h with }

theorem runTransfer_wf (z : Bool) (tr : List Access) (p : StreamPlan) {s : State} (h : s.Sound) : (runTransfer z tr p s).Wf := by
  have h' (q : List Bool) : ({ s with memErrs := q } : State).Sound := { h with }
  obtain ⟨-, e⟩ | ⟨-, e⟩ | ⟨-, e⟩ := runTransfer_cases z tr p s <;> rw [e]
  · exact ((h' _).disturbFootprint z p.final).raiseError _
  · exact State.Sound.finish { h with mem_canonical := Memory.writeVia_wf _ _ _ _ h.mem_canonical }
  · exact State.Sound.finish { h with mem_canonical := Memory.writeVia_wf _ _ _ _ h.mem_canonical }

theorem streamEncode_wf (delta fs : Bool) {s : State} (h : s.Sound) : (streamEncode delta fs s).Wf := by
  obtain ⟨_, -, e⟩ | ⟨-, _, e⟩ := streamEncode_cases delta fs s <;> rw [e]
  · exact h.raiseError _
  · exact runTransfer_wf _ _ _ h

theorem streamDecode_wf (delta fs : Bool) {s : State} (h : s.Sound) : (streamDecode delta fs s).Wf := by
  have h' (q : List Bool) : ({ s with memErrs := q } : State).Sound := { h with }
  obtain ⟨_, -, e⟩ | ⟨-, _, ⟨-, e⟩ | ⟨-, e⟩ | ⟨-, _, e⟩⟩ := streamDecode_cases delta fs s <;> rw [e]
  · exact h.raiseError _
  · exact ((h' _).disturbFootprint false _).raiseError _
  · exact (h' _).raiseError _
  · exact runTransfer_wf _ _ _ (h' _)

theorem exec_wf {i : Instr} {s t : State} (h : s.Sound) (he : exec i s = .next t) : t.Wf := by
  cases i <;> cases he
  case lenLookup => exact State.Sound.finish { h with lens_reserved := lensWord_reserved _ }
  case lenLookupWord =>
    exact State.Sound.finish { h with lens_reserved := lensWord_reserved _, lens_hi_reserved := lensWord_reserved _ }
  case shufEncRead | shufDecRead | ctrlByte | ctrlWord => exact State.Sound.finish { h with }
  case encode4 | encode8 | encode4Delta | encode8Delta => exact groupEncode_wf _ _ h
  case decode4 | decode8 | decode4Delta | decode8Delta => exact groupDecode_wf _ _ h
  case writeAll fs | writeAllDelta fs => exact streamEncode_wf _ fs h
  case readAll fs | readAllDelta fs => exact streamDecode_wf _ fs h

theorem engineTurn_wf {s t : State} (h : s.Wf) (he : engineTurn exec s = .next t) : t.Wf := by
  unfold engineTurn at he
  split at he
  · cases he; exact h
  · split at he
    · exact exec_wf h.sound he
    · cases he; exact h.sound.raiseError _

/-! ### The host's operations -/

/-- A dropped write changes `OVERRUN` only, on which nothing of the invariant hangs. -/
theorem wf_overran {s : State} (h : s.Wf) : ({ s with status := s.status.overran } : State).Wf :=
  { h with status_wf := h.status_wf.overran }

/-- R42: accept takes the snapshot and the word with which the engine is in step. -/
theorem accept_wf (w : Word) {s : State} (h : s.Wf) : (accept w s).Wf :=
  State.Sound.wf { h.sound with status_wf := Status.accepted_wf s.status }
    ((engineWf_of_busy_iff (accept_engine w s)).2 ⟨rfl, rfl, rfl, fun _ hm => by cases hm⟩)

theorem acknowledge_wf (w : Word) {s : State} (h : s.Wf) : (acknowledge w s).Wf :=
  { h with status_wf := h.status_wf.hostWrite w }

/-- A host write that an idle engine's operand CSR takes. -/
theorem operandWrite_wf (r : CsrName) (w : Word) {s : State} (h : s.Wf) (hi : s.isBusy = false) :
    ({ s with ops := operandWrite r w s.ops } : State).Wf := by
  have idle : s.engine = .idle := by
    cases he : s.engine with
    | idle => rfl
    | busy cmd snap race => rw [isBusy_of_busy he] at hi; cases hi
  have notBusy : s.status.busy = false := by simpa [EngineWf, idle] using h.engine_wf
  exact State.Sound.wf { h.sound with pack_len_le := operandWrite_packLen_le r w s.ops h.pack_len_le } (engineWf_of_idle idle notBusy)

theorem csrStore_wf (r : CsrName) (w : Word) {s : State} (h : s.Wf) (hk : writeKind r = .always ∨ s.isBusy = false) :
    (csrStore r w s).Wf := by
  have operand (hn : writeKind r ≠ .always) : ({ s with ops := operandWrite r w s.ops } : State).Wf :=
    operandWrite_wf r w h (hk.resolve_left hn)
  cases r with
  | cmd => exact accept_wf w h
  | status => exact acknowledge_wf w h
  | irqEn => exact { h with }
  | _ => exact operand nofun

theorem csrWrite_wf (off : BitVec 12) (w : Word) {s : State} (h : s.Wf) : (csrWrite off w s).Wf := by
  obtain e | ⟨-, e⟩ | ⟨r, -, hk, e⟩ := csrWrite_cases off w s <;> rw [e]
  · exact h
  · exact wf_overran h
  · exact csrStore_wf r w h hk

theorem hostMemRead_wf (addr : Word) {s : State} (h : s.Wf) : (hostMemRead addr s).Wf := by
  unfold hostMemRead
  split <;> exact { h with }

/-- The engine keeps its word and snapshot across a host write, and the memory a race keeps is the one found. -/
theorem hostMemWrite_wf (addr : Word) (b : Byte) {s : State} (h : s.Wf) : (hostMemWrite addr b s).Wf := by
  refine State.Sound.wf { h.sound with mem_canonical := Memory.write_wf _ _ b h.mem_canonical } ?_
  cases he : s.engine with
  | idle => exact engineWf_of_idle (by rw [hostMemWrite_engine, he, Engine.afterHostWrite]) (by simpa [EngineWf, he] using h.engine_wf)
  | busy cmd snap race =>
    obtain ⟨hb, hc, ho, hr⟩ := (engineWf_of_busy_iff he).1 h.engine_wf
    refine (engineWf_of_busy_iff (by rw [hostMemWrite_engine, he, Engine.afterHostWrite])).2 ⟨hb, hc, ho, fun m hm => ?_⟩
    cases race with
    | some m' => exact hr m hm
    | none =>
      rw [Option.none_or] at hm
      split at hm <;> cases hm
      exact h.mem_canonical

/-- R169: whatever is in memory, the CSRs take their reset values. -/
theorem resetCsrs_wf {s : State} (h : Memory.wf s.mem = true) : (resetCsrs s).Wf where
  mem_canonical := h
  status_wf := Status.reset_wf
  engine_wf := engineWf_of_idle rfl rfl
  mode_is_caps := rfl
  pack_len_le := by simp [Operands.reset]
  lens_reserved := by simp
  lens_hi_reserved := by simp

theorem hostReset_wf {s : State} (h : s.Wf) : (hostReset s).Wf := by
  unfold hostReset
  split
  · exact resetCsrs_wf h.mem_canonical
  · exact resetCsrs_wf (h.sound.disturbFootprint _ _).mem_canonical

theorem accessInReset_wf (a : Option CsrAccess) {s : State} (h : s.Wf) : (accessInReset a s).Wf := by
  unfold accessInReset
  split
  · exact h
  · exact h
  · exact { h with }

theorem hostOp_wf (op : HostOp) {s : State} (h : s.Wf) : (hostOp op s).Wf := by
  cases op with
  | idle => exact h
  | csr a =>
    cases a with
    | read off => exact { h with }
    | write off w => exact csrWrite_wf off w h
  | memRead addr => exact hostMemRead_wf addr h
  | memWrite addr b => exact hostMemWrite_wf addr b h
  | rst a => exact accessInReset_wf a (hostReset_wf h)

/-! ### The obligations -/

/-- Settles O59: the turn taken off the list is the engine's or the host's, and either keeps the invariant. -/
theorem stepKeepsWf : Obligations.StepKeepsWf := by
  intro s t h he
  rcases ht : s.nextTurn with ⟨turn, s'⟩
  have h' : s'.Wf := by
    obtain ⟨ts, e⟩ := nextTurn_state s
    rw [ht] at e
    change s' = _ at e
    rw [e]
    exact { h with }
  cases turn with
  | engine => exact engineTurn_wf h' (step_engine s s' ht ▸ he)
  | host op =>
    rw [step_host s s' op ht] at he
    cases he
    exact hostOp_wf op h'

/-- Settles O60: reset leaves empty memory, and the CSRs as a clock edge with `rst = 1` does. -/
theorem resetIsWf : Obligations.ResetIsWf := resetCsrs_wf (s := State.reset) rfl

end Sys2Proof.Machine
end

section
/-! Proofs about what the CSRs read: in every state, after a host write, beside a running command and after reset
(10_state.md R15 to R35, R43, R44; 70_reset_and_hazards.md R169, R170). -/

namespace Sys2Proof.Machine

/-! ### The CSR map (R15, R16) -/

theorem cond_or_rest_of_ite_some {α : Type} {c : Prop} [Decidable c] {a b : α} {rest : Option α}
    (h : (if c then some a else rest) = some b) : (c ∧ a = b) ∨ rest = some b := by
  split at h
  · next hc => exact .inl ⟨hc, Option.some.inj h⟩
  · exact .inr h

theorem csrAt_eq_some_iff (off : BitVec 12) (r : CsrName) : csrAt off = some r ↔ off.toNat / 4 = csrIndex r := by
  refine ⟨fun h => ?_, csrAt_of_index⟩
  unfold csrAt at h
  iterate 17
    obtain ⟨hc, rfl⟩ | h := cond_or_rest_of_ite_some h
    · exact hc
  split at h
  · cases h; simp only [csrIndex]; omega
  · split at h <;> cases h
    simp only [csrIndex]; omega

/-- R15: bits [1:0] of an offset are ignored. -/
theorem csrAt_congr {off off' : BitVec 12} (h : off.toNat / 4 = off'.toNat / 4) : csrAt off = csrAt off' :=
  Option.ext fun r => by rw [csrAt_eq_some_iff, csrAt_eq_some_iff, h]

theorem csrAt_eq_none_of_forall {off : BitVec 12} (h : ∀ r, off.toNat / 4 ≠ csrIndex r) : csrAt off = none :=
  Option.eq_none_iff_forall_ne_some.mpr fun r hr => h r ((csrAt_eq_some_iff off r).mp hr)

theorem csrRead_of_no_csr {off : BitVec 12} (h : csrAt off = none) (s : State) : csrRead off s = 0 := by
  simp [csrRead, h]

theorem and_mask_div_four (off : BitVec 12) : (off &&& 0xFFC).toNat / 4 = off.toNat / 4 := by
  have shifted : (off &&& 0xFFC) >>> 2 = off >>> 2 := by
    ext i hi
    by_cases h : 2 + i < 12
    · have bit : (0xFFC#12).getLsbD (2 + i) = true := by
        have := show i < 10 by omega
        interval_cases i <;> rfl
      simp [BitVec.getElem_ushiftRight, BitVec.getLsbD_and, bit]
    · simp [BitVec.getElem_ushiftRight, BitVec.getLsbD_of_ge _ (2 + i) (Nat.le_of_not_lt h)]
  have values := congrArg BitVec.toNat shifted
  simpa [BitVec.toNat_ushiftRight, Nat.shiftRight_eq_div_pow] using values

/-- R16: what a read at the byte offset of a CSR gives. -/
theorem csrRead_of_offset {off : BitVec 12} (r : CsrName) (h : off.toNat / 4 * 4 = 4 * csrIndex r) (s : State) :
    csrRead off s = csrValue r s :=
  csrRead_of_csrAt (csrAt_of_index (by omega)) s

/-- R16: the offsets between the banks and behind them name no CSR. -/
theorem csrAt_of_unmapped {off : BitVec 12}
    (h : (0x044 ≤ off.toNat / 4 * 4 ∧ off.toNat / 4 * 4 ≤ 0x05C) ∨ 0x0A0 ≤ off.toNat / 4 * 4) : csrAt off = none := by
  refine csrAt_eq_none_of_forall fun r hr => ?_
  cases r
  all_goals simp only [csrIndex] at hr; omega

/-- The access column of R16 by offset: where the read-only CSRs stand. -/
theorem exists_readOnly_of_offset {j : Nat} (h : j * 4 ≤ 0x008 ∨ j * 4 = 0x030 ∨ j * 4 = 0x03C ∨ j * 4 = 0x040) :
    ∃ r, j = csrIndex r ∧ writeKind r = .readOnly := by
  obtain h | h | h | h := h
  · have : j ≤ 2 := by omega
    interval_cases j
    exacts [⟨.id, rfl, rfl⟩, ⟨.caps, rfl, rfl⟩, ⟨.mode, rfl, rfl⟩]
  · exact ⟨.resultLen, by simp only [csrIndex]; omega, rfl⟩
  · exact ⟨.lens, by simp only [csrIndex]; omega, rfl⟩
  · exact ⟨.lensHi, by simp only [csrIndex]; omega, rfl⟩

/-! ### The bits of a read (R17 to R25) -/

theorem setWidth_ofBool (b : Bool) : (BitVec.ofBool b).setWidth 32 = if b then 1 else 0 := by
  cases b <;> rfl

/-- R23: where each field of `STATUS` stands, and that the other bits are zero. -/
theorem Status.toWord_fields (st : Status) :
    st.toWord.getLsbD 0 = st.busy ∧ st.toWord.getLsbD 1 = st.done ∧ st.toWord.getLsbD 2 = st.err ∧ st.toWord.getLsbD 3 = st.overrun ∧
      st.toWord.extractLsb' 8 4 = st.errCode ∧ st.toWord.getLsbD 12 = st.errWin ∧ st.toWord &&& 0xFFFFE0F0 = 0 := by
  have layout : ∀ (w o e d b : Bool) (c : BitVec 4),
      let x : Word := (0 : BitVec 19) ++ BitVec.ofBool w ++ c ++ (0 : BitVec 4) ++ BitVec.ofBool o ++ BitVec.ofBool e
        ++ BitVec.ofBool d ++ BitVec.ofBool b
      x.getLsbD 0 = b ∧ x.getLsbD 1 = d ∧ x.getLsbD 2 = e ∧ x.getLsbD 3 = o ∧ x.extractLsb' 8 4 = c ∧ x.getLsbD 12 = w ∧
        x &&& 0xFFFFE0F0 = 0 := by decide
  exact layout st.errWin st.overrun st.err st.done st.busy st.errCode

/-! ### What a taken host write leaves (R22 to R34) -/

theorem bankGet_bankSet_same (b : Bank) (k : Fin 8) (v : Word) : bankGet (bankSet b k v) k = v := by
  fin_cases k <;> rfl

theorem bankGet_bankSet_other (b : Bank) {j k : Fin 8} (h : j ≠ k) (v : Word) : bankGet (bankSet b k v) j = bankGet b j := by
  fin_cases k <;> fin_cases j <;> simp [bankGet, bankSet] at h ⊢

/-- R22, R26 to R30, R33, R34: a CSR that a BUSY engine guards holds the whole word written, but for the two with narrower fields. -/
theorem csrValue_csrStore_same {r : CsrName} (hk : writeKind r = .whileIdle) (hc : r ≠ .ctrlIo) (hp : r ≠ .packLen) (w : Word)
    (s : State) : csrValue r (csrStore r w s) = w := by
  cases r with
  | ctrlIo => exact absurd rfl hc
  | packLen => exact absurd rfl hp
  | val k | pack k => exact bankGet_bankSet_same _ k w
  | id | caps | mode | status | irqEn | resultLen | lens | lensHi => cases hk
  | _ => rfl

/-- A write that an operand CSR takes changes the reading of that CSR only. -/
theorem csrValue_operandWrite_other {r r' : CsrName} (h : r' ≠ r) (w : Word) (s : State) :
    csrValue r' { s with ops := operandWrite r w s.ops } = csrValue r' s := by
  cases r
  case val k =>
    cases r' with
    | val j => exact bankGet_bankSet_other _ (fun e => h (congrArg _ e)) w
    | _ => rfl
  case pack k =>
    cases r' with
    | pack j => exact bankGet_bankSet_other _ (fun e => h (congrArg _ e)) w
    | _ => rfl
  case id | caps | mode | cmd | status | irqEn | resultLen | lens | lensHi => rfl
  all_goals
    cases r' <;> simp [csrValue, operandWrite] at h ⊢

/-- A taken write to any CSR but `CMD` changes the reading of that CSR only, and neither memory nor the engine. -/
theorem csrStore_frame {r : CsrName} (hc : r ≠ .cmd) (w : Word) (s : State) :
    (∀ r', r' ≠ r → csrValue r' (csrStore r w s) = csrValue r' s) ∧ (r ≠ .status → (csrStore r w s).status = s.status) ∧
      (csrStore r w s).mem = s.mem ∧ (csrStore r w s).engine = s.engine := by
  cases r with
  | cmd => exact absurd rfl hc
  | status =>
    refine ⟨fun r' h => ?_, fun h => absurd rfl h, rfl, rfl⟩
    cases r' <;> simp [csrValue, csrStore] at h ⊢
  | irqEn =>
    refine ⟨fun r' h => ?_, fun _ => rfl, rfl, rfl⟩
    cases r' <;> simp [csrValue, csrStore] at h ⊢
  | _ => exact ⟨fun r' h => csrValue_operandWrite_other h w s, fun _ => rfl, rfl, rfl⟩

/-- Setting `OVERRUN` changes the reading of `STATUS` only. -/
theorem csrRead_overran {off : BitVec 12} (h : off.toNat / 4 ≠ csrIndex .status) (s : State) :
    csrRead off { s with status := s.status.overran } = csrRead off s := by
  unfold csrRead
  split
  · next r hr =>
    cases r with
    | status => exact absurd ((csrAt_eq_some_iff off _).mp hr) h
    | _ => rfl
  · rfl

/-- What a host write to any CSR but `CMD` leaves: the reading of every other CSR, but for a dropped write, which changes `STATUS`. -/
theorem csrRead_csrWrite_other {off off' : BitVec 12} {w : Word} {s : State} (hc : off.toNat / 4 ≠ csrIndex .cmd)
    (hne : off'.toNat / 4 ≠ off.toNat / 4) (hst : off'.toNat / 4 ≠ csrIndex .status ∨ s.isBusy = false) :
    csrRead off' (csrWrite off w s) = csrRead off' s := by
  obtain e | ⟨hb, e⟩ | ⟨r, hr, -, e⟩ := csrWrite_cases off w s <;> rw [e]
  · exact csrRead_overran (hst.resolve_right (by rw [hb]; decide)) s
  · have index := (csrAt_eq_some_iff off r).mp hr
    have other : ∀ r', csrAt off' = some r' → r' ≠ r := fun r' hr' same =>
      hne (((csrAt_eq_some_iff off' r').mp hr').trans (same ▸ index.symm))
    cases hr' : csrAt off' with
    | none => rw [csrRead_of_no_csr hr', csrRead_of_no_csr hr']
    | some r' =>
      rw [csrRead_of_csrAt hr', csrRead_of_csrAt hr']
      exact (csrStore_frame (fun h => hc (h ▸ index)) w s).1 r' (other r' hr')

/-- What a write to any CSR but `CMD` leaves of the rest of the state. -/
theorem csrWrite_frame {off : BitVec 12} (hc : off.toNat / 4 ≠ csrIndex .cmd) (w : Word) (s : State) :
    (s.isBusy = false → off.toNat / 4 ≠ csrIndex .status → (csrWrite off w s).status = s.status) ∧
      (csrWrite off w s).mem = s.mem ∧ (csrWrite off w s).engine = s.engine := by
  obtain e | ⟨hb, e⟩ | ⟨r, hr, -, e⟩ := csrWrite_cases off w s <;> rw [e]
  · exact ⟨fun _ _ => rfl, rfl, rfl⟩
  · exact ⟨fun idle => absurd (hb.symm.trans idle) (by decide), rfl, rfl⟩
  · have index := (csrAt_eq_some_iff off r).mp hr
    obtain ⟨-, status, mem, engine⟩ := csrStore_frame (r := r) (fun h => hc (h ▸ index)) w s
    exact ⟨fun _ h => status fun hr => h (hr ▸ index), mem, engine⟩

/-! ### Beside a running command (R43, R44) -/

/-- R43: while the engine is BUSY a host write changes `STATUS` and `IRQ_EN` only. -/
theorem csrRead_csrWrite_of_busy {off off' : BitVec 12} {w : Word} {s : State} (hb : s.isBusy = true)
    (hst : off'.toNat / 4 ≠ csrIndex .status) (hirq : off'.toNat / 4 ≠ csrIndex .irqEn) :
    csrRead off' (csrWrite off w s) = csrRead off' s := by
  obtain e | ⟨-, e⟩ | ⟨r, hr, hk, e⟩ := csrWrite_cases off w s
  · rw [e]
  · rw [e]; exact csrRead_overran hst s
  · have always : writeKind r = .always := hk.resolve_right (by rw [hb]; decide)
    have index := (csrAt_eq_some_iff off r).mp hr
    have target : r = .status ∨ r = .irqEn := by cases r <;> simp [writeKind] at always ⊢
    refine csrRead_csrWrite_other ?_ ?_ (.inl hst) <;> rw [index] <;> obtain rfl | rfl := target
    · decide
    · decide
    · exact hst
    · exact hirq

theorem csrRead_hostMemRead (off : BitVec 12) (addr : Word) (s : State) : csrRead off (hostMemRead addr s) = csrRead off s := by
  unfold hostMemRead
  split <;> rfl

theorem hostMemRead_status (addr : Word) (s : State) : (hostMemRead addr s).status = s.status := by
  unfold hostMemRead
  split <;> rfl

/-- Short of accept and reset, no host write changes `BUSY`. -/
theorem csrWrite_busy_of_busy (off : BitVec 12) (w : Word) {s : State} (hb : s.isBusy = true) :
    (csrWrite off w s).status.busy = s.status.busy := by
  obtain e | ⟨-, e⟩ | ⟨r, -, hk, e⟩ := csrWrite_cases off w s <;> rw [e]
  · rfl
  · have always : writeKind r = .always := hk.resolve_right (by rw [hb]; decide)
    cases r <;> cases always <;> rfl

/-! ### After reset (R169, R170) -/

/-- R16, R170: the value column of the CSR map. -/
def resetValue (off : BitVec 12) (accel : Bool) : Word :=
  if off.toNat / 4 = 0 then 0x53564231
  else if off.toNat / 4 = 1 ∨ off.toNat / 4 = 2 then (if accel then 1 else 0)
  else if off.toNat / 4 = 0x038 / 4 then 32
  else 0

theorem resetValue_of_zero {off : BitVec 12} {accel : Bool}
    (h : off.toNat / 4 ≠ 0 ∧ off.toNat / 4 ≠ 1 ∧ off.toNat / 4 ≠ 2 ∧ off.toNat / 4 ≠ 14) : resetValue off accel = 0 := by
  simp [resetValue, h]

theorem bankGet_zero (k : Fin 8) : bankGet Bank.zero k = 0 := by
  fin_cases k <;> rfl

theorem csrRead_resetCsrs (off : BitVec 12) (s : State) : csrRead off (resetCsrs s) = resetValue off s.accelPresent := by
  cases hr : csrAt off with
  | none =>
    rw [csrRead_of_no_csr hr, resetValue_of_zero]
    have no_csr (r : CsrName) : off.toNat / 4 ≠ csrIndex r := fun h => by rw [csrAt_of_index h] at hr; cases hr
    exact ⟨no_csr .id, no_csr .caps, no_csr .mode, no_csr .packLen⟩
  | some r =>
    have index := (csrAt_eq_some_iff off r).mp hr
    rw [csrRead_of_csrAt hr]
    cases r with
    | id | packLen => simp [resetValue, index, csrIndex, csrValue, Config.idValue, Operands.reset]
    | caps | mode => simp [resetValue, index, csrIndex, csrValue, setWidth_ofBool]
    | val k | pack k =>
      rw [resetValue_of_zero (by simp only [csrIndex] at index; omega)]
      exact bankGet_zero k
    | status =>
      rw [resetValue_of_zero (by simp only [csrIndex] at index; omega)]
      exact (by decide : Status.reset.toWord = 0)
    | _ =>
      rw [resetValue_of_zero (by simp only [csrIndex] at index; omega)]
      rfl

theorem hostReset_eq (s : State) : ∃ u : State, u.accelPresent = s.accelPresent ∧ hostReset s = resetCsrs u := by
  unfold hostReset
  split
  · exact ⟨s, rfl, rfl⟩
  · next f _ => exact ⟨disturbFootprint f.zeros f.final s, rfl, rfl⟩

theorem csrRead_accessInReset (off : BitVec 12) (a : Option CsrAccess) (s : State) :
    csrRead off (accessInReset a s) = csrRead off s := by
  unfold accessInReset
  split <;> rfl

theorem accessInReset_engine (a : Option CsrAccess) (s : State) : (accessInReset a s).engine = s.engine := by
  unfold accessInReset
  split <;> rfl

/-! ### The obligations -/

/-- Settles O8: each offset of the map names its CSR, whose value is a field of the state. -/
theorem csrAccessProtocol : Obligations.CsrAccessProtocol := by
  intro s off w
  have ignored : csrAt off = csrAt (off &&& 0xFFC) := csrAt_congr (and_mask_div_four off).symm
  obtain ⟨busy, done, err, overrun, code, win, reserved⟩ := s.status.toWord_fields
  refine ⟨by simp only [csrRead, ignored], by simp only [csrWrite, ignored], rfl, csrRead_of_offset .id (s := s),
    fun h => (csrRead_of_offset .caps h s).trans (setWidth_ofBool _), fun h => (csrRead_of_offset .mode h s).trans (setWidth_ofBool _),
    fun h => csrRead_of_offset .cmd h s, fun h => ?status, fun h => (csrRead_of_offset .irqEn h s).trans (setWidth_ofBool _),
    fun h => csrRead_of_offset .count h s, fun h => csrRead_of_offset .prev h s, fun h => csrRead_of_offset .srcAddr h s,
    fun h => csrRead_of_offset .srcLen h s, fun h => csrRead_of_offset .dstAddr h s, fun h => csrRead_of_offset .dstCap h s,
    fun h => csrRead_of_offset .resultLen h s, fun h => ?ctrlIo, fun h => ?packLen, fun h => csrRead_of_offset .lens h s,
    fun h => csrRead_of_offset .lensHi h s, fun k => ⟨fun h => ?val, fun h => ?pack⟩, fun h => ?unmapped, fun h => ?readOnly⟩
  case status =>
    rw [csrRead_of_offset .status h]
    exact ⟨busy, done, err, overrun, code, win, reserved⟩
  case ctrlIo =>
    rw [csrRead_of_offset .ctrlIo h]
    exact BitVec.toNat_setWidth_of_le (by decide)
  case packLen =>
    rw [csrRead_of_offset .packLen h]
    exact BitVec.toNat_setWidth_of_le (by decide)
  case val => rw [Bank.toList_getElem?, csrRead_of_offset (.val k) (by simp only [csrIndex]; omega)]; rfl
  case pack => rw [Bank.toList_getElem?, csrRead_of_offset (.pack k) (by simp only [csrIndex]; omega)]; rfl
  case unmapped => exact ⟨csrRead_of_no_csr (csrAt_of_unmapped h) s, csrWrite_of_no_csr (csrAt_of_unmapped h) w s⟩
  case readOnly =>
    obtain ⟨r, hr, hk⟩ := exists_readOnly_of_offset h
    rw [csrWrite_of_csrAt (csrAt_of_index hr), csrWriteNamed_readOnly hk]

/-- Settles O9: an idle engine lets every writable CSR take its field of the word. -/
theorem csrWriteThenRead : Obligations.CsrWriteThenRead := by
  intro s off w hi
  have idle := isBusy_of_idle hi
  refine ⟨fun h => ?word, fun h => ?irqEn, fun h => ?ctrlIo⟩
  case word =>
    obtain ⟨r, hr, hk⟩ := exists_whileIdle_of_index (j := off.toNat / 4) (by omega)
    rw [csrRead_of_csrAt (csrAt_of_index hr), csrWrite_of_csrAt (csrAt_of_index hr), csrWriteNamed_taken hk w idle]
    refine csrValue_csrStore_same hk ?_ ?_ w s <;> rintro rfl <;> simp only [csrIndex] at hr <;> omega
  case irqEn =>
    rw [csrRead_of_offset .irqEn h, csrWrite_irqEn (csrAt_of_index (by simp only [csrIndex]; omega))]
    show (BitVec.ofBool (w.getLsbD 0)).setWidth 32 = w &&& 1
    ext i hlt
    cases i <;> simp
  case ctrlIo =>
    have at13 : csrAt off = some .ctrlIo := csrAt_of_index (by simp only [csrIndex]; omega)
    rw [csrRead_of_csrAt at13, csrWrite_of_csrAt at13, csrWriteNamed_taken rfl w idle]
    show (w.extractLsb' 0 16).setWidth 32 = w &&& 0xFFFF
    apply BitVec.eq_of_toNat_eq
    simp [BitVec.extractLsb'_toNat, Nat.and_two_pow_sub_one_eq_mod w.toNat 16]
    omega

/-- Settles O10: a write is taken by the CSR it names, and dropped only by a BUSY engine. -/
theorem csrWriteFrame : Obligations.CsrWriteFrame := by
  intro s off off' w hc
  obtain ⟨status, mem, engine⟩ := csrWrite_frame hc w s
  exact ⟨fun hne hst => csrRead_csrWrite_other hc hne (hst.imp_right isBusy_of_idle), fun hi hs => status (isBusy_of_idle hi) hs,
    mem, engine⟩

/-- Settles O12: by the host's operation; only a CSR write can reach a CSR, and the engine guards all but `STATUS` and `IRQ_EN`. -/
theorem busyCsrsKeepTheirValues : Obligations.BusyCsrsKeepTheirValues := by
  intro s cmd snap r op off he hop
  have hb := isBusy_of_busy he
  have busyBit (t : State) : (csrRead 0x010 t).getLsbD 0 = t.status.busy := by
    rw [csrRead_status]
    exact t.status.toWord_fields.1
  rw [busyBit]
  cases op with
  | idle => exact ⟨fun _ _ => rfl, id⟩
  | csr a =>
    cases a with
    | read o => exact ⟨fun _ _ => rfl, id⟩
    | write o w => exact ⟨csrRead_csrWrite_of_busy hb, (csrWrite_busy_of_busy o w hb).trans⟩
  | memRead addr => exact ⟨fun _ _ => csrRead_hostMemRead off addr s, (congrArg Status.busy (hostMemRead_status addr s)).trans⟩
  | memWrite addr b => exact ⟨fun _ _ => rfl, id⟩
  | rst a => exact absurd rfl (hop a)

/-- Settles O14: `State.reset` and every reset edge leave the CSRs as `resetCsrs` does. -/
theorem resetValues : Obligations.ResetValues := by
  intro off
  refine ⟨csrRead_resetCsrs off State.reset, rfl, fun s a => ?_⟩
  obtain ⟨u, hu, he⟩ := hostReset_eq s
  rw [hostOp, accessInReset_engine, csrRead_accessInReset, he, csrRead_resetCsrs, hu]
  refine ⟨rfl, rfl, ?_⟩
  rintro o rfl
  rfl

end Sys2Proof.Machine
end

section
/-! Proofs about the group functions and their vectorized forms (42_group.md R110 to R120). -/

namespace Sys2Proof.Machine

/-! ### Delta coding and its inverse (R112, R113, R119, R120) -/

theorem word_add_sub_self (a b : Word) : a + (b - a) = b := by
  rw [BitVec.add_comm, BitVec.sub_add_cancel]

theorem word_add_sub_cancel_left (a b : Word) : a + b - a = b := by
  rw [BitVec.add_comm, BitVec.add_sub_cancel]

/-- R112, R113: the deltas of running sums are what was summed. -/
theorem deltas_prefixes (prev : Word) (ds : List Word) : deltas prev (prefixes prev ds) = ds := by
  induction ds generalizing prev with
  | nil => rfl
  | cons d ds ih => rw [prefixes, deltas, word_add_sub_cancel_left, ih]

theorem prefixQuad_deltaQuad (prev : Word) (q : Quad) : prefixQuad prev (deltaQuad prev q) = q := by
  simp only [prefixQuad, deltaQuad, word_add_sub_self]

theorem prefixBank_deltaBank (prev : Word) (b : Bank) : prefixBank prev (deltaBank prev b) = b := by
  simp only [prefixBank, deltaBank, prefixQuad_deltaQuad]

theorem vectorPrefix_eq_prefixQuad (prev : Word) (x : Quad) : vectorPrefix prev x = prefixQuad prev x := by
  simp only [vectorPrefix, prefixQuad, quadAdd, shiftLanes, Quad.toList, Quad.mk.injEq]
  refine ⟨?_, ?_, ?_, ?_⟩ <;> simp <;> ac_rfl

theorem vectorDelta_eq_deltaQuad (prev : Word) (x : Quad) : vectorDelta prev x = deltaQuad prev x := by
  simp [vectorDelta, deltaQuad, quadAdd, shiftLanes, Quad.toList]

/-! ### The packed bytes of a group (R110, R111, R117) -/

theorem controlByte_declares (q : Quad) : Declares (controlByte q) q.toList := by
  obtain ⟨l0, l1, l2, l3⟩ := fieldLen_controlByte q
  intro i hi
  have : i < 4 := hi
  interval_cases i
  exacts [l0, l1, l2, l3]

/-- R110, R111: a group comes back from its packed bytes, whatever bytes follow them. -/
theorem decodeGroup_groupBytes (q : Quad) (rest : List Byte) : decodeGroup (controlByte q) (groupBytes q ++ rest) = q := by
  have field {i : Nat} (hi : i < 4) : fieldValue (controlByte q) (groupBytes q ++ rest) i = q.toList[i]'hi := by
    rw [groupBytes_eq_valueBytes]
    exact (controlByte_declares q).fieldValue_eq rest hi
  simp only [decodeGroup, field (show 0 < 4 by decide), field (show 1 < 4 by decide), field (show 2 < 4 by decide),
    field (show 3 < 4 by decide)]
  rfl

/-- R87, R110: byte `b` of lane `i` stands in the packed bytes at the lane's offset. -/
theorem groupBytes_getD (q : Quad) {i b : Nat} (hi : i < 4) (hb : b < fieldLen (controlByte q) i) :
    (groupBytes q).getD (fieldOffset (controlByte q) i + b) 0 = byteOf (q.toList[i]'hi) b := by
  have value := (controlByte_declares q).fieldValue_eq [] (i := i) hi
  rw [List.append_nil, ← groupBytes_eq_valueBytes] at value
  have byte := byteOf_fieldValue (controlByte q) (groupBytes q) i b
  rwa [value, if_pos hb, eq_comm] at byte

/-- R87: byte `4i + b` of a register is byte `b` of lane `i`. -/
theorem laneBytes_getD (q : Quad) {i b : Nat} (hi : i < 4) (hb : b < 4) :
    (laneBytes q).getD (4 * i + b) 0 = byteOf (q.toList[i]'hi) b := by
  have lane : q.toList[i]? = some (q.toList[i]'hi) := List.getElem?_eq_getElem hi
  rw [List.getD_eq_getElem?_getD, laneBytes, bytesOfWords_getElem? _ _ hb, lane]
  rfl

theorem vectorPack_length (c : Byte) (q : Quad) : (vectorPack c q).length = 16 := by
  simp [vectorPack, shuffle, shuffleRom]

/-- R117: the 16 bytes of the compressed register, position by position. -/
theorem vectorPack_eq (q : Quad) :
    vectorPack (controlByte q) q = groupBytes q ++ List.replicate (16 - totalLength (controlByte q)) 0 := by
  have small := (totalLength_bounds (controlByte q)).2
  have packed := groupBytes_length q
  refine List.ext_getElem? fun k => ?_
  by_cases inRow : k < 16
  · by_cases inGroup : k < totalLength (controlByte q)
    · obtain ⟨i, b, hi, hb, rfl⟩ := exists_lane_of_lt_totalLength inGroup
      have len := (fieldLen_bounds (controlByte q) i).2
      have byte := (shuffle_enc_getD (laneBytes q) hi hb).trans
        ((laneBytes_getD q hi (by omega)).trans (groupBytes_getD q hi hb).symm)
      rw [List.getElem?_append_left (by omega), List.getElem?_eq_getElem (by rw [vectorPack_length]; exact inRow),
        List.getElem?_eq_getElem (by omega), ← List.getD_eq_getElem _ 0, ← List.getD_eq_getElem _ 0]
      exact congrArg some byte
    · rw [vectorPack, shuffle_getElem?, shuffleRom_enc_getElem? _ inRow, encShuf_of_totalLength_le (Nat.le_of_not_lt inGroup),
        List.getElem?_append_right (by omega), List.getElem?_replicate_of_lt (by omega)]
      rfl
  · rw [List.getElem?_eq_none (by rw [vectorPack_length]; omega), List.getElem?_eq_none (by simp; omega)]

/-! ### The obligations -/

/-- Settles O48: the compressed register holds the packed bytes, then the zeros of the sentinels. -/
theorem vectorPackEqualsScalar : Obligations.VectorPackEqualsScalar := vectorPack_eq

/-- Settles O50: each lane is the same sum or difference of words. -/
theorem vectorDeltaEqualsScalar : Obligations.VectorDeltaEqualsScalar :=
  fun prev x => ⟨vectorPrefix_eq_prefixQuad prev x, vectorDelta_eq_deltaQuad prev x⟩

/-- Settles O51: the fields of the packed bytes are the values, and a running sum and a difference against the same value cancel. -/
theorem groupAndDeltaRoundTrip : Obligations.GroupAndDeltaRoundTrip :=
  ⟨decodeGroup_groupBytes, fun prev vs => ⟨prefixes_deltas prev vs, deltas_prefixes prev vs⟩, prefixBank_deltaBank⟩

end Sys2Proof.Machine
end

section
/-! Proofs about the stream commands (43_stream.md R143 to R149; 60_exceptions.md R153, R155): their checks, what they deliver, and how a
memory error ends them. -/

namespace Sys2Proof.Machine

/-! ### The checks (R153) -/

/-- The checks pass exactly when the windows are legal and large enough. -/
theorem streamCheck_eq_none_iff (o : Operands) (inNeed outNeed : Nat) :
    streamCheck o inNeed outNeed = none ↔ o.WindowsOk ∧ inNeed ≤ o.srcLen.toNat ∧ outNeed ≤ o.dstCap.toNat := by
  rw [streamCheck_none, overlap, decide_eq_false_iff_not]
  rfl

/-- R153, items 2 to 6: which error is the first, each clause with the items above it passed. -/
theorem streamCheck_order (o : Operands) (inNeed outNeed : Nat) :
    (¬ o.srcAddr.toNat + o.srcLen.toNat ≤ 2 ^ 32 → streamCheck o inNeed outNeed = some (.addrRange .input)) ∧
    (o.srcAddr.toNat + o.srcLen.toNat ≤ 2 ^ 32 → ¬ o.dstAddr.toNat + o.dstCap.toNat ≤ 2 ^ 32 →
      streamCheck o inNeed outNeed = some (.addrRange .output)) ∧
    (o.srcAddr.toNat + o.srcLen.toNat ≤ 2 ^ 32 → o.dstAddr.toNat + o.dstCap.toNat ≤ 2 ^ 32 → ¬ o.WindowsOk →
      streamCheck o inNeed outNeed = some .bufferOverlap) ∧
    (o.WindowsOk → o.srcLen.toNat < inNeed → streamCheck o inNeed outNeed = some (.bufferTooSmall .input inNeed)) ∧
    (o.WindowsOk → inNeed ≤ o.srcLen.toNat → o.dstCap.toNat < outNeed →
      streamCheck o inNeed outNeed = some (.bufferTooSmall .output outNeed)) := by
  unfold streamCheck inSpace overlap
  refine ⟨fun h => ?_, fun h1 h2 => ?_, fun h1 h2 h3 => ?_, ?_, ?_⟩
  · simp only [h, decide_false, Bool.not_false, if_true]
  · simp only [h1, h2, decide_true, decide_false, Bool.not_true, Bool.not_false, Bool.false_eq_true, if_false, if_true]
  · have overlapping := not_not.mp fun h => h3 ⟨h1, h2, h⟩
    simp only [h1, h2, overlapping, and_self, decide_true, Bool.not_true, Bool.false_eq_true, if_false, if_true]
  · rintro ⟨h1, h2, h3⟩ h4
    simp only [h1, h2, h3, h4, decide_true, decide_false, Bool.not_true, Bool.false_eq_true, if_false, if_true]
  · rintro ⟨h1, h2, h3⟩ h4 h5
    simp only [h1, h2, h3, h5, Nat.not_lt.mpr h4, decide_true, decide_false, Bool.not_true, Bool.false_eq_true, if_false, if_true]

theorem streamEncode_of_check {delta fs : Bool} {s : State} {e : CmdError} (h : writeCheck s.operands = some e) :
    streamEncode delta fs s = raiseError e s := by
  simp only [streamEncode, h]

theorem streamDecode_of_check {delta fs : Bool} {s : State} {e : CmdError} (h : readCheck s.operands = some e) :
    streamDecode delta fs s = raiseError e s := by
  simp only [streamDecode, h]

/-! ### The arms of `exec` -/

theorem exec_writeAll (fs : Bool) (s : State) : exec (.writeAll fs) s = .next (streamEncode false fs s) := rfl

theorem exec_writeAllDelta (fs : Bool) (s : State) : exec (.writeAllDelta fs) s = .next (streamEncode true fs s) := rfl

theorem exec_readAll (fs : Bool) (s : State) : exec (.readAll fs) s = .next (streamDecode false fs s) := rfl

theorem exec_readAllDelta (fs : Bool) (s : State) : exec (.readAllDelta fs) s = .next (streamDecode true fs s) := rfl

theorem exec_encode (delta fs : Bool) (s : State) :
    exec (if delta then .writeAllDelta fs else .writeAll fs) s = .next (streamEncode delta fs s) := by
  cases delta <;> rfl

theorem exec_decode (delta fs : Bool) (s : State) :
    exec (if delta then .readAllDelta fs else .readAll fs) s = .next (streamDecode delta fs s) := by
  cases delta <;> rfl

/-! ### A memory that answers (R155) -/

/-- The main pass on a memory that answers: it succeeds, with free results where R173 or R174 says so. -/
theorem runTransfer_of_memAnswers (z : Bool) (tr : List Access) (p : StreamPlan) {s : State} (h : s.MemAnswers) :
    runTransfer z tr p s =
      if s.resultsFree then transferFree p { s with memErrs := s.memErrs.drop tr.length }
      else transferDone p { s with memErrs := s.memErrs.drop tr.length } := by
  simp only [runTransfer, portAnswers_ok _ tr _ h, Bool.false_eq_true, if_false]

theorem MemAnswers_drop {s : State} (h : s.MemAnswers) (k : Nat) : ({ s with memErrs := s.memErrs.drop k } : State).MemAnswers :=
  h.imp_right fun none mem => none (List.mem_of_mem_drop mem)

/-- An encode that passes its checks, on a memory that answers. -/
theorem streamEncode_of_memAnswers (delta fs : Bool) {s : State} (h : s.MemAnswers) (hc : writeCheck s.operands = none) :
    ∃ k, streamEncode delta fs s =
      if s.resultsFree then transferFree (encoderPlan delta s) { s with memErrs := s.memErrs.drop k }
      else transferDone (encoderPlan delta s) { s with memErrs := s.memErrs.drop k } := by
  simp only [streamEncode, hc, runTransfer_of_memAnswers _ _ _ h]
  exact ⟨_, rfl⟩

/-- A decode that passes its checks, on a memory that answers: the pre-pass rejects a short input, or the main pass succeeds. -/
theorem streamDecode_of_memAnswers (delta fs : Bool) {s : State} (h : s.MemAnswers) (hc : readCheck s.operands = none) :
    ∃ k, streamDecode delta fs s =
      if decoderNeed s ≤ s.operands.srcLen.toNat then
        if s.resultsFree then transferFree (decoderPlan delta s) { s with memErrs := s.memErrs.drop k }
        else transferDone (decoderPlan delta s) { s with memErrs := s.memErrs.drop k }
      else raiseError (.bufferTooSmall .input (decoderNeed s)) { s with memErrs := s.memErrs.drop k } := by
  simp only [streamDecode, hc, portAnswers_ok _ _ _ h, Bool.false_eq_true, if_false, decoderFits_eq_true,
    runTransfer_of_memAnswers _ _ _ (MemAnswers_drop h _), List.drop_drop]
  split
  · exact ⟨_, rfl⟩
  · exact ⟨_, rfl⟩

/-! ### What is delivered (R145 to R149) -/

/-- A success without free results, field by field. -/
theorem transferDone_eq (p : StreamPlan) {s : State} (h : s.resultsFree = false) (q : List Bool) :
    ∃ m f, transferDone p { s with memErrs := q } = { s with
      mem := m
      ops := { s.ops with prev := p.prev.getD s.ops.prev }
      resultLen := BitVec.ofNat 32 p.result
      status := { s.status with busy := false, done := true }
      engine := .idle
      memErrs := q
      free := f } ∧ s.Delivers p.final m f :=
  ⟨_, _, rfl, delivers_deliveredBytes s p.final h⟩

theorem encoderValues_of_not_raced {s : State} (h : s.raced = false) :
    encoderValues s = wordsOf (s.bytesAt s.operands.srcAddr.toNat (4 * s.operands.count.toNat)) := by
  rw [encoderValues, inputView_of_not_raced s h]
  rfl

theorem decoderNeed_of_not_raced {s : State} (h : s.raced = false) :
    decoderNeed s = (s.operands.count.toNat + 3) / 4 +
      dataLen (s.bytesAt s.operands.srcAddr.toNat ((s.operands.count.toNat + 3) / 4)) s.operands.count.toNat := by
  rw [decoderNeed, inputView_of_not_raced s h]
  rfl

theorem decoderValues_of_not_raced (delta : Bool) {s : State} (h : s.raced = false) :
    decoderValues delta s = streamValues delta s.operands.prev
      (decodeStream s.operands.count.toNat (s.bytesAt s.operands.srcAddr.toNat (decoderNeed s))).1 := by
  rw [decoderValues, inputView_of_not_raced s h]
  rfl

theorem encoderValues_length (s : State) : (encoderValues s).length = s.operands.count.toNat :=
  wordsOf_length _ _ (viewBytes_length _ _ _)

/-- R147, R149: `PREV` takes the last value when there is one. -/
theorem getLast?_getD_of_length {vs : List Word} {n : Nat} (h : vs.length = n) (old : Word) :
    vs.getLast?.getD old = if n = 0 then old else vs.getLastD 0 := by
  subst h
  cases vs with
  | nil => rfl
  | cons v vs => simp [List.getLastD_eq_getLast?, List.getLast?_cons]

/-- An encode that meets its requirements delivers its stream. -/
theorem exec_encode_delivers (delta fs : Bool) {s : State} (hs : s.Settled) (hm : s.MemAnswers) (hc : writeCheck s.operands = none) :
    let n := s.operands.count.toNat
    let vs := wordsOf (s.bytesAt s.operands.srcAddr.toNat (4 * n))
    let stream := encodeStream (streamWords delta s.operands.prev vs)
    ∃ k m f, exec (if delta then .writeAllDelta fs else .writeAll fs) s = .next { s with
      mem := m
      ops := { s.ops with prev := if delta then (if n = 0 then s.ops.prev else vs.getLastD 0) else s.ops.prev }
      resultLen := BitVec.ofNat 32 stream.length
      status := { s.status with busy := false, done := true }
      engine := .idle
      memErrs := s.memErrs.drop k
      free := f } ∧ s.Delivers stream m f := by
  intro n vs stream
  have hf := resultsFree_of_settled s hs
  have values : encoderValues s = vs := encoderValues_of_not_raced hs.1
  have plan : encoderPlan delta s = { final := stream, result := stream.length, prev := if delta then vs.getLast? else none } := by
    rw [encoderPlan, values]
  have prev : (if delta then vs.getLast? else none).getD s.ops.prev =
      if delta then (if n = 0 then s.ops.prev else vs.getLastD 0) else s.ops.prev := by
    cases delta
    · rfl
    · exact getLast?_getD_of_length (values ▸ encoderValues_length s) s.ops.prev
  obtain ⟨k, run⟩ := streamEncode_of_memAnswers delta fs hm hc
  obtain ⟨m, f, done, delivers⟩ := transferDone_eq (encoderPlan delta s) hf (s.memErrs.drop k)
  rw [plan] at delivers
  refine ⟨k, m, f, ?_, delivers⟩
  rw [exec_encode, run, hf, if_neg Bool.false_ne_true, done, plan, ← prev]

/-- A decode that meets its requirements delivers the decoded values. -/
theorem exec_decode_delivers (delta fs : Bool) {s : State} (hs : s.Settled) (hm : s.MemAnswers) (hc : readCheck s.operands = none) :
    let n := s.operands.count.toNat
    let g := (n + 3) / 4
    let need := g + dataLen (s.bytesAt s.operands.srcAddr.toNat g) n
    let vs := streamValues delta s.operands.prev (decodeStream n (s.bytesAt s.operands.srcAddr.toNat need)).1
    need ≤ s.operands.srcLen.toNat →
    ∃ k m f, exec (if delta then .readAllDelta fs else .readAll fs) s = .next { s with
      mem := m
      ops := { s.ops with prev := if delta then (if n = 0 then s.ops.prev else vs.getLastD 0) else s.ops.prev }
      resultLen := BitVec.ofNat 32 need
      status := { s.status with busy := false, done := true }
      engine := .idle
      memErrs := s.memErrs.drop k
      free := f } ∧ s.Delivers (bytesOfWords vs) m f := by
  intro n g need vs fits
  have hf := resultsFree_of_settled s hs
  have hneed : decoderNeed s = need := decoderNeed_of_not_raced hs.1
  have values : decoderValues delta s = vs := by rw [decoderValues_of_not_raced delta hs.1, hneed]
  have plan : decoderPlan delta s = { final := bytesOfWords vs, result := need, prev := if delta then vs.getLast? else none } := by
    rw [decoderPlan, values, hneed]
  have prev : (if delta then vs.getLast? else none).getD s.ops.prev =
      if delta then (if n = 0 then s.ops.prev else vs.getLastD 0) else s.ops.prev := by
    cases delta
    · rfl
    · exact getLast?_getD_of_length (values ▸ decoderValues_length true s) s.ops.prev
  obtain ⟨k, run⟩ := streamDecode_of_memAnswers delta fs hm hc
  obtain ⟨m, f, done, delivers⟩ := transferDone_eq (decoderPlan delta s) hf (s.memErrs.drop k)
  rw [plan] at delivers
  refine ⟨k, m, f, ?_, delivers⟩
  rw [exec_decode, run, hneed, if_pos fits, hf, if_neg Bool.false_ne_true, done, plan, ← prev]

/-! ### A memory error (R155) -/

/-- Accesses that are all answered 0 use one answer each. -/
theorem portAnswers_of_no_error (faults : Bool) (as : List Access) (q : List Bool) (h : ∀ j < as.length, q[j]? = some false) :
    portAnswers faults as q = (false, q.drop as.length) := by
  induction as generalizing q with
  | nil => cases q <;> rfl
  | cons a as ih =>
    cases q with
    | nil => rfl
    | cons e q =>
      have first : e = false := by simpa using h 0 (Nat.succ_pos _)
      subst first
      simpa [portAnswers] using ih q fun j hj => by simpa using h (j + 1) (Nat.succ_lt_succ hj)

/-- What the statement on bus errors says of a command `i` whose access number `k` is the first answered with an error. -/
def EndsWithBusError (s : State) (k : Nat) (i : Instr) (final : List Byte) (zeros : Bool) : Prop :=
  ∃ m : Memory,
    exec i s = .next { s with
      status := { s.status with busy := false, done := true, err := true, errCode := 5, errWin := false }
      engine := .idle
      mem := m
      memErrs := s.memErrs.drop (k + 1)
      free := s.free + 1 } ∧
    ∀ a, ((∀ j < final.length, cellOf s.mirrors (s.operands.dstAddr.toNat + j) ≠ cellOf s.mirrors a) →
        m.read (cellOf s.mirrors a) = s.byteAt a) ∧
      (s.HeldOnce final.length a → m.read (cellOf s.mirrors a) = s.byteAt a ∨
        ∃ j v, final[j]? = some v ∧ cellOf s.mirrors (s.operands.dstAddr.toNat + j) = cellOf s.mirrors a ∧
          (m.read (cellOf s.mirrors a) = v ∨ (zeros = true ∧ m.read (cellOf s.mirrors a) = 0)))

theorem endsWithBusError_of_disturbFootprint {s : State} {k : Nat} {i : Instr} {final : List Byte} {zeros : Bool}
    (hf : s.resultsFree = false)
    (h : exec i s = .next (raiseError .busError (disturbFootprint zeros final { s with memErrs := s.memErrs.drop (k + 1) }))) :
    EndsWithBusError s k i final zeros := by
  refine ⟨_, h, fun a => ⟨fun outside => ?_, fun once => ?_⟩⟩
  · exact byteAt_disturbFootprint_outside zeros final { s with memErrs := s.memErrs.drop (k + 1) } a outside
  · exact byteAt_disturbFootprint zeros final { s with memErrs := s.memErrs.drop (k + 1) } a hf once

/-- An encode whose access number `k` is the first answered with an error. -/
theorem streamEncode_busError (delta fs : Bool) {s : State} {k : Nat} (hm : s.memFaults = true) (hc : writeCheck s.operands = none)
    (he : s.memErrs[k]? = some true) (hj : ∀ j < k, s.memErrs[j]? = some false)
    (hk : k < (encoderTrace (s.accelerated fs) delta s.operands.prev s.operands.srcAddr.toNat s.operands.dstAddr.toNat
      (encoderValues s)).length) :
    streamEncode delta fs s = raiseError .busError
      (disturbFootprint (s.accelerated fs) (encoderPlan delta s).final { s with memErrs := s.memErrs.drop (k + 1) }) := by
  simp only [streamEncode, hc, runTransfer, hm, portAnswers_error _ _ k hk he hj, if_true]

/-- A decode cut off in its pre-pass. -/
theorem streamDecode_busError_prepass (delta fs : Bool) {s : State} {k : Nat} (hm : s.memFaults = true)
    (hc : readCheck s.operands = none) (he : s.memErrs[k]? = some true) (hj : ∀ j < k, s.memErrs[j]? = some false)
    (hk : k < s.operands.g) :
    streamDecode delta fs s = raiseError .busError
      (disturbFootprint false (cutOffFinal delta s) { s with memErrs := s.memErrs.drop (k + 1) }) := by
  have inTrace : k < (prepassTrace s.operands.srcAddr.toNat s.operands.g).length := by simpa [prepassTrace] using hk
  simp only [streamDecode, hc, hm, portAnswers_error _ _ k inTrace he hj, if_true]

/-- A decode cut off in its main pass: the pre-pass used the first `G` answers. -/
theorem streamDecode_busError_main (delta fs : Bool) {s : State} {k : Nat} (hm : s.memFaults = true)
    (hc : readCheck s.operands = none) (he : s.memErrs[k]? = some true) (hj : ∀ j < k, s.memErrs[j]? = some false)
    (fits : decoderNeed s ≤ s.operands.srcLen.toNat) (hg : s.operands.g ≤ k)
    (hk : k < s.operands.g + (decoderTrace (s.accelerated fs) delta s.operands.prev s.inputView s.operands.srcAddr.toNat
      s.operands.dstAddr.toNat s.operands.n).length) :
    streamDecode delta fs s = raiseError .busError
      (disturbFootprint false (cutOffFinal delta s) { s with memErrs := s.memErrs.drop (k + 1) }) := by
  have length : (prepassTrace s.operands.srcAddr.toNat s.operands.g).length = s.operands.g := by simp [prepassTrace]
  have prepass := portAnswers_of_no_error true (prepassTrace s.operands.srcAddr.toNat s.operands.g) s.memErrs
    fun j hlt => hj j (by omega)
  rw [length] at prepass
  have main := portAnswers_error _ (s.memErrs.drop s.operands.g) (k - s.operands.g) (Nat.sub_lt_left_of_lt_add hg hk)
    (by rw [List.getElem?_drop, Nat.add_sub_cancel' hg]; exact he)
    fun j hlt => by rw [List.getElem?_drop]; exact hj _ (by omega)
  have answers : s.operands.g + (k - s.operands.g + 1) = k + 1 := by omega
  rw [List.drop_drop, answers] at main
  have fits' := (decoderFits_eq_true s).2 fits
  simp only [streamDecode, hc, hm, prepass, Bool.false_eq_true, if_false, fits', if_true, runTransfer, main, cutOffFinal]

/-! ### The obligations -/

/-- Settles O30: the plain encode. -/
theorem writeAllResult : Obligations.WriteAllResult := by
  intro fs s o n vs hs hm hw hin hout
  exact exec_encode_delivers false fs hs hm ((streamCheck_eq_none_iff _ _ _).2 ⟨hw, hin, hout⟩)

/-- Settles O31: the encode of the deltas. -/
theorem writeAllDeltaResult : Obligations.WriteAllDeltaResult := by
  intro fs s o n vs hs hm hw hin hout
  exact exec_encode_delivers true fs hs hm ((streamCheck_eq_none_iff _ _ _).2 ⟨hw, hin, hout⟩)

/-- Settles O32: the plain decode. -/
theorem readAllResult : Obligations.ReadAllResult := by
  intro fs s o n g need xs hs hm hw hin hout
  exact exec_decode_delivers false fs hs hm ((streamCheck_eq_none_iff _ _ _).2 ⟨hw, (Nat.le_add_right _ _).trans hin, hout⟩) hin

/-- Settles O33: the decode of the running sums. -/
theorem readAllDeltaResult : Obligations.ReadAllDeltaResult := by
  intro fs s o n g need vs hs hm hw hin hout
  exact exec_decode_delivers true fs hs hm ((streamCheck_eq_none_iff _ _ _).2 ⟨hw, (Nat.le_add_right _ _).trans hin, hout⟩) hin

/-- Settles O34: an encode and a decode make the same checks, of different sizes. -/
theorem streamChecksInOrder : Obligations.StreamChecksInOrder := by
  intro i fs s o n g inOk outOk hi inNeed outNeed
  have run : ∀ e, streamCheck o inNeed outNeed = some e → exec i s = .next (raiseError e s) := by
    intro e he
    obtain rfl | rfl | rfl | rfl := hi
    · have write : streamCheck o (4 * n) (g + 4 * n) = some e := by simpa [inNeed, outNeed] using he
      rw [exec_writeAll, streamEncode_of_check write]
    · have write : streamCheck o (4 * n) (g + 4 * n) = some e := by simpa [inNeed, outNeed] using he
      rw [exec_writeAllDelta, streamEncode_of_check write]
    · have read : streamCheck o g (4 * n) = some e := by simpa [inNeed, outNeed] using he
      rw [exec_readAll, streamDecode_of_check read]
    · have read : streamCheck o g (4 * n) = some e := by simpa [inNeed, outNeed] using he
      rw [exec_readAllDelta, streamDecode_of_check read]
  obtain ⟨c2, c3, c4, c5, c6⟩ := streamCheck_order o inNeed outNeed
  exact ⟨fun h => run _ (c2 h), fun h1 h2 => run _ (c3 h1 h2), fun h1 h2 h3 => run _ (c4 h1 h2 h3), fun h1 h2 => run _ (c5 h1 h2),
    fun h1 h2 h3 => run _ (c6 h1 h2 h3)⟩

/-- Settles O35: the pre-pass is answered and finds the input short. -/
theorem prepassRejectsShortInput : Obligations.PrepassRejectsShortInput := by
  intro i fs s o n g need hi hs hm hw hin hout short
  have hneed : decoderNeed s = need := decoderNeed_of_not_raced hs.1
  have hc : readCheck s.operands = none := (streamCheck_eq_none_iff _ _ _).2 ⟨hw, hin, hout⟩
  have run (delta : Bool) : ∃ k, streamDecode delta fs s =
      raiseError (.bufferTooSmall .input need) { s with memErrs := s.memErrs.drop k } := by
    obtain ⟨k, hk⟩ := streamDecode_of_memAnswers delta fs hm hc
    rw [hneed, if_neg (Nat.not_le.mpr short)] at hk
    exact ⟨k, hk⟩
  obtain rfl | rfl := hi
  · obtain ⟨k, hk⟩ := run false
    exact ⟨k, by rw [exec_readAll, hk]; rfl⟩
  · obtain ⟨k, hk⟩ := run true
    exact ⟨k, by rw [exec_readAllDelta, hk]; rfl⟩

/-- Settles O37: the answer number `k` comes in the encode's main pass, in a decode's pre-pass or in its main pass. -/
theorem busErrorEndsStreamCommand : Obligations.BusErrorEndsStreamCommand := by
  intro delta fs s k o n g vs need xs endsWithBusError hs hm hw he hj
  have hf := resultsFree_of_settled s hs
  have hneed : decoderNeed s = need := decoderNeed_of_not_raced hs.1
  refine ⟨fun hin hout hk => ?encode, fun hin hout hk =>
    ⟨cutOffFinal delta s, cutOffFinal_length delta s, fun fits => ?final, ?decode⟩⟩
  case encode =>
    have values : encoderValues s = vs := encoderValues_of_not_raced hs.1
    have hc : writeCheck s.operands = none := (streamCheck_eq_none_iff _ _ _).2 ⟨hw, hin, hout⟩
    refine endsWithBusError_of_disturbFootprint hf ?_
    rw [exec_encode, streamEncode_busError delta fs hm hc he hj (by rw [values]; exact hk), encoderPlan, values]
    rfl
  case final =>
    rw [cutOffFinal, if_pos ((decoderFits_eq_true s).2 (hneed ▸ fits)), decoderPlan, decoderValues_of_not_raced delta hs.1, hneed]
    rfl
  case decode =>
    have hc : readCheck s.operands = none := (streamCheck_eq_none_iff _ _ _).2 ⟨hw, hin, hout⟩
    refine endsWithBusError_of_disturbFootprint hf ?_
    rw [exec_decode]
    by_cases inPrepass : k < g
    · rw [streamDecode_busError_prepass delta fs hm hc he hj inPrepass]
    · obtain ⟨fits, inMain⟩ := hk.resolve_left inPrepass
      rw [streamDecode_busError_main delta fs hm hc he hj (hneed ▸ fits) (Nat.le_of_not_lt inPrepass)
        (by rw [inputView_of_not_raced s hs.1]; exact inMain)]

end Sys2Proof.Machine
end

section
/-! Proofs about every command: how it completes, which memory it leaves alone, and that its mode changes no result (10_state.md R45, R46;
60_exceptions.md R154 to R156; 20_memory.md R58, R59; 00_scope.md R8). -/

namespace Sys2Proof.Machine

/-! ### The families of commands (R70) -/

/-- Below opcode 0x10 stand the commands without windows, from there on the encodes and the decodes. -/
theorem opcode_cases (i : Instr) :
    i.opcode.toNat < 0x10 ∨ (i.opcode = 0x10 ∨ i.opcode = 0x12) ∨ i.opcode = 0x14 ∨ i.opcode = 0x16 := by
  cases i <;> simp [Instr.opcode]

theorem eq_encode_of_opcode {i : Instr} (h : i.opcode = 0x10 ∨ i.opcode = 0x12) :
    ∃ delta fs : Bool, i = if delta then .writeAllDelta fs else .writeAll fs := by
  cases i <;> simp [Instr.opcode] at h
  case writeAll fs => exact ⟨false, fs, rfl⟩
  case writeAllDelta fs => exact ⟨true, fs, rfl⟩

theorem eq_decode_of_opcode {i : Instr} (h : i.opcode = 0x14 ∨ i.opcode = 0x16) :
    ∃ delta fs : Bool, i = if delta then .readAllDelta fs else .readAll fs := by
  cases i <;> simp [Instr.opcode] at h
  case readAll fs => exact ⟨false, fs, rfl⟩
  case readAllDelta fs => exact ⟨true, fs, rfl⟩

/-! ### Completion with and without an error (R46, R154) -/

/-- A completion without an error: only outputs of commands (R37) and the model's own fields change. -/
def State.Succeeds (s t : State) : Prop :=
  t.engine = .idle ∧ t.status = { s.status with busy := false, done := true } ∧
    t.cmd = s.cmd ∧ t.doneEn = s.doneEn ∧ t.modeAccel = s.modeAccel ∧ t.accelPresent = s.accelPresent ∧
    t.ops.count = s.ops.count ∧ t.ops.srcAddr = s.ops.srcAddr ∧ t.ops.srcLen = s.ops.srcLen ∧ t.ops.dstAddr = s.ops.dstAddr ∧
    t.ops.dstCap = s.ops.dstCap ∧ t.ops.packLen = s.ops.packLen ∧
    t.turns = s.turns ∧ t.csrRdata = s.csrRdata ∧ t.hostRdata = s.hostRdata ∧ t.mirrors = s.mirrors ∧ t.memFaults = s.memFaults

/-- The window an error of `i` names, or `PACK_LEN` for a command without windows, is smaller than the size the error records. -/
def NamesTooSmall (i : Instr) (o : Operands) (e : CmdError) : Prop :=
  ∀ win req, e = .bufferTooSmall win req →
    (if i.opcode.toNat < 0x10 then o.packLen.toNat
      else match win with
        | .input => o.srcLen.toNat
        | .output => o.dstCap.toNat) < req

/-- A completion of `i` with an error: its record is the whole change, but for memory after `BUS_ERROR` and the model's own fields. -/
def FailsTo (i : Instr) (s t : State) : Prop :=
  ∃ (e : CmdError) (m : Memory) (q : List Bool) (f : Nat),
    t = { raiseError e s with mem := m, memErrs := q, free := f } ∧ e ≠ .illegalCmd ∧
    (e ≠ .busError → m = s.mem ∧ f = s.free) ∧ (i.opcode.toNat < 0x10 → q = s.memErrs) ∧
    (e = .busError → 0x10 ≤ i.opcode.toNat ∧ s.memFaults = true) ∧ NamesTooSmall i s.operands e

/-- The success of a command that changes no operand CSR but these four. -/
theorem succeeds_finish (s : State) (ctrl : BitVec 16) (vals pack : Bank) (prev len lens lensHi : Word) (m : Memory) (q : List Bool)
    (f : Nat) :
    s.Succeeds (finish { s with
      ops := { s.ops with ctrl := ctrl, vals := vals, pack := pack, prev := prev }
      resultLen := len, lens := lens, lensHi := lensHi, mem := m, memErrs := q, free := f }) :=
  ⟨rfl, rfl, rfl, rfl, rfl, rfl, rfl, rfl, rfl, rfl, rfl, rfl, rfl, rfl, rfl, rfl, rfl⟩

/-- `PACK_LEN` is too small for a group command. -/
theorem failsTo_of_packLen {i : Instr} (hi : i.opcode.toNat < 0x10) {s : State} (win : Window) {req : Nat}
    (h : s.operands.packLen.toNat < req) : FailsTo i s (raiseError (.bufferTooSmall win req) s) := by
  refine ⟨.bufferTooSmall win req, s.mem, s.memErrs, s.free, rfl, nofun, fun _ => ⟨rfl, rfl⟩, fun _ => rfl, nofun, ?_⟩
  rintro _ _ ⟨⟩
  rwa [if_pos hi]

/-- A stream command ends with an error that is not of its accesses. -/
theorem failsTo_of_window {i : Instr} (hi : 0x10 ≤ i.opcode.toNat) {s : State} {e : CmdError} (hill : e ≠ .illegalCmd)
    (hbus : e ≠ .busError) (h : NamesTooSmall i s.operands e) (q : List Bool) :
    FailsTo i s (raiseError e { s with memErrs := q }) :=
  ⟨e, s.mem, q, s.free, rfl, hill, fun _ => ⟨rfl, rfl⟩, fun lt => absurd lt (Nat.not_lt.mpr hi), fun h => absurd h hbus, h⟩

/-- A stream command ends with `BUS_ERROR`. -/
theorem failsTo_busError {i : Instr} (hi : 0x10 ≤ i.opcode.toNat) {s : State} (hm : s.memFaults = true) (z : Bool) (final : List Byte)
    (q : List Bool) : FailsTo i s (raiseError .busError (disturbFootprint z final { s with memErrs := q })) :=
  ⟨.busError, _, q, s.free + 1, rfl, nofun, fun h => absurd rfl h, fun lt => absurd lt (Nat.not_lt.mpr hi), fun _ => ⟨hi, hm⟩, nofun⟩

theorem namesTooSmall_input {i : Instr} (hi : 0x10 ≤ i.opcode.toNat) {o : Operands} {req : Nat} (h : o.srcLen.toNat < req) :
    NamesTooSmall i o (.bufferTooSmall .input req) := by
  rintro _ _ ⟨⟩
  rwa [if_neg (Nat.not_lt.mpr hi)]

theorem namesTooSmall_output {i : Instr} (hi : 0x10 ≤ i.opcode.toNat) {o : Operands} {req : Nat} (h : o.dstCap.toNat < req) :
    NamesTooSmall i o (.bufferTooSmall .output req) := by
  rintro _ _ ⟨⟩
  rwa [if_neg (Nat.not_lt.mpr hi)]

/-- A stage check names a window too small for the size it records. -/
theorem namesTooSmall_of_streamCheck {i : Instr} (hi : 0x10 ≤ i.opcode.toNat) {o : Operands} {inNeed outNeed : Nat} {e : CmdError}
    (h : streamCheck o inNeed outNeed = some e) : e ≠ .illegalCmd ∧ e ≠ .busError ∧ NamesTooSmall i o e := by
  obtain ⟨win, rfl⟩ | rfl | ⟨rfl, small⟩ | ⟨rfl, small⟩ := streamCheck_some h
  · exact ⟨nofun, nofun, nofun⟩
  · exact ⟨nofun, nofun, nofun⟩
  · exact ⟨nofun, nofun, namesTooSmall_input hi small⟩
  · exact ⟨nofun, nofun, namesTooSmall_output hi small⟩

/-! ### Every command is precise (R45, R46, R156) -/

theorem groupEncode_precise {i : Instr} (hi : i.opcode.toNat < 0x10) (w8 delta : Bool) (s : State) :
    s.Succeeds (groupEncode w8 delta s) ∨ FailsTo i s (groupEncode w8 delta s) := by
  obtain ⟨h, e⟩ | ⟨-, e⟩ := groupEncode_cases w8 delta s <;> rw [e]
  · exact .inr (failsTo_of_packLen hi _ h)
  · exact .inl (succeeds_finish s _ s.ops.vals _ _ _ s.lens s.lensHi s.mem s.memErrs s.free)

theorem groupDecode_precise {i : Instr} (hi : i.opcode.toNat < 0x10) (w8 delta : Bool) (s : State) :
    s.Succeeds (groupDecode w8 delta s) ∨ FailsTo i s (groupDecode w8 delta s) := by
  obtain ⟨h, e⟩ | ⟨-, e⟩ := groupDecode_cases w8 delta s <;> rw [e]
  · exact .inr (failsTo_of_packLen hi _ h)
  · exact .inl (succeeds_finish s s.ops.ctrl _ s.ops.pack _ _ s.lens s.lensHi s.mem s.memErrs s.free)

theorem runTransfer_precise {i : Instr} (hi : 0x10 ≤ i.opcode.toNat) (z : Bool) (tr : List Access) (p : StreamPlan) (s : State)
    (q : List Bool) :
    s.Succeeds (runTransfer z tr p { s with memErrs := q }) ∨ FailsTo i s (runTransfer z tr p { s with memErrs := q }) := by
  obtain ⟨hm, e⟩ | ⟨-, e⟩ | ⟨-, e⟩ := runTransfer_cases z tr p { s with memErrs := q } <;> rw [e]
  · exact .inr (failsTo_busError (s := s) hi hm z p.final _)
  · exact .inl (succeeds_finish s s.ops.ctrl s.ops.vals s.ops.pack _ _ s.lens s.lensHi _ _ _)
  · exact .inl (succeeds_finish s s.ops.ctrl s.ops.vals s.ops.pack _ _ s.lens s.lensHi _ _ _)

theorem streamEncode_precise {i : Instr} (hi : 0x10 ≤ i.opcode.toNat) (delta fs : Bool) (s : State) :
    s.Succeeds (streamEncode delta fs s) ∨ FailsTo i s (streamEncode delta fs s) := by
  obtain ⟨e, hc, h⟩ | ⟨-, tr, h⟩ := streamEncode_cases delta fs s <;> rw [h]
  · obtain ⟨hill, hbus, small⟩ := namesTooSmall_of_streamCheck hi hc
    exact .inr (failsTo_of_window hi hill hbus small s.memErrs)
  · exact runTransfer_precise hi _ tr _ s s.memErrs

theorem streamDecode_precise {i : Instr} (hi : 0x10 ≤ i.opcode.toNat) (delta fs : Bool) (s : State) :
    s.Succeeds (streamDecode delta fs s) ∨ FailsTo i s (streamDecode delta fs s) := by
  obtain ⟨e, hc, h⟩ | ⟨-, k, ⟨hm, h⟩ | ⟨short, h⟩ | ⟨-, tr, h⟩⟩ := streamDecode_cases delta fs s <;> rw [h]
  · obtain ⟨hill, hbus, small⟩ := namesTooSmall_of_streamCheck hi hc
    exact .inr (failsTo_of_window hi hill hbus small s.memErrs)
  · exact .inr (failsTo_busError hi hm false _ _)
  · exact .inr (failsTo_of_window (e := .bufferTooSmall .input _) hi nofun nofun (namesTooSmall_input hi short) _)
  · exact runTransfer_precise hi false tr _ s _

theorem exec_precise (i : Instr) (s : State) : ∃ t, exec i s = .next t ∧ (s.Succeeds t ∨ FailsTo i s t) := by
  cases i
  case lenLookup | lenLookupWord | shufEncRead | shufDecRead | ctrlByte | ctrlWord =>
    exact ⟨_, rfl, .inl (succeeds_finish s _ s.ops.vals _ s.ops.prev _ _ _ s.mem s.memErrs s.free)⟩
  case encode4 | encode8 | encode4Delta | encode8Delta =>
    refine ⟨_, rfl, groupEncode_precise ?_ _ _ s⟩
    simp [Instr.opcode]
  case decode4 | decode8 | decode4Delta | decode8Delta =>
    refine ⟨_, rfl, groupDecode_precise ?_ _ _ s⟩
    simp [Instr.opcode]
  case writeAll fs | writeAllDelta fs =>
    refine ⟨_, rfl, streamEncode_precise ?_ _ fs s⟩
    simp [Instr.opcode]
  case readAll fs | readAllDelta fs =>
    refine ⟨_, rfl, streamDecode_precise ?_ _ fs s⟩
    simp [Instr.opcode]

/-! ### Completion at the engine's turn (R45) -/

theorem State.CompletesTo.idle {s t : State} (h : s.CompletesTo t) :
    t.engine = .idle ∧ t.status.done = true ∧ t.status.busy = false := by
  obtain ⟨u, -, rfl | ⟨e, rfl⟩⟩ := h
  · exact ⟨rfl, rfl, rfl⟩
  · exact ⟨rfl, rfl, rfl⟩

theorem engineTurn_completes (s : State) :
    ∃ t, engineTurn exec s = .next t ∧ (s.isBusy = true → t.engine = .idle ∧ t.status.done = true ∧ t.status.busy = false) := by
  cases he : s.engine with
  | idle => exact ⟨s, engineTurn_of_idle exec he, fun hb => absurd ((isBusy_of_idle he).symm.trans hb) (by decide)⟩
  | busy cmd snap race =>
    cases hd : decode cmd with
    | command i =>
      obtain ⟨t, ht, -⟩ := exec_precise i s
      exact ⟨t, (engineTurn_of_command exec he hd).trans ht, fun _ => (exec_completesTo ht).idle⟩
    | illegal why => exact ⟨_, engineTurn_of_illegal exec he hd, fun _ => ⟨rfl, rfl, rfl⟩⟩

/-! ### Memory outside a footprint (R58, R59, R145) -/

/-- From `s` to `t` memory changes at most at the bytes that the `len` addresses from `DST_ADDR` up reach. -/
def State.KeepsOutside (s t : State) (len : Nat) : Prop :=
  ∀ a, (∀ k < len, cellOf s.mirrors (s.operands.dstAddr.toNat + k) ≠ cellOf s.mirrors a) → t.byteAt a = s.byteAt a

theorem State.KeepsOutside.mono {s t : State} {len len' : Nat} (h : s.KeepsOutside t len) (hle : len ≤ len') :
    s.KeepsOutside t len' :=
  fun a apart => h a fun k hk => apart k (hk.trans_le hle)

theorem keepsOutside_of_mem_eq {s t : State} (hm : t.mem = s.mem) (hs : t.mirrors = s.mirrors) (len : Nat) : s.KeepsOutside t len :=
  fun a _ => by rw [State.byteAt, State.byteAt, hm, hs]

theorem keepsOutside_of_writeVia {s t : State} {bs : List Byte}
    (hm : t.mem = s.mem.writeVia s.mirrors s.operands.dstAddr.toNat bs) (hs : t.mirrors = s.mirrors) :
    s.KeepsOutside t bs.length := by
  intro a apart
  rw [State.byteAt, State.byteAt, hm, hs]
  obtain ⟨k, v, hv, hc, -⟩ | ⟨-, h⟩ := Memory.read_writeVia s.mem s.mirrors s.operands.dstAddr.toNat bs (cellOf s.mirrors a)
  · exact absurd hc (apart k (List.getElem?_eq_some_iff.mp hv).1)
  · exact h

theorem keepsOutside_busError (z : Bool) (final : List Byte) (s : State) (q : List Bool) :
    s.KeepsOutside (raiseError .busError (disturbFootprint z final { s with memErrs := q })) final.length := fun a apart =>
  byteAt_disturbFootprint_outside z final { s with memErrs := q } a apart

/-- The main pass writes the footprint of its plan, cut off, raced or not. -/
theorem runTransfer_keepsOutside (z : Bool) (tr : List Access) (p : StreamPlan) (s : State) (q : List Bool) :
    s.KeepsOutside (runTransfer z tr p { s with memErrs := q }) p.final.length := by
  obtain ⟨-, e⟩ | ⟨-, e⟩ | ⟨-, e⟩ := runTransfer_cases z tr p { s with memErrs := q } <;> rw [e]
  · exact keepsOutside_busError z p.final s _
  · have written := keepsOutside_of_writeVia (s := s)
      (t := transferFree p { s with memErrs := (portAnswers s.memFaults tr q).2 }) rfl rfl
    rwa [viewBytes_length] at written
  · have written := keepsOutside_of_writeVia (s := s)
      (t := transferDone p { s with memErrs := (portAnswers s.memFaults tr q).2 }) rfl rfl
    rwa [State.deliveredBytes, eachByte_length] at written

theorem streamWords_length (delta : Bool) (prev : Word) (vs : List Word) : (streamWords delta prev vs).length = vs.length := by
  cases delta
  · rfl
  · exact deltas_length prev vs

theorem encoderPlan_length_le (delta : Bool) (s : State) :
    (encoderPlan delta s).final.length ≤ (s.operands.count.toNat + 3) / 4 + 4 * s.operands.count.toNat := by
  have bound := (streamLength (streamWords delta s.operands.prev (encoderValues s))).2.2
  rwa [streamWords_length, encoderValues_length] at bound

theorem decoderPlan_length (delta : Bool) (s : State) : (decoderPlan delta s).final.length = 4 * s.operands.count.toNat := by
  rw [decoderPlan, bytesOfWords_length, decoderValues_length]

/-- An encode: the largest stream of its values, which the checks hold inside the output window. -/
theorem streamEncode_keepsOutside (delta fs : Bool) (s : State) :
    s.KeepsOutside (streamEncode delta fs s) ((s.operands.count.toNat + 3) / 4 + 4 * s.operands.count.toNat) ∧
      s.KeepsOutside (streamEncode delta fs s) s.operands.dstCap.toNat := by
  obtain ⟨e, -, h⟩ | ⟨hc, tr, h⟩ := streamEncode_cases delta fs s <;> rw [h]
  · exact ⟨keepsOutside_of_mem_eq rfl rfl _, keepsOutside_of_mem_eq rfl rfl _⟩
  · obtain ⟨-, -, fits⟩ := (streamCheck_eq_none_iff _ _ _).1 hc
    have written := runTransfer_keepsOutside (s.accelerated fs) tr (encoderPlan delta s) s s.memErrs
    have stream := written.mono (encoderPlan_length_le delta s)
    exact ⟨stream, stream.mono fits⟩

/-- A decode: its value bytes, which the checks hold inside the output window. -/
theorem streamDecode_keepsOutside (delta fs : Bool) (s : State) :
    s.KeepsOutside (streamDecode delta fs s) (4 * s.operands.count.toNat) ∧
      s.KeepsOutside (streamDecode delta fs s) s.operands.dstCap.toNat := by
  obtain ⟨e, -, h⟩ | ⟨hc, k, run⟩ := streamDecode_cases delta fs s
  · rw [h]
    exact ⟨keepsOutside_of_mem_eq rfl rfl _, keepsOutside_of_mem_eq rfl rfl _⟩
  · obtain ⟨-, -, fits⟩ := (streamCheck_eq_none_iff _ _ _).1 hc
    have values : s.KeepsOutside (streamDecode delta fs s) (4 * s.operands.count.toNat) := by
      obtain ⟨-, h⟩ | ⟨-, h⟩ | ⟨-, tr, h⟩ := run <;> rw [h]
      · rw [← cutOffFinal_length delta s]
        exact keepsOutside_busError false _ s _
      · exact keepsOutside_of_mem_eq rfl rfl _
      · rw [← decoderPlan_length delta s]
        exact runTransfer_keepsOutside false tr _ s _
    exact ⟨values, values.mono fits⟩

theorem groupEncode_mem (w8 delta : Bool) (s : State) : (groupEncode w8 delta s).mem = s.mem := by
  obtain ⟨-, e⟩ | ⟨-, e⟩ := groupEncode_cases w8 delta s <;> rw [e] <;> rfl

theorem groupDecode_mem (w8 delta : Bool) (s : State) : (groupDecode w8 delta s).mem = s.mem := by
  obtain ⟨-, e⟩ | ⟨-, e⟩ := groupDecode_cases w8 delta s <;> rw [e] <;> rfl

/-- R59: a command without windows writes no memory. -/
theorem exec_mem_of_opcode_lt {i : Instr} (hi : i.opcode.toNat < 0x10) {s t : State} (h : exec i s = .next t) : t.mem = s.mem := by
  cases i
  case writeAll | writeAllDelta | readAll | readAllDelta => simp [Instr.opcode] at hi
  all_goals cases h
  case lenLookup | lenLookupWord | shufEncRead | shufDecRead | ctrlByte | ctrlWord => rfl
  case encode4 | encode8 | encode4Delta | encode8Delta => exact groupEncode_mem _ _ s
  case decode4 | decode8 | decode4Delta | decode8Delta => exact groupDecode_mem _ _ s

/-- No command changes the platform's mirrors. -/
theorem exec_mirrors {i : Instr} {s t : State} (h : exec i s = .next t) : t.mirrors = s.mirrors := by
  obtain ⟨u, hu, precise⟩ := exec_precise i s
  cases hu.symm.trans h
  obtain ⟨-, -, -, -, -, -, -, -, -, -, -, -, -, -, -, mirrors, -⟩ | ⟨e, m, q, f, rfl, -⟩ := precise
  · exact mirrors
  · rfl

/-! ### The effective mode (R8, R21) -/

/-- `t'` is `t` but for `MODE.ACCEL` and the memory's answers. -/
def State.SameButMode (t t' : State) (accel : Bool) : Prop := ∃ q, t' = { t with modeAccel := accel, memErrs := q }

theorem groupEncode_sameButMode (w8 delta accel : Bool) (s : State) :
    (groupEncode w8 delta s).SameButMode (groupEncode w8 delta { s with modeAccel := accel }) accel := by
  refine ⟨s.memErrs, ?_⟩
  obtain ⟨h, e⟩ | ⟨h, e⟩ := groupEncode_cases w8 delta s <;> rw [e]
  · exact if_pos h
  · exact if_neg (Nat.not_lt.mpr h)

theorem groupDecode_sameButMode (w8 delta accel : Bool) (s : State) :
    (groupDecode w8 delta s).SameButMode (groupDecode w8 delta { s with modeAccel := accel }) accel := by
  refine ⟨s.memErrs, ?_⟩
  obtain ⟨h, e⟩ | ⟨h, e⟩ := groupDecode_cases w8 delta s <;> rw [e]
  · exact if_pos h
  · exact if_neg (Nat.not_lt.mpr h)

theorem streamEncode_sameButMode (delta fs fs' accel : Bool) {s : State} (hm : s.MemAnswers) :
    (streamEncode delta fs s).SameButMode (streamEncode delta fs' { s with modeAccel := accel }) accel := by
  rcases hc : writeCheck s.operands with _ | e
  · obtain ⟨k, h⟩ := streamEncode_of_memAnswers delta fs hm hc
    obtain ⟨k', h'⟩ := streamEncode_of_memAnswers delta fs' (s := { s with modeAccel := accel }) hm hc
    refine ⟨s.memErrs.drop k', ?_⟩
    rw [h, h']
    cases hf : s.resultsFree
    · exact if_neg (hf ▸ Bool.false_ne_true)
    · exact if_pos hf
  · rw [streamEncode_of_check hc]
    exact ⟨s.memErrs, streamEncode_of_check (s := { s with modeAccel := accel }) hc⟩

theorem streamDecode_sameButMode (delta fs fs' accel : Bool) {s : State} (hm : s.MemAnswers) :
    (streamDecode delta fs s).SameButMode (streamDecode delta fs' { s with modeAccel := accel }) accel := by
  rcases hc : readCheck s.operands with _ | e
  · obtain ⟨k, h⟩ := streamDecode_of_memAnswers delta fs hm hc
    obtain ⟨k', h'⟩ := streamDecode_of_memAnswers delta fs' (s := { s with modeAccel := accel }) hm hc
    refine ⟨s.memErrs.drop k', ?_⟩
    rw [h, h']
    by_cases fits : decoderNeed s ≤ s.operands.srcLen.toNat
    · rw [if_pos fits]
      refine (if_pos fits).trans ?_
      cases hf : s.resultsFree
      · exact if_neg (hf ▸ Bool.false_ne_true)
      · exact if_pos hf
    · rw [if_neg fits]
      exact if_neg fits
  · rw [streamDecode_of_check hc]
    exact ⟨s.memErrs, streamDecode_of_check (s := { s with modeAccel := accel }) hc⟩

/-- R8: the commands of one opcode give the same results on either datapath. -/
theorem exec_sameButMode (i : Instr) (fs accel : Bool) {j : Instr} (hj : opcodeMap i.opcode fs = .command j) {s : State}
    (hm : s.MemAnswers) :
    ∃ t t', exec i s = .next t ∧ exec j { s with modeAccel := accel } = .next t' ∧ t.SameButMode t' accel := by
  cases i <;> cases hj
  case lenLookup | lenLookupWord | shufEncRead | shufDecRead | ctrlByte | ctrlWord => exact ⟨_, _, rfl, rfl, s.memErrs, rfl⟩
  case encode4 | encode8 | encode4Delta | encode8Delta => exact ⟨_, _, rfl, rfl, groupEncode_sameButMode _ _ accel s⟩
  case decode4 | decode8 | decode4Delta | decode8Delta => exact ⟨_, _, rfl, rfl, groupDecode_sameButMode _ _ accel s⟩
  case writeAll fs' | writeAllDelta fs' => exact ⟨_, _, rfl, rfl, streamEncode_sameButMode _ fs' fs accel hm⟩
  case readAll fs' | readAllDelta fs' => exact ⟨_, _, rfl, rfl, streamDecode_sameButMode _ fs' fs accel hm⟩

/-! ### The obligations -/

/-- Settles O38: family by family, from what each shared operation can do. -/
theorem commandsArePrecise : Obligations.CommandsArePrecise := exec_precise

/-- Settles O39: the host's operations always answer, and the engine's turn completes its command. -/
theorem everyStepCompletes : Obligations.EveryStepCompletes := by
  intro s
  rcases ht : s.nextTurn with ⟨turn, s'⟩
  cases turn with
  | engine =>
    obtain ⟨t, run, completes⟩ := engineTurn_completes s'
    have sameEngine : s'.isBusy = s.isBusy := by rw [State.isBusy, State.isBusy, engine_of_nextTurn ht]
    exact ⟨t, (step_engine s s' ht).trans run, fun hb _ => completes (sameEngine.trans hb)⟩
  | host op => exact ⟨_, step_host s s' op ht, fun _ he => by cases he⟩

/-- Settles O40: family by family; the checks hold the footprint of a stream command inside its output window. -/
theorem memoryOutsideFootprintUnchanged : Obligations.MemoryOutsideFootprintUnchanged := by
  intro i s t a h o n apart
  refine ⟨exec_mirrors h, fun hi => exec_mem_of_opcode_lt hi h, fun hi => ?encode, fun hi => ?decode, ?window⟩
  case encode =>
    obtain ⟨delta, fs, rfl⟩ := eq_encode_of_opcode hi
    cases (exec_encode delta fs s).symm.trans h
    exact (streamEncode_keepsOutside delta fs s).1 a
  case decode =>
    obtain ⟨delta, fs, rfl⟩ := eq_decode_of_opcode hi
    cases (exec_decode delta fs s).symm.trans h
    exact (streamDecode_keepsOutside delta fs s).1 a
  case window =>
    obtain hi | hi | hi := opcode_cases i
    · exact keepsOutside_of_mem_eq (exec_mem_of_opcode_lt hi h) (exec_mirrors h) _ a
    · obtain ⟨delta, fs, rfl⟩ := eq_encode_of_opcode hi
      cases (exec_encode delta fs s).symm.trans h
      exact (streamEncode_keepsOutside delta fs s).2 a
    · obtain ⟨delta, fs, rfl⟩ := eq_decode_of_opcode hi
      cases (exec_decode delta fs s).symm.trans h
      exact (streamDecode_keepsOutside delta fs s).2 a

/-- Settles O41: without memory errors the accesses only use up answers. -/
theorem modeChangesNoResult : Obligations.ModeChangesNoResult := by
  intro i j s accel hij hm
  obtain ⟨t, t', h, h', q, rfl⟩ := exec_sameButMode i j.forceScalar accel (hij ▸ opcodeMap_opcode j) hm
  exact ⟨t, q, h, h'⟩

end Sys2Proof.Machine
end

section
/-! Proofs about the write footprint of the command in progress, and about reset and the host's memory accesses beside it
(70_reset_and_hazards.md R169, R171, R173, R174). -/

namespace Sys2Proof.Machine

/-! ### The write footprint (R59, R145) -/

theorem footprint_of_idle {s : State} (h : s.engine = .idle) : s.footprint = none := by
  simp [State.footprint, h]

theorem footprint_of_illegal {s : State} {w : Word} {o : Operands} {r : Option Memory} {why : IllegalWord}
    (hb : s.engine = .busy w o r) (hd : decode w = .illegal why) : s.footprint = none := by
  simp [State.footprint, hb, hd]

theorem footprint_of_command {s : State} {w : Word} {o : Operands} {r : Option Memory} {i : Instr}
    (hb : s.engine = .busy w o r) (hd : decode w = .command i) : s.footprint = commandFootprint i s := by
  simp [State.footprint, hb, hd]

/-- R59: only the stream commands have a write footprint. -/
theorem commandFootprint_of_opcode_lt {i : Instr} (h : i.opcode.toNat < 0x10) (s : State) : commandFootprint i s = none := by
  cases i
  case writeAll | writeAllDelta | readAll | readAllDelta => simp [Instr.opcode] at h
  all_goals rfl

theorem encoderFootprint_of_checks {delta fs : Bool} {s : State} (h : writeCheck s.operands = none) :
    encoderFootprint delta fs s = some { final := (encoderPlan delta s).final, zeros := s.accelerated fs, written := true } := by
  simp only [encoderFootprint, h]

theorem encoderFootprint_of_failing_check {delta fs : Bool} {s : State} (h : writeCheck s.operands ≠ none) :
    encoderFootprint delta fs s = none := by
  obtain ⟨e, he⟩ := Option.ne_none_iff_exists'.mp h
  simp only [encoderFootprint, he]

theorem decoderFootprint_of_checks {delta : Bool} {s : State} (h : readCheck s.operands = none) :
    decoderFootprint delta s = some { final := cutOffFinal delta s, zeros := false, written := decoderFits s } := by
  simp only [decoderFootprint, h]

theorem decoderFootprint_of_failing_check {delta : Bool} {s : State} (h : readCheck s.operands ≠ none) :
    decoderFootprint delta s = none := by
  obtain ⟨e, he⟩ := Option.ne_none_iff_exists'.mp h
  simp only [decoderFootprint, he]

/-! ### The input of a running command (R63, log 9) -/

/-- The first `len` bytes of the input window, as memory held them at accept or at the first race. -/
def busyInput (s : State) (o : Operands) (r : Option Memory) (len : Nat) : List Byte :=
  (List.range len).map fun k => (r.getD s.mem).read (cellOf s.mirrors (o.srcAddr.toNat + k))

theorem viewBytes_inputView_of_busy {s : State} {w : Word} {o : Operands} {r : Option Memory} (hb : s.engine = .busy w o r) (len : Nat) :
    viewBytes s.inputView o.srcAddr.toNat len = busyInput s o r len := by
  simp only [viewBytes, State.inputView, State.inputMem, hb, busyInput]

theorem encoderPlan_of_busy (delta : Bool) {s : State} {w : Word} {o : Operands} {r : Option Memory} (hb : s.engine = .busy w o r) :
    (encoderPlan delta s).final =
      encodeStream (streamWords delta o.prev (wordsOf (busyInput s o r (4 * o.count.toNat)))) := by
  rw [encoderPlan, encoderValues, operands_of_busy s w o r hb, viewBytes_inputView_of_busy hb]
  rfl

theorem decoderNeed_of_busy {s : State} {w : Word} {o : Operands} {r : Option Memory} (hb : s.engine = .busy w o r) :
    decoderNeed s =
      (o.count.toNat + 3) / 4 + dataLen (busyInput s o r ((o.count.toNat + 3) / 4)) o.count.toNat := by
  rw [decoderNeed, operands_of_busy s w o r hb, viewBytes_inputView_of_busy hb]
  rfl

theorem decoderPlan_of_busy (delta : Bool) {s : State} {w : Word} {o : Operands} {r : Option Memory} (hb : s.engine = .busy w o r) :
    (decoderPlan delta s).final =
      bytesOfWords (streamValues delta o.prev (decodeStream o.count.toNat (busyInput s o r (decoderNeed s))).1) := by
  rw [decoderPlan, decoderValues, operands_of_busy s w o r hb, viewBytes_inputView_of_busy hb]
  rfl

/-- The footprint of a running encode. -/
theorem footprint_of_encode (delta fs : Bool) {s : State} {w : Word} {o : Operands} {r : Option Memory} (hb : s.engine = .busy w o r)
    (hd : decode w = .command (if delta then .writeAllDelta fs else .writeAll fs)) :
    let n := o.count.toNat
    let vs := wordsOf (busyInput s o r (4 * n))
    let encodes := o.WindowsOk ∧ 4 * n ≤ o.srcLen.toNat ∧ (n + 3) / 4 + 4 * n ≤ o.dstCap.toNat
    (encodes → s.footprint = some ⟨encodeStream (streamWords delta o.prev vs), s.modeAccel && !fs, true⟩) ∧
      (¬ encodes → s.footprint = none) := by
  intro n vs encodes
  have checks : writeCheck s.operands = none ↔ encodes := by
    rw [operands_of_busy s w o r hb]
    exact streamCheck_eq_none_iff o _ _
  have arm : s.footprint = encoderFootprint delta fs s := by
    rw [footprint_of_command hb hd]
    cases delta <;> rfl
  refine ⟨fun h => ?_, fun h => ?_⟩
  · rw [arm, encoderFootprint_of_checks (checks.2 h), encoderPlan_of_busy delta hb]
    rfl
  · rw [arm, encoderFootprint_of_failing_check (mt checks.1 h)]

/-- The footprint of a running decode. -/
theorem footprint_of_decode (delta fs : Bool) {s : State} {w : Word} {o : Operands} {r : Option Memory} (hb : s.engine = .busy w o r)
    (hd : decode w = .command (if delta then .readAllDelta fs else .readAll fs)) :
    let n := o.count.toNat
    let g := (n + 3) / 4
    let need := g + dataLen (busyInput s o r g) n
    let decodes := o.WindowsOk ∧ g ≤ o.srcLen.toNat ∧ 4 * n ≤ o.dstCap.toNat
    (decodes → need ≤ o.srcLen.toNat → s.footprint =
      some ⟨bytesOfWords (streamValues delta o.prev (decodeStream n (busyInput s o r need)).1), false, true⟩) ∧
    (decodes → o.srcLen.toNat < need → ∃ anything, anything.length = 4 * n ∧ s.footprint = some ⟨anything, false, false⟩) ∧
    (¬ decodes → s.footprint = none) := by
  intro n g need decodes
  have ops := operands_of_busy s w o r hb
  have checks : readCheck s.operands = none ↔ decodes := by
    rw [ops]
    exact streamCheck_eq_none_iff o _ _
  have arm : s.footprint = decoderFootprint delta s := by
    rw [footprint_of_command hb hd]
    cases delta <;> rfl
  have hneed : decoderNeed s = need := decoderNeed_of_busy hb
  have fits : decoderFits s = true ↔ need ≤ o.srcLen.toNat := by rw [decoderFits_eq_true, hneed, ops]
  refine ⟨fun h hfit => ?_, fun h short => ⟨cutOffFinal delta s, ?_, ?_⟩, fun h => ?_⟩
  · rw [arm, decoderFootprint_of_checks (checks.2 h), cutOffFinal, fits.2 hfit, if_pos rfl, decoderPlan_of_busy delta hb, hneed]
  · rw [cutOffFinal_length, ops]
  · rw [arm, decoderFootprint_of_checks (checks.2 h), Bool.eq_false_iff.mpr (mt fits.1 (Nat.not_le.mpr short))]
  · rw [arm, decoderFootprint_of_failing_check (mt checks.1 h)]

/-! ### Memory across reset (R171) -/

theorem byteAt_accessInReset (acc : Option CsrAccess) (s : State) (a : Nat) : (accessInReset acc s).byteAt a = s.byteAt a := by
  unfold accessInReset
  split <;> rfl

theorem byteAt_rst_of_no_footprint {s : State} (h : s.footprint = none) (acc : Option CsrAccess) (a : Nat) :
    (hostOp (.rst acc) s).byteAt a = s.byteAt a := by
  rw [hostOp, byteAt_accessInReset, hostReset, h]
  rfl

theorem byteAt_rst_of_footprint {s : State} {f : Footprint} (h : s.footprint = some f) (acc : Option CsrAccess) (a : Nat) :
    (hostOp (.rst acc) s).byteAt a = (disturbFootprint f.zeros f.final s).byteAt a := by
  rw [hostOp, byteAt_accessInReset, hostReset, h]
  rfl

/-! ### A host read of memory (R173, I14) -/

/-- A final byte that a host read can see stands in a footprint the engine writes, at an address that reaches it. -/
theorem footprintByte_eq_some {s : State} {a : Nat} {b : Byte} {f : Footprint} (h : s.footprintByte a = some (b, f)) :
    s.footprint = some f ∧ f.written = true ∧
      ∃ k, f.final[k]? = some b ∧ cellOf s.mirrors (s.operands.dstAddr.toNat + k) = cellOf s.mirrors a := by
  unfold State.footprintByte at h
  simp only at h
  split at h
  · cases h
  · next f' hf =>
    split at h
    · next hw =>
      obtain ⟨x, hx, found⟩ := List.exists_of_findSome?_eq_some h
      split at found
      · next hle =>
        obtain ⟨b', hb, e⟩ := Option.map_eq_some_iff.mp found
        cases e
        exact ⟨hf, hw, x - s.operands.dstAddr.toNat, hb, by rw [Nat.add_sub_cancel' hle]; exact (mem_aliases _ _ _).1 hx⟩
      · cases found
    · cases h

theorem hostMemRead_of_none {s : State} {addr : Word} (h : s.footprintByte addr.toNat = none) :
    hostMemRead addr s = { s with hostRdata := s.byteAt addr.toNat } := by
  simp only [hostMemRead, h]

theorem hostMemRead_of_some {s : State} {addr : Word} {b : Byte} {f : Footprint} (h : s.footprintByte addr.toNat = some (b, f)) :
    hostMemRead addr s =
      { s with hostRdata := s.disturbedByte f.zeros f.final.length addr.toNat b, free := s.free + 1 } := by
  simp only [hostMemRead, h]

theorem hostMemRead_frame (addr : Word) (s : State) :
    (hostMemRead addr s).mem = s.mem ∧ (hostMemRead addr s).engine = s.engine := by
  unfold hostMemRead
  split <;> exact ⟨rfl, rfl⟩

/-! ### A host write of memory (R173, R174) -/

theorem byteAt_hostMemWrite (addr : Word) (b : Byte) (s : State) (a : Nat) :
    (hostMemWrite addr b s).byteAt a = if cellOf s.mirrors a = cellOf s.mirrors addr.toNat then b else s.byteAt a := by
  rw [State.byteAt, hostMemWrite_mem, hostMemWrite_mirrors, Memory.read_write]
  rfl

/-- The stream commands are those from opcode 0x10 on. -/
theorem wordUsesWindows_iff (w : Word) : wordUsesWindows w = true ↔ ∃ i, decode w = .command i ∧ 0x10 ≤ i.opcode.toNat := by
  unfold wordUsesWindows
  cases hd : decode w with
  | illegal why => simp
  | command i => cases i <;> simp [Instr.usesWindows, Instr.opcode]

/-- An address that reaches the byte written lies in a window of the command. -/
theorem any_aliases_inWindow_iff (ms : Mirrors) (a : Nat) (o : Operands) :
    (aliases ms a).any (fun x => o.inWindow .input x || o.inWindow .output x) = true ↔
      ∃ x, cellOf ms x = cellOf ms a ∧
        ((o.srcAddr.toNat ≤ x ∧ x < o.srcAddr.toNat + o.srcLen.toNat) ∨
          (o.dstAddr.toNat ≤ x ∧ x < o.dstAddr.toNat + o.dstCap.toNat)) := by
  simp [List.any_eq_true, mem_aliases, Operands.inWindow]

/-- The first race keeps the memory it found; a later host write keeps that one. -/
theorem hostMemWrite_engine_of_raced {s : State} {w : Word} {snap : Operands} {m : Memory} (h : s.engine = .busy w snap (some m))
    (addr : Word) (b : Byte) : (hostMemWrite addr b s).engine = s.engine := by
  rw [hostMemWrite_engine, h, Engine.afterHostWrite, Option.some_or]

theorem hostMemWrite_engine_of_not_raced {s : State} {w : Word} {snap : Operands} (h : s.engine = .busy w snap none) (addr : Word)
    (b : Byte) :
    (hostMemWrite addr b s).engine = .busy w snap
      (if wordUsesWindows w && (aliases s.mirrors addr.toNat).any (fun x => snap.inWindow .input x || snap.inWindow .output x) then
        some s.mem else none) := by
  rw [hostMemWrite_engine, h, Engine.afterHostWrite, Option.none_or]

/-! ### The obligations -/

/-- Settles O15: reset disturbs the footprint of the command in progress, which each family's checks and input decide. -/
theorem resetAbortsCommand : Obligations.ResetAbortsCommand := by
  refine ⟨fun s acc a => ⟨fun h => byteAt_rst_of_no_footprint h acc a, fun f h => ?memory⟩, fun s => footprint_of_idle,
    fun s w o r hb => ⟨fun why hd => footprint_of_illegal hb hd, fun i hd hi => ?_, fun fs => footprint_of_encode false fs hb,
      fun fs => footprint_of_encode true fs hb, fun fs => footprint_of_decode false fs hb, fun fs => footprint_of_decode true fs hb⟩⟩
  case memory =>
    rw [byteAt_rst_of_footprint h]
    exact ⟨byteAt_disturbFootprint_outside f.zeros f.final s a,
      fun hs once => byteAt_disturbFootprint f.zeros f.final s a (resultsFree_of_settled s hs) once⟩
  · rw [footprint_of_command hb hd, commandFootprint_of_opcode_lt hi]

/-- Settles O42: the read sees memory unless an address of a footprint that the engine writes reaches the byte. -/
theorem hostReadDuringCommand : Obligations.HostReadDuringCommand := by
  intro s addr t
  obtain ⟨mem, engine⟩ := hostMemRead_frame addr s
  refine ⟨mem, hostMemRead_ops addr s, engine, hostMemRead_status addr s, fun off => csrRead_hostMemRead off addr s, fun outside => ?_,
    fun f hf hs once => ?_⟩
  · cases hb : s.footprintByte addr.toNat with
    | none => exact congrArg State.hostRdata (hostMemRead_of_none hb)
    | some p =>
      obtain ⟨hf, hw, k, hk, hc⟩ := footprintByte_eq_some (b := p.1) (f := p.2) hb
      exact absurd hc (outside p.2 hf hw k (List.getElem?_eq_some_iff.mp hk).1)
  · cases hb : s.footprintByte addr.toNat with
    | none => exact .inl (congrArg State.hostRdata (hostMemRead_of_none hb))
    | some p =>
      obtain ⟨hf', -, k, hk, hc⟩ := footprintByte_eq_some (b := p.1) (f := p.2) hb
      cases hf.symm.trans hf'
      have read : t.hostRdata = s.disturbedByte p.2.zeros p.2.final.length addr.toNat p.1 :=
        congrArg State.hostRdata (hostMemRead_of_some (b := p.1) (f := p.2) hb)
      have notFree := byteFree_of_heldOnce s p.2.final.length addr.toNat (resultsFree_of_settled s hs) once
      obtain old | final | ⟨zeros, zero⟩ := disturbedByte_cases s p.2.zeros p.2.final.length addr.toNat p.1 notFree
      · exact .inl (read.trans old)
      · exact .inr ⟨k, p.1, hk, hc, .inl (read.trans final)⟩
      · exact .inr ⟨k, p.1, hk, hc, .inr ⟨zeros, read.trans zero⟩⟩

/-- Settles O43: the byte is written through the mirrors, and the race mark is decided by the word, the windows and the aliases. -/
theorem hostWriteRacesCommand : Obligations.HostWriteRacesCommand := by
  intro s addr b t o touches
  refine ⟨byteAt_hostMemWrite addr b s, fun h => ?_, fun w snap m h => hostMemWrite_engine_of_raced h addr b, fun w snap h => ?_⟩
  · show (hostMemWrite addr b s).engine = .idle
    rw [hostMemWrite_engine, h, Engine.afterHostWrite]
  · have ops : o = snap := operands_of_busy s w snap none h
    have races : (wordUsesWindows w &&
        (aliases s.mirrors addr.toNat).any (fun x => snap.inWindow .input x || snap.inWindow .output x)) = true ↔
        (∃ i, decode w = .command i ∧ 0x10 ≤ i.opcode.toNat) ∧ touches := by
      rw [Bool.and_eq_true, wordUsesWindows_iff, any_aliases_inWindow_iff, ← ops]
    have engine := hostMemWrite_engine_of_not_raced h addr b
    refine ⟨fun hr => engine.trans ?_, fun hn => (engine.trans ?_).trans h.symm⟩
    · rw [if_pos (races.2 hr)]
    · rw [if_neg (mt races.1 hn)]

end Sys2Proof.Machine
end

section
/-! Proofs about the three-tier schedule of the stream commands (43_stream.md R136, R137), and the schedule as a sequence of units: one
group, or the eight values of the Accelerated mode. -/

namespace Sys2Proof.Machine

/-! ### The schedule (R136) -/

/-- R136 as a relation: `ts` is a schedule of `n` values. -/
inductive Schedules (accel : Bool) : Nat → List Tier → Prop
  | nil : Schedules accel 0 []
  | bulk {n : Nat} {ts : List Tier} : bulkSize accel + 12 ≤ n → Schedules accel (n - bulkSize accel) ts → Schedules accel n (.bulk :: ts)
  | full {n : Nat} {ts : List Tier} : n < bulkSize accel + 12 → 4 ≤ n → Schedules accel (n - 4) ts → Schedules accel n (.full :: ts)
  | partialGroup {n : Nat} : 0 < n → n < 4 → Schedules accel n [.partialGroup n]

theorem bulkSize_eq (accel : Bool) : bulkSize accel = if accel then 32 else 16 := rfl

theorem bulkSize_pos (accel : Bool) : 0 < bulkSize accel := by cases accel <;> decide

theorem schedules_tiersFrom (accel : Bool) (fuel n : Nat) (h : n ≤ fuel) : Schedules accel n (tiersFrom accel fuel n) := by
  induction fuel generalizing n with
  | zero =>
    obtain rfl : n = 0 := by omega
    exact .nil
  | succ fuel ih =>
    have positive := bulkSize_pos accel
    rw [tiersFrom]
    split
    · next hb =>
      have margin : bulkSize accel + 12 ≤ n := hb
      exact .bulk margin (ih _ (by omega))
    · next hb =>
      have margin : ¬ bulkSize accel + 12 ≤ n := hb
      split
      · next h4 => exact .full (by omega) h4 (ih _ (by omega))
      · split
        · next h0 => exact .partialGroup h0 (by omega)
        · obtain rfl : n = 0 := by omega
          exact .nil

theorem schedules_tierSchedule (accel : Bool) (n : Nat) : Schedules accel n (tierSchedule accel n) :=
  schedules_tiersFrom accel n n (Nat.le_refl n)

theorem Schedules.sum_tierCount {accel : Bool} {n : Nat} {ts : List Tier} (h : Schedules accel n ts) :
    (ts.map (tierCount accel)).sum = n := by
  induction h with
  | nil => rfl
  | bulk margin _ ih => rw [List.map_cons, List.sum_cons, ih, tierCount]; omega
  | full _ h4 _ ih => rw [List.map_cons, List.sum_cons, ih, tierCount]; omega
  | partialGroup => simp [tierCount]

/-- What is left of a schedule at any piece is a schedule. -/
theorem Schedules.of_append {accel : Bool} {n : Nat} {pre post : List Tier} (h : Schedules accel n (pre ++ post)) :
    ∃ m, Schedules accel m post := by
  induction pre generalizing n with
  | nil => exact ⟨n, h⟩
  | cons t pre ih =>
    generalize hts : t :: pre ++ post = ts at h
    cases h with
    | nil => cases hts
    | bulk _ h => exact ih ((List.cons.inj hts).2 ▸ h)
    | full _ _ h => exact ih ((List.cons.inj hts).2 ▸ h)
    | partialGroup =>
      obtain ⟨rfl, rfl⟩ := List.append_eq_nil_iff.mp (List.cons.inj hts).2
      exact ⟨0, .nil⟩

/-! ### The schedule as units -/

/-- A unit of the work of a stream command: a group of up to four values (R139, R142), or eight values on the vectorized datapath (R138,
R141). -/
inductive PassUnit where
  | group (r : Nat)
  | octet

/-- The units of a piece of the schedule. -/
def Tier.units (accel : Bool) : Tier → List PassUnit
  | .bulk => List.replicate 4 (if accel then .octet else .group 4)
  | .full => [.group 4]
  | .partialGroup r => [.group r]

/-- The units `us` process `n` values in order, and at least 12 values follow the values of an octet (R137). -/
inductive Covers : Nat → List PassUnit → Prop
  | nil : Covers 0 []
  | group {n : Nat} {us : List PassUnit} : 0 < n → Covers (n - 4) us → Covers n (.group (min 4 n) :: us)
  | octet {n : Nat} {us : List PassUnit} : 20 ≤ n → Covers (n - 8) us → Covers n (.octet :: us)

theorem Covers.full {n : Nat} {us : List PassUnit} (hn : 4 ≤ n) (h : Covers (n - 4) us) : Covers n (.group 4 :: us) := by
  have first := Covers.group (by omega : 0 < n) h
  rwa [Nat.min_eq_left hn] at first

theorem Covers.bulk {accel : Bool} {n : Nat} {us : List PassUnit} (hn : bulkSize accel + 12 ≤ n)
    (h : Covers (n - bulkSize accel) us) : Covers n (Tier.units accel .bulk ++ us) := by
  cases accel with
  | true =>
    have rest : Covers (n - 8 - 8 - 8 - 8) us := by rwa [Nat.sub_sub, Nat.sub_sub, Nat.sub_sub]
    have : 44 ≤ n := hn
    exact .octet (by omega) (.octet (by omega) (.octet (by omega) (.octet (by omega) rest)))
  | false =>
    have rest : Covers (n - 4 - 4 - 4 - 4) us := by rwa [Nat.sub_sub, Nat.sub_sub, Nat.sub_sub]
    have : 28 ≤ n := hn
    exact .full (by omega) (.full (by omega) (.full (by omega) (.full (by omega) rest)))

theorem Schedules.covers {accel : Bool} {n : Nat} {ts : List Tier} (h : Schedules accel n ts) :
    Covers n (ts.flatMap (Tier.units accel)) := by
  induction h with
  | nil => exact .nil
  | bulk margin _ ih => exact .bulk margin ih
  | full _ h4 _ ih => exact .full h4 ih
  | @partialGroup n h0 h4 =>
    have last := Covers.group h0 ((Nat.sub_eq_zero_of_le (Nat.le_of_lt h4)).symm ▸ Covers.nil)
    rwa [Nat.min_eq_right (Nat.le_of_lt h4)] at last

theorem covers_tierSchedule (accel : Bool) (n : Nat) : Covers n ((tierSchedule accel n).flatMap (Tier.units accel)) :=
  (schedules_tierSchedule accel n).covers

/-! ### The accesses of a sequence of units -/

/-- The accesses of units in order, the cursors carried along: what `encodeTiers_eq_runUnits` and `decodeTiers_eq_runUnits` say the
accesses of a schedule are. -/
def runUnits (step : PassUnit → Sequencer → List Access × Sequencer) : List PassUnit → Sequencer → List Access × Sequencer
  | [], q => ([], q)
  | u :: us, q => ((step u q).1 ++ (runUnits step us (step u q).2).1, (runUnits step us (step u q).2).2)

theorem runUnits_singleton (step : PassUnit → Sequencer → List Access × Sequencer) (u : PassUnit) (q : Sequencer) :
    runUnits step [u] q = step u q := by
  simp [runUnits]

theorem runUnits_append (step : PassUnit → Sequencer → List Access × Sequencer) (us us' : List PassUnit) (q : Sequencer) :
    runUnits step (us ++ us') q =
      ((runUnits step us q).1 ++ (runUnits step us' (runUnits step us q).2).1, (runUnits step us' (runUnits step us q).2).2) := by
  induction us generalizing q with
  | nil => rfl
  | cons u us ih => simp only [List.cons_append, runUnits, ih, List.append_assoc]

theorem repeatUnit_eq_runUnits (step : PassUnit → Sequencer → List Access × Sequencer) (u : PassUnit) (k : Nat) (q : Sequencer) :
    repeatUnit (step u) k q = runUnits step (List.replicate k u) q := by
  induction k generalizing q with
  | zero => rfl
  | succ k ih => simp only [repeatUnit, List.replicate_succ, runUnits, ih]

/-- The encoder's accesses for one unit. -/
def encodeUnit (x : Transfer) (vs : List Word) : PassUnit → Sequencer → List Access × Sequencer
  | .group r => encodeChunkUnit x vs r
  | .octet => encodeOctetUnit x vs

/-- The decoder's accesses for one unit. -/
def decodeUnit (x : Transfer) (view : Nat → Byte) : PassUnit → Sequencer → List Access × Sequencer
  | .group r => decodeChunkUnit x view r
  | .octet => decodeOctetUnit x view

theorem encodeTier_eq_runUnits (accel : Bool) (x : Transfer) (vs : List Word) (t : Tier) (q : Sequencer) :
    encodeTier accel x vs t q = runUnits (encodeUnit x vs) (t.units accel) q := by
  cases t with
  | bulk =>
    cases accel
    · exact repeatUnit_eq_runUnits (encodeUnit x vs) (.group 4) 4 q
    · exact repeatUnit_eq_runUnits (encodeUnit x vs) .octet 4 q
  | full => exact (runUnits_singleton (encodeUnit x vs) (.group 4) q).symm
  | partialGroup r => exact (runUnits_singleton (encodeUnit x vs) (.group r) q).symm

theorem decodeTier_eq_runUnits (accel : Bool) (x : Transfer) (view : Nat → Byte) (t : Tier) (q : Sequencer) :
    decodeTier accel x view t q = runUnits (decodeUnit x view) (t.units accel) q := by
  cases t with
  | bulk =>
    cases accel
    · exact repeatUnit_eq_runUnits (decodeUnit x view) (.group 4) 4 q
    · exact repeatUnit_eq_runUnits (decodeUnit x view) .octet 4 q
  | full => exact (runUnits_singleton (decodeUnit x view) (.group 4) q).symm
  | partialGroup r => exact (runUnits_singleton (decodeUnit x view) (.group r) q).symm

theorem encodeTiers_eq_runUnits (accel : Bool) (x : Transfer) (vs : List Word) (ts : List Tier) (q : Sequencer) :
    encodeTiers accel x vs ts q = (runUnits (encodeUnit x vs) (ts.flatMap (Tier.units accel)) q).1 := by
  induction ts generalizing q with
  | nil => rfl
  | cons t ts ih => simp only [encodeTiers, encodeTier_eq_runUnits, List.flatMap_cons, runUnits_append, ih]

theorem decodeTiers_eq_runUnits (accel : Bool) (x : Transfer) (view : Nat → Byte) (ts : List Tier) (q : Sequencer) :
    decodeTiers accel x view ts q = (runUnits (decodeUnit x view) (ts.flatMap (Tier.units accel)) q).1 := by
  induction ts generalizing q with
  | nil => rfl
  | cons t ts ih => simp only [decodeTiers, decodeTier_eq_runUnits, List.flatMap_cons, runUnits_append, ih]

/-! ### Where the accesses stand -/

/-- The `k` bytes from `a` up lie inside the `len` bytes from `base` up. -/
def Spans (base len a k : Nat) : Prop := base ≤ a ∧ a + k ≤ base + len

/-- An access of 1 to 16 bytes (R56), read where `rd` allows and written where `wr` allows. -/
def Access.Inside (rd wr : Nat → Nat → Prop) : Access → Prop
  | .read a n => 1 ≤ n ∧ n ≤ 16 ∧ rd a n
  | .write a bs => 1 ≤ bs.length ∧ bs.length ≤ 16 ∧ wr a bs.length

theorem Access.Inside.mono {rd wr rd' wr' : Nat → Nat → Prop} (hr : ∀ a k, rd a k → rd' a k) (hw : ∀ a k, wr a k → wr' a k) {x : Access}
    (h : Access.Inside rd wr x) : Access.Inside rd' wr' x := by
  cases x with
  | read a n => exact ⟨h.1, h.2.1, hr _ _ h.2.2⟩
  | write a bs => exact ⟨h.1, h.2.1, hw _ _ h.2.2⟩

/-! ### The obligation -/

/-- Settles O54: what is left of the schedule at a piece is again a schedule, whose first constructor says what holds there. -/
theorem tierScheduleCovers : Obligations.TierScheduleCovers := by
  intro accel n
  have whole := schedules_tierSchedule accel n
  refine ⟨whole.sum_tierCount, fun pre post h => ?bulk, fun pre post r h => ?partialGroup, fun pre post h => ?full⟩
  case bulk =>
    obtain ⟨m, left⟩ := (h ▸ whole).of_append
    cases left with
    | bulk margin rest => rw [rest.sum_tierCount]; omega
  case partialGroup =>
    obtain ⟨m, left⟩ := (h ▸ whole).of_append
    cases left with
    | partialGroup h0 h4 => exact ⟨rfl, h0, Nat.le_of_lt_succ h4⟩
  case full =>
    obtain ⟨m, left⟩ := (h ▸ whole).of_append
    cases left with
    | full margin h4 rest =>
      rw [rest.sum_tierCount, ← bulkSize_eq]
      omega

end Sys2Proof.Machine
end

section
/-! Proofs about memory as a function of the address, and writes that overlap. -/

namespace Sys2Proof.Machine

/-! ### Writes over a memory seen as a function -/

/-- Memory, seen as a function, after the bytes `bs` are written from `a` up. -/
def overwrite (f : Nat → Byte) (a : Nat) (bs : List Byte) : Nat → Byte :=
  fun x => if a ≤ x ∧ x < a + bs.length then bs.getD (x - a) 0 else f x

/-- Memory, seen as a function, after the writes of an access sequence. -/
def performs (f : Nat → Byte) : List Access → Nat → Byte
  | [] => f
  | .read _ _ :: as => performs f as
  | .write a bs :: as => performs (overwrite f a bs) as

theorem read_writeBytes_eq_overwrite (m : Memory) (a : Nat) (bs : List Byte) : (m.writeBytes a bs).read = overwrite m.read a bs :=
  funext fun x => Memory.read_writeBytes m a bs x

theorem read_replay_eq_performs (m : Memory) (as : List Access) : (m.replay as).read = performs m.read as := by
  induction as generalizing m with
  | nil => rfl
  | cons x as ih =>
    cases x with
    | read a n => exact ih m
    | write a bs => rw [Memory.replay, ih, read_writeBytes_eq_overwrite, performs]

theorem performs_append (f : Nat → Byte) (as bs : List Access) : performs f (as ++ bs) = performs (performs f as) bs := by
  induction as generalizing f with
  | nil => rfl
  | cons x as ih =>
    cases x with
    | read a n => exact ih f
    | write a xs => exact ih (overwrite f a xs)

theorem overwrite_nil (f : Nat → Byte) (a : Nat) : overwrite f a [] = f :=
  funext fun x => if_neg (by simp)

theorem overwrite_append (f : Nat → Byte) (a : Nat) (xs ys : List Byte) :
    overwrite f a (xs ++ ys) = overwrite (overwrite f a xs) (a + xs.length) ys := by
  funext x
  simp only [overwrite, List.length_append]
  by_cases inX : a ≤ x ∧ x < a + xs.length
  · rw [if_pos (by omega), if_neg (by omega), if_pos inX, List.getD_append _ _ _ _ (by omega)]
  · by_cases inY : a + xs.length ≤ x ∧ x < a + xs.length + ys.length
    · rw [if_pos (by omega), if_pos inY, List.getD_append_right _ _ _ _ (by omega), Nat.sub_sub]
    · rw [if_neg (by omega), if_neg inY, if_neg inX]

/-- Writes that do not meet can be done in either order. -/
theorem overwrite_comm (f : Nat → Byte) {a b : Nat} (xs ys : List Byte) (h : a + xs.length ≤ b) :
    overwrite (overwrite f a xs) b ys = overwrite (overwrite f b ys) a xs := by
  funext x
  simp only [overwrite]
  by_cases inX : a ≤ x ∧ x < a + xs.length
  · rw [if_pos inX, if_pos inX, if_neg (by omega)]
  · rw [if_neg inX, if_neg inX]

/-- A write hides an earlier one of no more bytes from the same address up. -/
theorem overwrite_overwrite_of_length_le (f : Nat → Byte) (a : Nat) {xs ys : List Byte} (h : xs.length ≤ ys.length) :
    overwrite (overwrite f a xs) a ys = overwrite f a ys := by
  funext x
  simp only [overwrite]
  by_cases inY : a ≤ x ∧ x < a + ys.length
  · rw [if_pos inY, if_pos inY]
  · rw [if_neg inY, if_neg inY, if_neg (by omega)]

/-- R138: what a store writes past its data goes when the data that follow are written. -/
theorem overwrite_padded (f : Nat → Byte) (a : Nat) (data pad : List Byte) {next : List Byte} (h : pad.length ≤ next.length) :
    overwrite (overwrite f a (data ++ pad)) (a + data.length) next = overwrite f a (data ++ next) := by
  rw [overwrite_append, overwrite_overwrite_of_length_le _ _ h, overwrite_append]

/-- Control bytes and data of one part of a stream, then of the part behind it. -/
theorem overwrite_part (f : Nat → Byte) {c p : Nat} (cs data cs' : List Byte) (data' : List Byte) (h : c + cs.length + cs'.length ≤ p) :
    overwrite (overwrite (overwrite (overwrite f c cs) p data) (c + cs.length) cs') (p + data.length) data' =
      overwrite (overwrite f c (cs ++ cs')) p (data ++ data') := by
  rw [← overwrite_comm _ cs' data h, ← overwrite_append, ← overwrite_append]

/-- As `overwrite_part`, with the data of two groups in stores that reach past them (R138). -/
theorem overwrite_padded_part (f : Nat → Byte) {c p : Nat} (cs data0 pad0 data1 pad1 cs' data' : List Byte)
    (h : c + cs.length + cs'.length ≤ p) (h0 : pad0.length ≤ data1.length + data'.length) (h1 : pad1.length ≤ data'.length) :
    overwrite (overwrite (overwrite (overwrite (overwrite f c cs) p (data0 ++ pad0)) (p + data0.length) (data1 ++ pad1))
        (c + cs.length) cs') (p + data0.length + data1.length) data' =
      overwrite (overwrite f c (cs ++ cs')) p (data0 ++ (data1 ++ data')) := by
  rw [← overwrite_comm _ cs' (data1 ++ pad1) (by omega), ← overwrite_comm _ cs' (data0 ++ pad0) h, ← overwrite_append,
    overwrite_padded _ _ _ _ h1, overwrite_padded _ _ _ _ (by rw [List.length_append]; exact h0)]

end Sys2Proof.Machine
end

section
/-! Proofs about the accesses of the stream encoder (43_stream.md R138 to R140, R144, R145). -/

namespace Sys2Proof.Machine

/-! ### Delta coding in pieces (R112) -/

theorem lastValue_cons (prev v : Word) (vs : List Word) : lastValue prev (v :: vs) = lastValue v vs :=
  List.getLastD_cons ..

theorem deltas_take (prev : Word) (vs : List Word) (k : Nat) : (deltas prev vs).take k = deltas prev (vs.take k) := by
  induction vs generalizing prev k with
  | nil => simp [deltas]
  | cons v vs ih =>
    cases k with
    | zero => rfl
    | succ k => rw [deltas, List.take_succ_cons, ih, List.take_succ_cons, deltas]

theorem deltas_drop (prev : Word) (vs : List Word) (k : Nat) :
    (deltas prev vs).drop k = deltas (lastValue prev (vs.take k)) (vs.drop k) := by
  induction vs generalizing prev k with
  | nil => simp [deltas]
  | cons v vs ih =>
    cases k with
    | zero => rfl
    | succ k => rw [deltas, List.drop_succ_cons, ih, List.take_succ_cons, lastValue_cons, List.drop_succ_cons]

theorem streamWords_take (delta : Bool) (prev : Word) (vs : List Word) (k : Nat) :
    (streamWords delta prev vs).take k = streamWords delta prev (vs.take k) := by
  cases delta
  · rfl
  · exact deltas_take prev vs k

theorem streamWords_drop (delta : Bool) (prev : Word) (vs : List Word) (k : Nat) :
    (streamWords delta prev vs).drop k = streamWords delta (lastValue prev (vs.take k)) (vs.drop k) := by
  cases delta
  · rfl
  · exact deltas_drop prev vs k

/-! ### The two parts of a stream (R76) -/

/-- The control bytes of a stream. -/
def streamCtrls (w : List Word) : List Byte := (chunks w).map chunkCtrl

/-- The data bytes of a stream. -/
def streamData (w : List Word) : List Byte := (chunks w).flatMap chunkData

theorem encodeStream_eq (w : List Word) : encodeStream w = streamCtrls w ++ streamData w := rfl

theorem streamCtrls_length (w : List Word) : (streamCtrls w).length = ctrlCount w.length := by
  rw [streamCtrls, List.length_map, chunks_length]

theorem streamCtrls_of_ne_nil {w : List Word} (h : w ≠ []) : streamCtrls w = chunkCtrl (w.take 4) :: streamCtrls (w.drop 4) := by
  rw [streamCtrls, chunks_of_ne_nil h, List.map_cons, streamCtrls]

theorem streamData_of_ne_nil {w : List Word} (h : w ≠ []) : streamData w = chunkData (w.take 4) ++ streamData (w.drop 4) := by
  rw [streamData, chunks_of_ne_nil h, List.flatMap_cons, streamData]

/-- The first two groups of a stream of more than four values. -/
theorem stream_of_two_groups {w : List Word} (h : 4 < w.length) :
    streamCtrls w = [chunkCtrl (w.take 4), chunkCtrl ((w.drop 4).take 4)] ++ streamCtrls (w.drop 8) ∧
      streamData w = chunkData (w.take 4) ++ (chunkData ((w.drop 4).take 4) ++ streamData (w.drop 8)) := by
  have first : w ≠ [] := List.ne_nil_of_length_pos (by omega)
  have second : w.drop 4 ≠ [] := List.ne_nil_of_length_pos (by rw [List.length_drop]; omega)
  rw [streamCtrls_of_ne_nil first, streamCtrls_of_ne_nil second, streamData_of_ne_nil first, streamData_of_ne_nil second,
    List.drop_drop]
  exact ⟨rfl, rfl⟩

/-- R77: every value has at least one byte. -/
theorem le_streamData_length (w : List Word) : w.length ≤ (streamData w).length := by
  have total := encodeStream_length w
  have bytes := (sum_map_lc_bounds w).1
  rw [encodeStream_eq, List.length_append, streamCtrls_length] at total
  omega

theorem chunkData_length_bounds {g : List Word} (h : g.length ≤ 4) :
    g.length ≤ (chunkData g).length ∧ (chunkData g).length ≤ 16 := by
  have bounds := sum_map_lc_bounds g
  rw [chunkData_length h]
  omega

/-! ### A full group on the vectorized datapath (R105, R117, R120) -/

/-- The bytes that a 16-byte store adds to the data of a group (R138). -/
def storePad (g : List Word) : List Byte := List.replicate (16 - (chunkData g).length) 0

theorem chunkData_eq_groupBytes {g : List Word} (h : g.length = 4) : chunkData g = groupBytes (lanesOf g) := by
  rw [chunkData_eq_valueBytes (Nat.le_of_eq h), groupBytes_eq_valueBytes, lanesOf_toList (Nat.le_of_eq h), h]
  simp

theorem totalLength_chunkCtrl_of_full {g : List Word} (h : g.length = 4) : totalLength (chunkCtrl g) = (chunkData g).length := by
  rw [chunkData_eq_groupBytes h, groupBytes_length]
  rfl

theorem vectorPack_chunkCtrl {g : List Word} (h : g.length = 4) : vectorPack (chunkCtrl g) (lanesOf g) = chunkData g ++ storePad g := by
  rw [storePad, ← totalLength_chunkCtrl_of_full h, chunkData_eq_groupBytes h]
  exact vectorPack_eq (lanesOf g)

/-- R120: the lanes of a full group's deltas. -/
theorem lanesOf_streamWords (delta : Bool) (prev : Word) {g : List Word} (h : g.length = 4) :
    (if delta then vectorDelta prev (lanesOf g) else lanesOf g) = lanesOf (streamWords delta prev g) := by
  obtain ⟨a, b, c, d, rfl⟩ : ∃ a b c d, g = [a, b, c, d] := by
    match g, h with
    | [a, b, c, d], _ => exact ⟨a, b, c, d, rfl⟩
  cases delta
  · rfl
  · rw [if_pos rfl, vectorDelta_eq_deltaQuad]
    rfl

theorem lanesOf_q3 (prev : Word) {g : List Word} (h : g.length = 4) : (lanesOf g).q3 = lastValue prev g := by
  match g, h with
  | [a, b, c, d], _ => rfl

/-! ### The encoder's units (R138 to R140) -/

/-- The words of the stream that the encoder has still to write. -/
def pendingWords (x : Transfer) (vs : List Word) (q : Sequencer) : List Word := streamWords x.delta q.prev (vs.drop q.idx)

theorem pendingWords_length (x : Transfer) (vs : List Word) (q : Sequencer) :
    (pendingWords x vs q).length = (vs.drop q.idx).length := streamWords_length _ _ _

/-- What one group does: it reads its values, and writes the control byte and the data of the first group that is pending. -/
theorem encodeUnit_group (x : Transfer) (vs : List Word) (q : Sequencer) {n : Nat} (hn : (vs.drop q.idx).length = n) :
    let w := pendingWords x vs q
    let g := w.take 4
    ∃ q', encodeUnit x vs (.group (min 4 n)) q =
        ([.read (x.values + 4 * q.idx) (4 * min 4 n), .write q.ctrlPos [chunkCtrl g], .write q.dataPos (chunkData g)], q') ∧
      q'.idx = q.idx + min 4 n ∧ q'.ctrlPos = q.ctrlPos + 1 ∧ q'.dataPos = q.dataPos + (chunkData g).length ∧
      pendingWords x vs q' = w.drop 4 := by
  intro w g
  have group : (vs.drop q.idx).take (min 4 n) = (vs.drop q.idx).take 4 := List.take_eq_take_iff.mpr (by omega)
  have rest : vs.drop (q.idx + min 4 n) = (vs.drop q.idx).drop 4 := by
    rw [← List.drop_drop]
    exact List.drop_eq_drop_iff.mpr (by omega)
  refine ⟨{ idx := q.idx + min 4 n, ctrlPos := q.ctrlPos + 1, dataPos := q.dataPos + (chunkData g).length,
            prev := lastValue q.prev ((vs.drop q.idx).take 4) }, ?_, rfl, rfl, rfl, ?_⟩
  · rw [encodeUnit, encodeChunkUnit, group, ← streamWords_take]
    rfl
  · rw [pendingWords, rest, ← streamWords_drop]
    rfl

theorem kernelControlByte_lanesOf (g : List Word) : kernelControlByte (lanesOf g) = chunkCtrl g := kernelControlByte_eq _

/-- What eight values on the vectorized datapath do: as two full groups, but that each store is of 16 bytes (R138). -/
theorem encodeUnit_octet (x : Transfer) (vs : List Word) (q : Sequencer) (hn : 8 ≤ (vs.drop q.idx).length) :
    let w := pendingWords x vs q
    let g0 := w.take 4
    let g1 := (w.drop 4).take 4
    ∃ q', encodeUnit x vs .octet q =
        ([.read (x.values + 4 * q.idx) 16, .read (x.values + 4 * q.idx + 16) 16, .write q.ctrlPos [chunkCtrl g0, chunkCtrl g1],
          .write q.dataPos (chunkData g0 ++ storePad g0), .write (q.dataPos + (chunkData g0).length) (chunkData g1 ++ storePad g1)],
          q') ∧
      q'.idx = q.idx + 8 ∧ q'.ctrlPos = q.ctrlPos + 2 ∧
      q'.dataPos = q.dataPos + (chunkData g0).length + (chunkData g1).length ∧ pendingWords x vs q' = w.drop 8 := by
  intro w g0 g1
  have len : w.length = (vs.drop q.idx).length := pendingWords_length x vs q
  have full0 : g0.length = 4 := by rw [List.length_take]; omega
  have full1 : g1.length = 4 := by rw [List.length_take, List.length_drop]; omega
  have values0 : ((vs.drop q.idx).take 8).take 4 = (vs.drop q.idx).take 4 := by rw [List.take_take]; rfl
  have values1 : ((vs.drop q.idx).take 8).drop 4 = ((vs.drop q.idx).drop 4).take 4 := by rw [List.drop_take]
  have lanes0 : (if x.delta then vectorDelta q.prev (lanesOf ((vs.drop q.idx).take 4)) else lanesOf ((vs.drop q.idx).take 4)) =
      lanesOf g0 := by
    rw [lanesOf_streamWords _ _ (by rw [List.length_take]; omega), ← streamWords_take]
    rfl
  have lanes1 : (if x.delta then vectorDelta (lanesOf ((vs.drop q.idx).take 4)).q3 (lanesOf (((vs.drop q.idx).drop 4).take 4))
      else lanesOf (((vs.drop q.idx).drop 4).take 4)) = lanesOf g1 := by
    rw [lanesOf_q3 q.prev (by rw [List.length_take]; omega), lanesOf_streamWords _ _ (by rw [List.length_take, List.length_drop]; omega),
      ← streamWords_take, ← streamWords_drop]
    rfl
  refine ⟨{ idx := q.idx + 8, ctrlPos := q.ctrlPos + 2, dataPos := q.dataPos + (chunkData g0).length + (chunkData g1).length,
            prev := lastValue q.prev ((vs.drop q.idx).take 8) }, ?_, rfl, rfl, rfl, ?_⟩
  · simp only [encodeUnit, encodeOctetUnit, values0, values1, lanes0, lanes1, kernelControlByte_lanesOf, vectorPack_chunkCtrl full0,
      vectorPack_chunkCtrl full1, totalLength_chunkCtrl_of_full full0, totalLength_chunkCtrl_of_full full1]
  · rw [pendingWords, ← List.drop_drop, ← streamWords_drop]
    rfl

theorem storePad_length {g : List Word} (h : g.length = 4) : (storePad g).length ≤ 12 := by
  have data := (chunkData_length_bounds (Nat.le_of_eq h)).1
  rw [storePad, List.length_replicate]
  omega

theorem ctrlCount_of_pos {n : Nat} (h : 0 < n) : ctrlCount n = 1 + ctrlCount (n - 4) := by
  simp only [ctrlCount]
  omega

theorem ctrlCount_of_eight_le {n : Nat} (h : 8 ≤ n) : ctrlCount n = 2 + ctrlCount (n - 8) := by
  simp only [ctrlCount]
  omega

/-! ### The encoder's accesses, performed (R145) -/

/-- From any cursors, the units that cover the pending values write the pending part of the stream. -/
theorem performs_encodeUnits (x : Transfer) (vs : List Word) {n : Nat} {us : List PassUnit} (hc : Covers n us) (q : Sequencer)
    (f : Nat → Byte) (hn : (vs.drop q.idx).length = n) (apart : q.ctrlPos + ctrlCount n ≤ q.dataPos) :
    performs f (runUnits (encodeUnit x vs) us q).1 =
      overwrite (overwrite f q.ctrlPos (streamCtrls (pendingWords x vs q))) q.dataPos (streamData (pendingWords x vs q)) := by
  induction hc generalizing q f with
  | nil =>
    have done : pendingWords x vs q = [] := List.eq_nil_of_length_eq_zero ((pendingWords_length x vs q).trans hn)
    rw [done]
    exact ((overwrite_nil _ _).trans (overwrite_nil _ _)).symm
  | @group n us positive _ ih =>
    have len := (pendingWords_length x vs q).trans hn
    have nonempty : pendingWords x vs q ≠ [] := List.ne_nil_of_length_pos (by omega)
    have count := ctrlCount_of_pos positive
    obtain ⟨q', unit, idx, ctrl, data, pending⟩ := encodeUnit_group x vs q hn
    have later (f' : Nat → Byte) := ih q' f' (by rw [List.length_drop] at hn ⊢; omega) (by omega)
    simp only [ctrl, data, pending] at later
    rw [runUnits, unit, performs_append, streamCtrls_of_ne_nil nonempty, streamData_of_ne_nil nonempty]
    refine (later _).trans (overwrite_part f [_] _ _ _ ?_)
    rw [streamCtrls_length, List.length_drop, len, List.length_singleton]
    omega
  | @octet n us large _ ih =>
    have len := (pendingWords_length x vs q).trans hn
    obtain ⟨ctrls, bytes⟩ := stream_of_two_groups (show 4 < (pendingWords x vs q).length by omega)
    have count := ctrlCount_of_eight_le (show 8 ≤ n by omega)
    have behind : 12 ≤ (streamData ((pendingWords x vs q).drop 8)).length :=
      le_trans (by rw [List.length_drop]; omega) (le_streamData_length _)
    obtain ⟨q', unit, idx, ctrl, data, pending⟩ := encodeUnit_octet x vs q (by omega)
    have later (f' : Nat → Byte) := ih q' f' (by rw [List.length_drop] at hn ⊢; omega) (by omega)
    simp only [ctrl, data, pending] at later
    rw [runUnits, unit, performs_append, ctrls, bytes]
    refine (later _).trans (overwrite_padded_part f [_, _] _ _ _ _ _ _ ?_ ?_ ?_)
    · rw [streamCtrls_length, List.length_drop, len]
      simp only [List.length_cons, List.length_nil]
      omega
    · exact (storePad_length (by rw [List.length_take]; omega)).trans (behind.trans (Nat.le_add_left _ _))
    · exact (storePad_length (by rw [List.length_take, List.length_drop]; omega)).trans behind

/-! ### Where the encoder's accesses stand (R144, R145) -/

/-- The accesses of the units that cover the pending values stand in what is pending of the value array and of the stream. -/
theorem encodeUnits_inside (x : Transfer) (vs : List Word) {n : Nat} {us : List PassUnit} (hc : Covers n us) (q : Sequencer)
    (hn : (vs.drop q.idx).length = n) :
    ∀ a ∈ (runUnits (encodeUnit x vs) us q).1, Access.Inside (Spans (x.values + 4 * q.idx) (4 * n))
      (fun b k => Spans q.ctrlPos (ctrlCount n) b k ∨ Spans q.dataPos (streamData (pendingWords x vs q)).length b k) a := by
  induction hc generalizing q with
  | nil => exact fun a ha => absurd ha List.not_mem_nil
  | @group n us positive _ ih =>
    have len := (pendingWords_length x vs q).trans hn
    have nonempty : pendingWords x vs q ≠ [] := List.ne_nil_of_length_pos (by omega)
    have count := ctrlCount_of_pos positive
    obtain ⟨q', unit, idx, ctrl, data, pending⟩ := encodeUnit_group x vs q hn
    have later := ih q' (by rw [List.length_drop] at hn ⊢; omega)
    rw [idx, ctrl, data, pending] at later
    obtain ⟨small, large⟩ := chunkData_length_bounds (List.length_take_le 4 (pendingWords x vs q))
    rw [List.length_take, len] at small
    rw [runUnits, unit, streamData_of_ne_nil nonempty, List.length_append, List.forall_mem_append]
    refine ⟨?_, fun a ha => (later a ha).mono (fun b k => ?_) (fun b k => ?_)⟩
    · simp only [List.forall_mem_cons, Access.Inside, Spans, List.length_singleton]
      exact ⟨by omega, by omega, by omega, fun _ h => absurd h List.not_mem_nil⟩
    · simp only [Spans]; omega
    · simp only [Spans]; omega
  | @octet n us large _ ih =>
    have len := (pendingWords_length x vs q).trans hn
    obtain ⟨ctrls, bytes⟩ := stream_of_two_groups (show 4 < (pendingWords x vs q).length by omega)
    have count := ctrlCount_of_eight_le (show 8 ≤ n by omega)
    have behind : 12 ≤ (streamData ((pendingWords x vs q).drop 8)).length :=
      le_trans (by rw [List.length_drop]; omega) (le_streamData_length _)
    obtain ⟨q', unit, idx, ctrl, data, pending⟩ := encodeUnit_octet x vs q (by omega)
    have later := ih q' (by rw [List.length_drop] at hn ⊢; omega)
    rw [idx, ctrl, data, pending] at later
    obtain ⟨small0, large0⟩ := chunkData_length_bounds (List.length_take_le 4 (pendingWords x vs q))
    obtain ⟨small1, large1⟩ := chunkData_length_bounds (List.length_take_le 4 ((pendingWords x vs q).drop 4))
    rw [List.length_take, len] at small0
    rw [List.length_take, List.length_drop, len] at small1
    rw [runUnits, unit, bytes, List.length_append, List.length_append, List.forall_mem_append]
    refine ⟨?_, fun a ha => (later a ha).mono (fun b k => ?_) (fun b k => ?_)⟩
    · simp only [List.forall_mem_cons, Access.Inside, Spans, List.length_append, storePad, List.length_replicate, List.length_cons,
        List.length_nil]
      exact ⟨by omega, by omega, by omega, by omega, by omega, fun _ h => absurd h List.not_mem_nil⟩
    · simp only [Spans]; omega
    · simp only [Spans]; omega

/-! ### The obligations -/

/-- Settles O55: the units of the schedule cover all values, and from the first cursors the whole stream is pending. -/
theorem encoderAccessesWriteStream : Obligations.EncoderAccessesWriteStream := by
  intro accel delta prev src dst vs m a
  refine congrFun ?_ a
  rw [read_replay_eq_performs, read_writeBytes_eq_overwrite, encoderTrace, encodeTiers_eq_runUnits,
    performs_encodeUnits _ vs (covers_tierSchedule accel vs.length) _ _ rfl (Nat.le_refl _)]
  show overwrite (overwrite _ dst (streamCtrls (streamWords delta prev vs))) (dst + ctrlCount vs.length)
    (streamData (streamWords delta prev vs)) = overwrite _ dst (encodeStream (streamWords delta prev vs))
  rw [encodeStream_eq, overwrite_append, streamCtrls_length, streamWords_length]

/-- Settles O57: at the first cursors all values and the whole stream are pending. -/
theorem encoderAccessesInFootprint : Obligations.EncoderAccessesInFootprint := by
  intro accel delta prev src dst vs len y hy
  rw [encoderTrace, encodeTiers_eq_runUnits] at hy
  have stream : len = ctrlCount vs.length + (streamData (streamWords delta prev vs)).length := by
    show (encodeStream (streamWords delta prev vs)).length = _
    rw [encodeStream_eq, List.length_append, streamCtrls_length, streamWords_length]
  have inside := encodeUnits_inside _ vs (covers_tierSchedule accel vs.length) _ rfl y hy
  refine ⟨?_, ?_⟩
  · rintro a n rfl
    obtain ⟨lo, hi, span⟩ := inside
    exact ⟨lo, hi, span⟩
  · rintro a bs rfl
    obtain ⟨lo, hi, span⟩ := inside
    simp only [Spans, pendingWords, List.drop_zero] at span
    omega

end Sys2Proof.Machine
end

section
/-! Proofs about the accesses of the stream decoder (43_stream.md R141 to R145). -/

namespace Sys2Proof.Machine

/-! ### Running sums in pieces (R113) -/

theorem prefixes_append (prev : Word) (ds es : List Word) :
    prefixes prev (ds ++ es) = prefixes prev ds ++ prefixes (lastValue prev (prefixes prev ds)) es := by
  induction ds generalizing prev with
  | nil => rfl
  | cons d ds ih => rw [List.cons_append, prefixes, ih, prefixes, lastValue_cons, List.cons_append]

theorem streamValues_append (delta : Bool) (prev : Word) (xs ys : List Word) :
    streamValues delta prev (xs ++ ys) =
      streamValues delta prev xs ++ streamValues delta (lastValue prev (streamValues delta prev xs)) ys := by
  cases delta
  · rfl
  · exact prefixes_append prev xs ys

/-- R119: the lanes of a register's running sums. -/
theorem toList_vectorPrefix (delta : Bool) (prev : Word) (q : Quad) :
    (if delta then vectorPrefix prev q else q).toList = streamValues delta prev q.toList := by
  cases delta
  · rfl
  · rw [if_pos rfl, vectorPrefix_eq_prefixQuad]
    rfl

/-! ### The bytes of a stream, seen through a reader -/

theorem viewBytes_add (view : Nat → Byte) (a m n : Nat) :
    viewBytes view a (m + n) = viewBytes view a m ++ viewBytes view (a + m) n := by
  simp [viewBytes, List.range_add, Function.comp_def, Nat.add_assoc]

theorem viewBytes_one_add (view : Nat → Byte) (a n : Nat) : viewBytes view a (1 + n) = view a :: viewBytes view (a + 1) n :=
  viewBytes_add view a 1 n

theorem viewBytes_take (view : Nat → Byte) (a : Nat) {m n : Nat} (h : m ≤ n) : (viewBytes view a n).take m = viewBytes view a m := by
  obtain ⟨d, rfl⟩ := Nat.exists_eq_add_of_le h
  rw [viewBytes_add, List.take_left' (viewBytes_length view a m)]

theorem viewBytes_drop (view : Nat → Byte) (a m n : Nat) : (viewBytes view a (m + n)).drop m = viewBytes view (a + m) n := by
  rw [viewBytes_add, List.drop_left' (viewBytes_length view a m)]

/-- The length of the data that the control bytes at `c` declare for `n` values (R143). -/
def viewLen (view : Nat → Byte) (c n : Nat) : Nat := dataLen (viewBytes view c (ctrlCount n)) n

/-- The `n` values that the control bytes at `c` and the data at `p` decode to (R134). -/
def viewWords (view : Nat → Byte) (c p n : Nat) : List Word :=
  decodeChunks (viewBytes view c (ctrlCount n)) n (viewBytes view p (viewLen view c n))

/-- A stream at `src`, as `viewLen` and `viewWords` see it. -/
theorem decodeStream_viewBytes (view : Nat → Byte) (src n : Nat) :
    (decodeStream n (viewBytes view src (ctrlCount n + viewLen view src n))).1 = viewWords view src (src + ctrlCount n) n := by
  rw [decodeStream, viewBytes_take view src (Nat.le_add_right _ _), viewBytes_drop]
  rfl

theorem chunkLen_bounds (c : Byte) (r : Nat) : r ≤ chunkLen c r ∧ chunkLen c r ≤ 4 * r := by
  unfold chunkLen
  induction r with
  | zero => exact ⟨Nat.le_refl _, Nat.le_refl _⟩
  | succ r ih =>
    have len := fieldLen_bounds c r
    rw [fieldOffset]
    omega

/-- R77: every value has at least one byte. -/
theorem le_dataLen (cs : List Byte) (n : Nat) (h : cs.length = ctrlCount n) : n ≤ dataLen cs n := by
  induction cs generalizing n with
  | nil => simp only [List.length_nil, ctrlCount] at h; omega
  | cons c cs ih =>
    rw [List.length_cons] at h
    have first := (chunkLen_bounds c (min 4 n)).1
    have rest := ih (n - 4) (by simp only [ctrlCount] at h ⊢; omega)
    rw [dataLen]
    omega

theorem le_viewLen (view : Nat → Byte) (c n : Nat) : n ≤ viewLen view c n := le_dataLen _ n (viewBytes_length _ _ _)

theorem viewLen_of_pos (view : Nat → Byte) (c : Nat) {n : Nat} (h : 0 < n) :
    viewLen view c n = chunkLen (view c) (min 4 n) + viewLen view (c + 1) (n - 4) := by
  rw [viewLen, ctrlCount_of_pos h, viewBytes_one_add, dataLen, viewLen]

theorem fieldOffset_mono (c : Byte) : Monotone (fieldOffset c) :=
  monotone_nat_of_le_succ fun i => Nat.le_add_right _ (fieldLen c i)

/-- R111: the first `r` values of a group are read from the bytes of their fields. -/
theorem decodeGroup_take_toList (c : Byte) (bytes : List Byte) {r : Nat} (hr : r ≤ 4) :
    (decodeGroup c (bytes.take (fieldOffset c r))).toList.take r = (decodeGroup c bytes).toList.take r := by
  rw [decodeGroup_toList, decodeGroup_toList, ← List.map_take, ← List.map_take, List.take_range, Nat.min_eq_left hr]
  refine List.map_congr_left fun i hi => ?_
  have inside : fieldOffset c i + fieldLen c i ≤ fieldOffset c r := fieldOffset_mono c (List.mem_range.mp hi)
  rw [fieldValue, fieldValue, List.drop_take, List.take_take, Nat.min_eq_left (by omega)]

/-- R134: the first group of a stream, and the rest. -/
theorem viewWords_of_pos (view : Nat → Byte) (c p : Nat) {n : Nat} (h : 0 < n) :
    let len := chunkLen (view c) (min 4 n)
    viewWords view c p n =
      (decodeGroup (view c) (viewBytes view p len)).toList.take (min 4 n) ++ viewWords view (c + 1) (p + len) (n - 4) := by
  intro len
  have group : (decodeGroup (view c) (viewBytes view p (len + viewLen view (c + 1) (n - 4)))).toList.take (min 4 n) =
      (decodeGroup (view c) (viewBytes view p len)).toList.take (min 4 n) := by
    rw [← decodeGroup_take_toList (view c) _ (Nat.min_le_left 4 n)]
    exact congrArg (fun bytes => (decodeGroup (view c) bytes).toList.take (min 4 n)) (viewBytes_take view p (Nat.le_add_right _ _))
  rw [viewWords, viewLen_of_pos view c h, ctrlCount_of_pos h, viewBytes_one_add, decodeChunks, group, viewBytes_drop]
  rfl

/-- R141: the 16 bytes loaded for a full group decode as the group's own bytes do. -/
theorem toList_vectorUnpack_viewBytes (view : Nat → Byte) (c : Byte) (p : Nat) :
    (vectorUnpack c (viewBytes view p 16)).toList = (decodeGroup c (viewBytes view p (chunkLen c 4))).toList.take 4 := by
  have own := decodeGroup_take_toList c (viewBytes view p 16) (Nat.le_refl 4)
  have total : fieldOffset c 4 ≤ 16 := (totalLength_bounds c).2
  rw [viewBytes_take view p total] at own
  rw [vectorUnpack_eq_decodeGroup]
  exact own.symm

/-! ### The decoder's units (R141, R142) -/

/-- The values that the decoder has still to deliver, when `n` of them are left. -/
def pendingValues (x : Transfer) (view : Nat → Byte) (n : Nat) (q : Sequencer) : List Word :=
  streamValues x.delta q.prev (viewWords view q.ctrlPos q.dataPos n)

/-- What one group does: it reads its control byte and its data, and writes the first values that are pending. -/
theorem decodeUnit_group (x : Transfer) (view : Nat → Byte) (q : Sequencer) {n : Nat} (hn : 0 < n) :
    let len := chunkLen (view q.ctrlPos) (min 4 n)
    ∃ v q', decodeUnit x view (.group (min 4 n)) q =
        ([.read q.ctrlPos 1, .read q.dataPos len, .write (x.values + 4 * q.idx) (bytesOfWords v)], q') ∧
      v.length = min 4 n ∧ q'.idx = q.idx + min 4 n ∧ q'.ctrlPos = q.ctrlPos + 1 ∧ q'.dataPos = q.dataPos + len ∧
      pendingValues x view n q = v ++ pendingValues x view (n - 4) q' := by
  intro len
  refine ⟨_, _, rfl, ?_, rfl, rfl, rfl, ?_⟩
  · rw [streamValues_length, List.length_take]
    exact Nat.min_eq_left (Nat.min_le_left 4 n)
  · rw [pendingValues, viewWords_of_pos view _ _ hn, streamValues_append]
    rfl

/-- What eight values on the vectorized datapath do: as two full groups, but that each load is of 16 bytes (R141). -/
theorem decodeUnit_octet (x : Transfer) (view : Nat → Byte) (q : Sequencer) {n : Nat} (hn : 8 ≤ n) :
    let len0 := chunkLen (view q.ctrlPos) 4
    let len1 := chunkLen (view (q.ctrlPos + 1)) 4
    ∃ v0 v1 q', decodeUnit x view .octet q =
        ([.read q.ctrlPos 2, .read q.dataPos 16, .read (q.dataPos + len0) 16, .write (x.values + 4 * q.idx) (bytesOfWords v0),
          .write (x.values + 4 * q.idx + 16) (bytesOfWords v1)], q') ∧
      v0.length = 4 ∧ v1.length = 4 ∧ q'.idx = q.idx + 8 ∧ q'.ctrlPos = q.ctrlPos + 2 ∧ q'.dataPos = q.dataPos + len0 + len1 ∧
      pendingValues x view n q = v0 ++ (v1 ++ pendingValues x view (n - 8) q') := by
  intro len0 len1
  refine ⟨_, _, _, rfl, rfl, rfl, rfl, rfl, rfl, ?_⟩
  have first : min 4 n = 4 := Nat.min_eq_left (by omega)
  have second : min 4 (n - 4) = 4 := Nat.min_eq_left (by omega)
  rw [pendingValues, viewWords_of_pos view _ _ (by omega : 0 < n), viewWords_of_pos view _ _ (by omega : 0 < n - 4), first, second,
    Nat.sub_sub, ← toList_vectorUnpack_viewBytes, ← toList_vectorUnpack_viewBytes, streamValues_append, streamValues_append,
    ← toList_vectorPrefix, ← toList_vectorPrefix]
  rfl

/-! ### The decoder's accesses, performed (R145) -/

theorem bytesOfWords_append (us vs : List Word) : bytesOfWords (us ++ vs) = bytesOfWords us ++ bytesOfWords vs :=
  List.flatMap_append

/-- From any cursors, the units that cover `n` values write the values that are pending. -/
theorem performs_decodeUnits (x : Transfer) (view : Nat → Byte) {n : Nat} {us : List PassUnit} (hc : Covers n us) (q : Sequencer)
    (f : Nat → Byte) :
    performs f (runUnits (decodeUnit x view) us q).1 =
      overwrite f (x.values + 4 * q.idx) (bytesOfWords (pendingValues x view n q)) := by
  induction hc generalizing q f with
  | nil =>
    have done : pendingValues x view 0 q = [] := List.eq_nil_of_length_eq_zero (streamValues_length _ _ _)
    rw [done]
    exact (overwrite_nil _ _).symm
  | @group n us positive _ ih =>
    obtain ⟨v, q', unit, len, idx, -, -, pending⟩ := decodeUnit_group x view q positive
    have next : x.values + 4 * q'.idx = x.values + 4 * q.idx + (bytesOfWords v).length := by
      rw [bytesOfWords_length]; omega
    rw [runUnits, unit, performs_append, ih, next, pending, bytesOfWords_append, overwrite_append]
    rfl
  | @octet n us large _ ih =>
    obtain ⟨v0, v1, q', unit, len0, len1, idx, -, -, pending⟩ := decodeUnit_octet x view q (by omega : 8 ≤ n)
    have bytes0 : (bytesOfWords v0).length = 16 := by rw [bytesOfWords_length, len0]
    have bytes1 : (bytesOfWords v1).length = 16 := by rw [bytesOfWords_length, len1]
    have next : x.values + 4 * q'.idx = x.values + 4 * q.idx + 16 + 16 := by omega
    rw [runUnits, unit, performs_append, ih, next, pending, bytesOfWords_append, bytesOfWords_append, overwrite_append,
      overwrite_append, bytes0, bytes1]
    rfl

/-! ### Where the decoder's accesses stand (R143 to R145) -/

/-- The accesses of the units that cover `n` values stand in what is pending of the stream and of the value array. -/
theorem decodeUnits_inside (x : Transfer) (view : Nat → Byte) {n : Nat} {us : List PassUnit} (hc : Covers n us) (q : Sequencer) :
    ∀ a ∈ (runUnits (decodeUnit x view) us q).1, Access.Inside
      (fun b k => Spans q.ctrlPos (ctrlCount n) b k ∨ Spans q.dataPos (viewLen view q.ctrlPos n) b k)
      (Spans (x.values + 4 * q.idx) (4 * n)) a := by
  induction hc generalizing q with
  | nil => exact fun a ha => absurd ha List.not_mem_nil
  | @group n us positive _ ih =>
    obtain ⟨v, q', unit, len, idx, ctrl, data, -⟩ := decodeUnit_group x view q positive
    have count := ctrlCount_of_pos positive
    have later := ih q'
    rw [idx, ctrl, data] at later
    obtain ⟨small, large⟩ := chunkLen_bounds (view q.ctrlPos) (min 4 n)
    rw [runUnits, unit, viewLen_of_pos view _ positive, List.forall_mem_append]
    refine ⟨?_, fun a ha => (later a ha).mono (fun b k => ?_) (fun b k => ?_)⟩
    · simp only [List.forall_mem_cons, Access.Inside, Spans, bytesOfWords_length, len]
      exact ⟨by omega, by omega, by omega, fun _ h => absurd h List.not_mem_nil⟩
    · simp only [Spans]; omega
    · simp only [Spans]; omega
  | @octet n us large _ ih =>
    obtain ⟨v0, v1, q', unit, len0, len1, idx, ctrl, data, -⟩ := decodeUnit_octet x view q (by omega : 8 ≤ n)
    have count := ctrlCount_of_eight_le (by omega : 8 ≤ n)
    have later := ih q'
    rw [idx, ctrl, data] at later
    have declared : viewLen view q.ctrlPos n =
        chunkLen (view q.ctrlPos) 4 + (chunkLen (view (q.ctrlPos + 1)) 4 + viewLen view (q.ctrlPos + 2) (n - 8)) := by
      rw [viewLen_of_pos view _ (by omega : 0 < n), viewLen_of_pos view _ (by omega : 0 < n - 4), Nat.min_eq_left (by omega : 4 ≤ n),
        Nat.min_eq_left (by omega : 4 ≤ n - 4), Nat.sub_sub]
    have behind := le_viewLen view (q.ctrlPos + 2) (n - 8)
    have bounds0 := chunkLen_bounds (view q.ctrlPos) 4
    have bounds1 := chunkLen_bounds (view (q.ctrlPos + 1)) 4
    rw [runUnits, unit, declared, List.forall_mem_append]
    refine ⟨?_, fun a ha => (later a ha).mono (fun b k => ?_) (fun b k => ?_)⟩
    · simp only [List.forall_mem_cons, Access.Inside, Spans, bytesOfWords_length, len0, len1]
      exact ⟨by omega, by omega, by omega, by omega, by omega, fun _ h => absurd h List.not_mem_nil⟩
    · simp only [Spans]; omega
    · simp only [Spans]; omega

/-! ### The obligations -/

/-- Settles O56: the units of the schedule cover all values, and from the first cursors all of them are pending. -/
theorem decoderAccessesWriteValues : Obligations.DecoderAccessesWriteValues := by
  intro accel delta prev src dst n m a need xs
  have values : xs = viewWords (fun y => m.read y) src (src + ctrlCount n) n := decodeStream_viewBytes (fun y => m.read y) src n
  refine congrFun ?_ a
  rw [read_replay_eq_performs, read_writeBytes_eq_overwrite, decoderTrace, decodeTiers_eq_runUnits,
    performs_decodeUnits _ _ (covers_tierSchedule accel n), values]
  rfl

/-- Settles O58: the pre-pass reads each control byte; at the first cursors the whole stream and all values are pending. -/
theorem decoderAccessesInFootprint : Obligations.DecoderAccessesInFootprint := by
  intro accel delta prev view src dst n need
  refine ⟨fun y hy => ?_, fun a hlo hhi => ?_, fun y hy => ?_⟩
  · obtain ⟨k, hk, rfl⟩ := List.mem_map.mp hy
    have := List.mem_range.mp hk
    exact ⟨src + k, rfl, by omega, by omega⟩
  · exact List.mem_map.mpr ⟨a - src, List.mem_range.mpr (by omega), by rw [Nat.add_sub_cancel' hlo]⟩
  · have stream : need = ctrlCount n + viewLen view src n := rfl
    rw [decoderTrace, decodeTiers_eq_runUnits] at hy
    have inside := decodeUnits_inside _ view (covers_tierSchedule accel n) _ y hy
    refine ⟨?_, ?_⟩
    · rintro a k rfl
      obtain ⟨lo, hi, span⟩ := inside
      simp only [Spans] at span
      omega
    · rintro a bs rfl
      obtain ⟨lo, hi, span⟩ := inside
      exact ⟨lo, hi, span⟩

end Sys2Proof.Machine
end
